-- ==== Sys2Proof/Word.lean ====
section
/-! DEFINITION. The word and byte of the PNGME chunk engine: `W` = 32 bits (00_scope.md R5), a byte of 8 bits (R6). -/

namespace Sys2Proof

/-- The value of every register, length, offset and CRC (00_scope.md R5: `W`, 32 bits, fixed). -/
abbrev Word := BitVec 32

/-- One byte of a buffer (00_scope.md R6). -/
abbrev Byte := BitVec 8

end Sys2Proof
end

