-- ==== Sys2Proof/Machine/Types.lean ====
section
/-! DEFINITION. The data types of the machine: error kinds, frame table entries, results of the frame reader, the register
names and the host's accesses. -/

namespace Sys2Proof.Machine

/-- The error kinds of 60_exceptions.md R230, under the table's names. Kinds 6 and 7 are reserved for host software: the
engine never raises them (R233). -/
inductive ErrorKind where
  | none
  | invalidChunkType
  | invalidSignature
  | unexpectedEof
  | crcMismatch
  | malformedChunkStream
  | invalidUtf8
  | chunkNotFound
  | illegalCommand
  | range
  | capacity
deriving DecidableEq, Repr

/-- One entry of the frame table (10_state.md R45): four 32-bit fields. -/
structure FrameEntry where
  type    : Word
  len     : Word
  dataOff : Word
  crc     : Word
deriving DecidableEq, Repr, Inhabited

/-- What `frame_at` returns (43_frame.md R180). `ok e next`: the frame's fields, and the offset just past it. -/
inductive FrameResult where
  | eof
  | mismatch (stored computed : Word)
  | ok (e : FrameEntry) (next : Nat)
deriving DecidableEq, Repr

/-- How the frame loop of STREAM_PARSE ends (44_stream.md R213): all frames read, or stopped at offset `q` with `k`
frames read. -/
inductive StreamResult where
  | done (es : List FrameEntry)
  | eof (q k : Nat)
  | mismatch (q k : Nat) (stored computed : Word)
  | full (q k : Nat)
deriving DecidableEq, Repr

/-- The 27 registers of 10_state.md R22. -/
inductive Reg where
  | cmd | status | argOff | argLen | inLen | inPtr | outPtr | type | typeFlags | crcAcc | crcResult | len | dataOff
  | storedCrc | computedCrc | frameCount | ftIndex | ftType | ftLen | ftDataOff | ftCrc | errOff | errFrame | id
  | capIn | capOut | capFrames
deriving DecidableEq, Repr

/-- The three host-visible address spaces (20_memory.md R60). -/
inductive Space where
  | reg | inBuf | outBuf
deriving DecidableEq, Repr

/-- The value a host write carries: a number of the program, or the value the host's last read returned (what `out2in`
of 30_encoding.md R98 writes back, and what R142 asks of a host that compares FT_TYPE). -/
inductive HostValue where
  | lit (v : Word)
  | lastRead
deriving DecidableEq, Repr

/-- A host access reads or writes. -/
inductive HostOp where
  | read
  | write (v : HostValue)
deriving DecidableEq, Repr

/-- One host access as 30_encoding.md R97 encodes it: (space, offset, width, value). Any offset and any width can be
asked for; 20_memory.md R63 says which are admitted. -/
structure HostAccess where
  space  : Space
  offset : Nat
  width  : Nat
  op     : HostOp
deriving DecidableEq, Repr

/-- What the outside world does to the engine, one step each. -/
inductive HostEvent where
  /-- One host access (30_encoding.md R97). -/
  | access (a : HostAccess)
  /-- The platform asserts reset between two accesses (70_reset_and_hazards.md R260, R261). -/
  | reset
  /-- The host writes `w` to CMD and the platform asserts reset while that command runs (R262). -/
  | resetDuring (w : Word)
  /-- The bus error that ends the CMD write of an abandoned command (R262). Only the model puts it into the list of
  pending events, right after the step that abandoned the command (log entry 11). -/
  | abandonedReply
deriving DecidableEq, Repr

end Sys2Proof.Machine
end

