-- ==== Sys2Proof/Config.lean ====
section
/-! DEFINITION. What an implementation fixes (00_scope.md R5) and the free values: constants with no body, so that no claim
can rest on what they are. -/

namespace Sys2Proof

/-- The implementation parameters of 00_scope.md R5. The three sizes are 32-bit numbers, which is the spec's upper bound
2^32 - 1; `Params.ok` is its lower bound. No rule of a step reads the bases or the latency (70_reset_and_hazards.md R275). -/
structure Params where
  /-- IN_CAP, the size of IN_BUF in bytes. -/
  inCap     : Word
  /-- OUT_CAP, the size of OUT_BUF in bytes. -/
  outCap    : Word
  /-- MAX_FRAMES, the number of frame table entries. -/
  maxFrames : Word
  /-- REG_BASE, where the platform puts the register file. -/
  regBase   : Nat
  /-- IN_BASE, where the platform puts IN_BUF. -/
  inBase    : Nat
  /-- OUT_BASE, where the platform puts OUT_BUF. -/
  outBase   : Nat
  /-- LATENCY, finite and read by no rule. -/
  latency   : Nat
deriving DecidableEq, Repr

/-- The bounds 1 ≤ IN_CAP, OUT_CAP, MAX_FRAMES of 00_scope.md R5. -/
def Params.ok (p : Params) : Bool := p.inCap != 0 && p.outCap != 0 && p.maxFrames != 0

/-- The parameters `State.reset` carries: the sizes of 95_test_vectors.md ("Conventions"). DESIGN CHOICE, unsafe: R5
leaves every one of them OPEN, so every claim is made over a state's own `params` (log entry 4). -/
def Config.params : Params where
  inCap     := 64
  outCap    := 64
  maxFrames := 4
  regBase   := 0x0000
  inBase    := 0x1000
  outBase   := 0x2000
  latency   := 0

/-- Free value: what IN_BUF holds at an offset nothing has written since power-on (20_memory.md R65, 93 U3). It depends
on the offset alone, since reads repeat with the same result (R75). Log entry 1. -/
opaque Config.powerOnIn : Nat → Byte

/-- Free value: what OUT_BUF holds at an offset nothing has written since power-on (20_memory.md R65, 93 U3). Log entry 1. -/
opaque Config.powerOnOut : Nat → Byte

/-- Free value: what frame table entry `i` holds when nothing has written it since power-on (70 R261, 93 U4); no state a
run reaches shows it. Log entry 7. -/
opaque Config.powerOnFrame : Nat → Machine.FrameEntry

/-- Free value: what an abandoned command leaves in OUT_BUF (70 R262, 93 U5), by the number of the draw and the offset.
Log entry 3. -/
opaque Config.abandonedByte : Nat → Nat → Byte

end Sys2Proof
end

