-- ==== Sys2Proof/Syntax.lean ====
section
/-! DEFINITION. The commands of the engine: one constructor per row of spec/opcode_table.json (30_encoding.md R93). -/

namespace Sys2Proof

/-- The 14 commands of 30_encoding.md R93. No command word holds an operand (R91): every operand is in a register, and
the flag F of word 0x121 is part of which command it is. -/
inductive Instr where
  /-- NOP, word 0x00000000 (40_control.md R115). -/
  | nop
  /-- CRC_INIT, word 0x00000001 (42_crc.md R165). -/
  | crcInit
  /-- CRC_FEED, word 0x00000002 (42_crc.md R166). -/
  | crcFeed
  /-- CRC_FINAL, word 0x00000003 (42_crc.md R167). -/
  | crcFinal
  /-- CRC_COMPUTE, word 0x00000004 (42_crc.md R168). -/
  | crcCompute
  /-- TYPE_FROM_BYTES, word 0x00000010 (41_chunk_type.md R140). -/
  | typeFromBytes
  /-- TYPE_FROM_STRING, word 0x00000011 (41_chunk_type.md R141). -/
  | typeFromString
  /-- TYPE_CMP, word 0x00000012 (41_chunk_type.md R142). -/
  | typeCmp
  /-- FRAME_SERIALIZE, word 0x00000020 (43_frame.md R181). -/
  | frameSerialize
  /-- FRAME_PARSE, word 0x00000021 (43_frame.md R183). -/
  | frameParse
  /-- FRAME_PARSE_EMIT, word 0x00000121 (43_frame.md R184). -/
  | frameParseEmit
  /-- SIG_EMIT, word 0x00000030 (44_stream.md R211). -/
  | sigEmit
  /-- SIG_CHECK, word 0x00000031 (44_stream.md R212). -/
  | sigCheck
  /-- STREAM_PARSE, word 0x00000032 (44_stream.md R213). -/
  | streamParse
deriving DecidableEq, Repr

end Sys2Proof
end

