-- ==== Sys2Proof/Machine/State.lean ====
section
/-! DEFINITION. The state of the machine, as plain data: every register of 10_state.md R22 that has storage, the frame
table, the two buffers, and the host's side of a run. Its reset value. Why a step can stop. -/

namespace Sys2Proof.Machine

/-- Why the machine stops: a host access that is not admitted (20_memory.md R63: "A model treats it as a *fault* of the
host step"), or the CMD write of an abandoned command (70_reset_and_hazards.md R262). Raised by `hostEvent` only, never by
a command. All safe: the model stops where the host gets a bus error. -/
inductive Fault where
  /-- A REG access of a width other than 32 bits (R63). Raised by `accessFault`. Safe. -/
  | regWidth
  /-- A REG access at an offset that is not a multiple of 4 (R63). Raised by `accessFault`. Safe. -/
  | regMisaligned
  /-- A REG access at an offset past the 4096 bytes of the space (R60). Raised by `accessFault`. Safe (log entry 9). -/
  | regOutside
  /-- A buffer access of a width other than 8 bits (R63). Raised by `accessFault`. Safe. -/
  | bufWidth
  /-- An IN_BUF access at an offset of IN_CAP or more (R63). Raised by `accessFault`. Safe. -/
  | inOffset
  /-- An OUT_BUF access at an offset of OUT_CAP or more (R63). Raised by `accessFault`. Safe. -/
  | outOffset
  /-- The CMD write whose command a reset abandoned (70 R262, 93 U6). Raised by `hostEvent`. Safe. -/
  | resetDuringCommand
deriving DecidableEq, Repr

/-- Why the machine refuses. No meaning of this model refuses: every command has its effect. -/
inductive Refusal where
  /-- An instruction without a meaning yet, by its mnemonic. Raised by no arm. Safe. -/
  | notModelled (mnemonic : String)
deriving DecidableEq, Repr

/-- The bytes of a buffer that something has written since power-on, by strictly rising offset (`Memory.wf`). An offset
that is not listed holds the free value of Config (log entries 1 and 2). -/
abbrev Memory := List Host.Cell

/-- The stored fields of STATUS (10_state.md R24). EOS is computed at every read (R27). -/
structure Status where
  err     : Bool
  eq      : Bool
  anyErr  : Bool
  errCode : BitVec 4
  errSub  : BitVec 4
deriving DecidableEq, Repr

/-- The whole machine: the engine (10_state.md R22, R45; 20_memory.md R60), its parameters (00_scope.md R5) and the
host's side of a run (10_state.md R56, 40_control.md R116). -/
structure State where
  /-- The parameters of the implementation; no step changes them. -/
  params      : Params
  cmd         : Word
  status      : Status
  argOff      : Word
  argLen      : Word
  inLen       : Word
  inPtr       : Word
  outPtr      : Word
  typeReg     : Word
  crcAcc      : Word
  crcResult   : Word
  len         : Word
  dataOff     : Word
  storedCrc   : Word
  computedCrc : Word
  frameCount  : Word
  ftIndex     : Word
  errOff      : Word
  errFrame    : Word
  /-- The frame table's written entries, from entry 0 up (R45). -/
  ft          : List FrameEntry
  inBuf       : Memory
  outBuf      : Memory
  /-- The model's own: how many draws of unspecified bytes have been made (log entry 3). -/
  draws       : Nat
  /-- The model's own: what the host and the platform do next (log entry 5). -/
  pending     : List HostEvent
  /-- The model's own: the values the host's reads have returned, newest first (log entry 6). -/
  hostReads   : List Word
deriving DecidableEq, Repr

/-- STATUS's stored fields after reset (10_state.md R24: all 0). -/
def Status.reset : Status := ⟨false, false, false, 0, 0⟩

/-- The machine right after power-on with parameters `p`: every register at its value of 10_state.md R22 and
70_reset_and_hazards.md R260; no buffer byte and no frame table entry written (R261); no program loaded. -/
def State.resetWith (p : Params) : State where
  params      := p
  cmd         := 0
  status      := Status.reset
  argOff      := 0
  argLen      := 0
  inLen       := 0
  inPtr       := 0
  outPtr      := 0
  typeReg     := 0
  crcAcc      := 0xFFFFFFFF
  crcResult   := 0
  len         := 0
  dataOff     := 0
  storedCrc   := 0
  computedCrc := 0
  frameCount  := 0
  ftIndex     := 0
  errOff      := 0
  errFrame    := 0
  ft          := []
  inBuf       := []
  outBuf      := []
  draws       := 0
  pending     := []
  hostReads   := []

/-- The machine right after power-on, with the parameters of `Config.params` (log entry 4). -/
def State.reset : State := State.resetWith Config.params

end Sys2Proof.Machine
end

