-- ==== Sys2Proof/Machine/Ops.lean ====
section
/-! DEFINITION. The named operations every command is built from: reading and writing buffer bytes, byte order, and the two
ends of a command (success, failure). -/

namespace Sys2Proof.Machine

/-! ## Buffers -/

/-- The byte listed at offset `a`, if any was written there. -/
def Memory.find? : Memory → Nat → Option Byte
  | [], _ => none
  | (b, v) :: m, a => if a = b then some v else Memory.find? m a

/-- The memory with the byte `v` written at offset `a`; the list stays sorted by offset. -/
def Memory.write : Memory → Nat → Byte → Memory
  | [], a, v => [(a, v)]
  | (b, w) :: m, a, v =>
    if a < b then (a, v) :: (b, w) :: m
    else if a = b then (a, v) :: m
    else (b, w) :: Memory.write m a v

/-- The canonical form: offsets strictly rising. An entry says that its offset was written; an offset that is not listed
was not, and no entry can say that (log entry 2). -/
def Memory.wf : Memory → Bool
  | [] => true
  | [_] => true
  | (a, _) :: (b, v) :: m => a < b && Memory.wf ((b, v) :: m)

/-- The byte of IN_BUF at offset `a` (20_memory.md R62, R65). -/
def inByte (m : Memory) (a : Nat) : Byte := (m.find? a).getD (Config.powerOnIn a)

/-- The byte of OUT_BUF at offset `a` (20_memory.md R62, R65). -/
def outByte (m : Memory) (a : Nat) : Byte := (m.find? a).getD (Config.powerOnOut a)

/-- `MemRead(a, n)` of 00_scope.md R9: the n bytes IN_BUF[a..a+n). -/
def memRead (m : Memory) (a : Nat) : Nat → List Byte
  | 0 => []
  | n + 1 => inByte m a :: memRead m (a + 1) n

/-- `MemWrite(a, |bs|, bs)` of 00_scope.md R9: the bytes `bs` into OUT_BUF[a..a+|bs|). -/
def memWrite (m : Memory) (a : Nat) : List Byte → Memory
  | [] => m
  | b :: bs => memWrite (m.write a b) (a + 1) bs

/-! ## Byte order (20_memory.md R69: big-endian) -/

/-- `BE32` of 00_scope.md R9: the number whose most significant byte comes first. -/
def be32 (s : List Byte) : Word := s.foldl (fun acc b => (acc <<< 8) ||| b.setWidth 32) 0

/-- `be32bytes` of 00_scope.md R9: `[v[31:24], v[23:16], v[15:8], v[7:0]]`. -/
def be32bytes (v : Word) : List Byte :=
  [v.extractLsb' 24 8, v.extractLsb' 16 8, v.extractLsb' 8 8, v.extractLsb' 0 8]

/-- The container signature SIG (00_scope.md R10). -/
def sig : List Byte := [0x89, 0x50, 0x4E, 0x47, 0x0D, 0x0A, 0x1A, 0x0A]

/-! ## How a command ends -/

/-- The code of an error kind (60_exceptions.md R230). -/
def ErrorKind.code : ErrorKind → BitVec 4
  | .none                 => 0
  | .invalidChunkType     => 1
  | .invalidSignature     => 2
  | .unexpectedEof        => 3
  | .crcMismatch          => 4
  | .malformedChunkStream => 5
  | .invalidUtf8          => 6
  | .chunkNotFound        => 7
  | .illegalCommand       => 8
  | .range                => 9
  | .capacity             => 10

/-- The normal end of a command (40_control.md R110): ERR, ERRCODE and ERRSUB become 0; EQ and ANYERR keep their values. -/
def complete (s : State) : State :=
  { s with status := { s.status with err := false, errCode := 0, errSub := 0 } }

/-- `raise E(sub)` (60_exceptions.md R240): ERR and ANYERR become 1, ERRCODE the kind's code, ERRSUB the wrapped kind's
code (`ErrorKind.none`, code 0, when none is given); EQ keeps its value. The diagnostic registers are written by the
caller, on the path that raises. This is the engine's only exception entry: it has no traps, saves nothing else and
changes no mode (R243), so there is no return from it (R244). -/
def raise (e sub : ErrorKind) (s : State) : State :=
  { s with status := { s.status with err := true, anyErr := true, errCode := e.code, errSub := sub.code } }

end Sys2Proof.Machine
end

