-- ==== Sys2Proof/Machine/Flags.lean ====
section
/-! DEFINITION. The flags: the TYPE_FLAGS predicates (41_chunk_type.md R130 to R136, 10_state.md R37) and the STATUS word
(10_state.md R24). Both are computed at every read. -/

namespace Sys2Proof.Machine

/-- `tb(i) = TYPE[31-8i : 24-8i]` (41_chunk_type.md R130), for i = 0, 1, 2, 3. -/
def typeByte (t : Word) (i : Nat) : Byte := t.extractLsb' (24 - 8 * i) 8

/-- `letter(b)` of 41_chunk_type.md R131. -/
def isLetter (b : Byte) : Bool :=
  (0x41 ≤ b.toNat && b.toNat ≤ 0x5A) || (0x61 ≤ b.toNat && b.toNat ≤ 0x7A)

/-- ALPHA (41_chunk_type.md R131): every byte is an ASCII letter. -/
def typeAlpha (t : Word) : Bool :=
  isLetter (typeByte t 0) && isLetter (typeByte t 1) && isLetter (typeByte t 2) && isLetter (typeByte t 3)

/-- CRITICAL (41_chunk_type.md R132): bit 5 of byte 0 is clear. -/
def typeCritical (t : Word) : Bool := !(typeByte t 0).getLsbD 5

/-- PUBLIC (41_chunk_type.md R133): bit 5 of byte 1 is clear. -/
def typePublic (t : Word) : Bool := !(typeByte t 1).getLsbD 5

/-- RSV_VALID (41_chunk_type.md R134): bit 5 of byte 2 is clear. -/
def typeRsvValid (t : Word) : Bool := !(typeByte t 2).getLsbD 5

/-- SAFE_COPY (41_chunk_type.md R135): bit 5 of byte 3 is set. -/
def typeSafeCopy (t : Word) : Bool := (typeByte t 3).getLsbD 5

/-- VALID (41_chunk_type.md R136): ALPHA and RSV_VALID. -/
def typeValid (t : Word) : Bool := typeAlpha t && typeRsvValid t

/-- The TYPE_FLAGS register (10_state.md R37): bits 5 to 0 are VALID, SAFE_COPY, RSV_VALID, PUBLIC, CRITICAL, ALPHA;
bits 31:6 read 0 (R53). -/
def typeFlags (t : Word) : Word :=
  (0 : BitVec 26) ++ BitVec.ofBool (typeValid t) ++ BitVec.ofBool (typeSafeCopy t) ++ BitVec.ofBool (typeRsvValid t)
    ++ BitVec.ofBool (typePublic t) ++ BitVec.ofBool (typeCritical t) ++ BitVec.ofBool (typeAlpha t)

/-- STATUS.EOS (10_state.md R27): IN_PTR = IN_LEN, at every read. -/
def eos (s : State) : Bool := s.inPtr == s.inLen

/-- The STATUS register (10_state.md R24): ERRSUB 15:12, ERRCODE 11:8, ANYERR 3, EOS 2, EQ 1, ERR 0; the rest reads 0
(R53). -/
def statusWord (s : State) : Word :=
  (0 : BitVec 16) ++ s.status.errSub ++ s.status.errCode ++ (0 : BitVec 4)
    ++ BitVec.ofBool s.status.anyErr ++ BitVec.ofBool (eos s) ++ BitVec.ofBool s.status.eq ++ BitVec.ofBool s.status.err

end Sys2Proof.Machine
end

