-- ==== Sys2Proof/Machine/Regs.lean ====
section
/-! DEFINITION. The register file as the host sees it (10_state.md R22): offsets, reads, and writes other than the start
of a command. -/

namespace Sys2Proof.Machine

/-- The register at an offset (10_state.md R22); the offsets past 0x068 hold none (R52). -/
def regAt : Nat → Option Reg
  | 0x000 => some .cmd
  | 0x004 => some .status
  | 0x008 => some .argOff
  | 0x00C => some .argLen
  | 0x010 => some .inLen
  | 0x014 => some .inPtr
  | 0x018 => some .outPtr
  | 0x01C => some .type
  | 0x020 => some .typeFlags
  | 0x024 => some .crcAcc
  | 0x028 => some .crcResult
  | 0x02C => some .len
  | 0x030 => some .dataOff
  | 0x034 => some .storedCrc
  | 0x038 => some .computedCrc
  | 0x03C => some .frameCount
  | 0x040 => some .ftIndex
  | 0x044 => some .ftType
  | 0x048 => some .ftLen
  | 0x04C => some .ftDataOff
  | 0x050 => some .ftCrc
  | 0x054 => some .errOff
  | 0x058 => some .errFrame
  | 0x05C => some .id
  | 0x060 => some .capIn
  | 0x064 => some .capOut
  | 0x068 => some .capFrames
  | _ => none

/-- The offset of a register (10_state.md R22): what a host program's NAME stands for (30_encoding.md R97). -/
def Reg.offset : Reg → Nat
  | .cmd => 0x000 | .status => 0x004 | .argOff => 0x008 | .argLen => 0x00C
  | .inLen => 0x010 | .inPtr => 0x014 | .outPtr => 0x018 | .type => 0x01C
  | .typeFlags => 0x020 | .crcAcc => 0x024 | .crcResult => 0x028 | .len => 0x02C
  | .dataOff => 0x030 | .storedCrc => 0x034 | .computedCrc => 0x038 | .frameCount => 0x03C
  | .ftIndex => 0x040 | .ftType => 0x044 | .ftLen => 0x048 | .ftDataOff => 0x04C
  | .ftCrc => 0x050 | .errOff => 0x054 | .errFrame => 0x058 | .id => 0x05C
  | .capIn => 0x060 | .capOut => 0x064 | .capFrames => 0x068

/-- Entry `i` of the frame table (10_state.md R45); one that nothing has written holds a free value (log entry 7). -/
def ftEntry (s : State) (i : Nat) : FrameEntry := (s.ft[i]?).getD (Config.powerOnFrame i)

/-- A field of the frame table window (10_state.md R47): the selected entry's when FT_INDEX < FRAME_COUNT, else 0. -/
def ftWindow (s : State) (field : FrameEntry → Word) : Word :=
  if s.ftIndex.toNat < s.frameCount.toNat then field (ftEntry s s.ftIndex.toNat) else 0

/-- What a host read of a register returns (10_state.md R22 and the rule of each register). -/
def readReg (s : State) : Reg → Word
  | .cmd         => s.cmd
  | .status      => statusWord s
  | .argOff      => s.argOff
  | .argLen      => s.argLen
  | .inLen       => s.inLen
  | .inPtr       => s.inPtr
  | .outPtr      => s.outPtr
  | .type        => s.typeReg
  | .typeFlags   => typeFlags s.typeReg
  | .crcAcc      => s.crcAcc
  | .crcResult   => s.crcResult
  | .len         => s.len
  | .dataOff     => s.dataOff
  | .storedCrc   => s.storedCrc
  | .computedCrc => s.computedCrc
  | .frameCount  => s.frameCount
  | .ftIndex     => s.ftIndex
  | .ftType      => ftWindow s FrameEntry.type
  | .ftLen       => ftWindow s FrameEntry.len
  | .ftDataOff   => ftWindow s FrameEntry.dataOff
  | .ftCrc       => ftWindow s FrameEntry.crc
  | .errOff      => s.errOff
  | .errFrame    => s.errFrame
  | .id          => 0x504E4701
  | .capIn       => s.params.inCap
  | .capOut      => s.params.outCap
  | .capFrames   => s.params.maxFrames

/-- The smaller of two words: `min(v, cap)` of 10_state.md R33 and R35. -/
def clamp (v cap : Word) : Word := if v.toNat ≤ cap.toNat then v else cap

/-- A host write of `v` to a register, as far as the register itself goes (10_state.md R22): RW registers store it, IN_LEN
and OUT_PTR store it clamped (R33, R35), read-only ones ignore it (R54). A write to CMD stores the word (R23); the command
it starts is `issue`'s. -/
def writeReg (r : Reg) (v : Word) (s : State) : State :=
  match r with
  | .cmd     => { s with cmd := v }
  | .argOff  => { s with argOff := v }
  | .argLen  => { s with argLen := v }
  | .inLen   => { s with inLen := clamp v s.params.inCap }
  | .inPtr   => { s with inPtr := v }
  | .outPtr  => { s with outPtr := clamp v s.params.outCap }
  | .type    => { s with typeReg := v }
  | .crcAcc  => { s with crcAcc := v }
  | .ftIndex => { s with ftIndex := v }
  | .status | .typeFlags | .crcResult | .len | .dataOff | .storedCrc | .computedCrc | .frameCount
  | .ftType | .ftLen | .ftDataOff | .ftCrc | .errOff | .errFrame | .id | .capIn | .capOut | .capFrames => s

end Sys2Proof.Machine
end

