-- ==== Sys2Proof/WellFormed.lean ====
section
/-! DEFINITION. When a command word is legal, field by field (30_encoding.md R90, R93, R94): the second, field-wise form of
R94, kept apart from the decoder, which follows the first form (compare the whole word). -/

namespace Sys2Proof

/-- The fields of a command word (30_encoding.md R90): OPC in bits 7:0, F in bit 8, RSV in bits 31:9. -/
structure CommandFields where
  opc : BitVec 8
  f   : Bool
  rsv : BitVec 23
deriving DecidableEq, Repr

/-- A command word cut into its fields (30_encoding.md R90). -/
def CommandFields.ofWord (w : Word) : CommandFields where
  opc := w.extractLsb' 0 8
  f   := w.getLsbD 8
  rsv := w.extractLsb' 9 23

/-- The assigned opcodes, the second bullet of 30_encoding.md R94. -/
def assignedOpcodes : List (BitVec 8) :=
  [0x00, 0x01, 0x02, 0x03, 0x04, 0x10, 0x11, 0x12, 0x20, 0x21, 0x30, 0x31, 0x32]

/-- The three conditions of 30_encoding.md R94 on the fields of a word. -/
def CommandFields.wellFormed (c : CommandFields) : Bool :=
  c.rsv == 0 && assignedOpcodes.contains c.opc && (!c.f || c.opc == 0x21)

/-- The legal words by their fields (30_encoding.md R94, "Equivalently, a word w is legal when …"). -/
def legalWord (w : Word) : Bool := (CommandFields.ofWord w).wellFormed

/-- The fields 30_encoding.md R93 gives each command (its columns OPC and F; RSV must be 0 by R90). -/
def Instr.fields : Instr → CommandFields
  | .nop            => ⟨0x00, false, 0⟩
  | .crcInit        => ⟨0x01, false, 0⟩
  | .crcFeed        => ⟨0x02, false, 0⟩
  | .crcFinal       => ⟨0x03, false, 0⟩
  | .crcCompute     => ⟨0x04, false, 0⟩
  | .typeFromBytes  => ⟨0x10, false, 0⟩
  | .typeFromString => ⟨0x11, false, 0⟩
  | .typeCmp        => ⟨0x12, false, 0⟩
  | .frameSerialize => ⟨0x20, false, 0⟩
  | .frameParse     => ⟨0x21, false, 0⟩
  | .frameParseEmit => ⟨0x21, true, 0⟩
  | .sigEmit        => ⟨0x30, false, 0⟩
  | .sigCheck       => ⟨0x31, false, 0⟩
  | .streamParse    => ⟨0x32, false, 0⟩

/-- A command is well formed when its fields are; every constructor is (no command has an operand, R91), so the checks
can only refuse a `CommandFields` or a word. -/
def Instr.wellFormed (i : Instr) : Bool := i.fields.wellFormed

end Sys2Proof
end

