-- ==== Sys2Proof/Decode.lean ====
section
/-! DEFINITION. The decoder (whole-word comparison, 30_encoding.md R94 first form), total on every 32-bit word, and the
encoder (the word column of R93). -/

namespace Sys2Proof

/-- Why a word is no command (30_encoding.md R95 names the three cases). -/
inductive IllegalWord where
  /-- A set bit in RSV, bits 31:9. -/
  | reservedBits
  /-- An unassigned opcode (R96). -/
  | unassignedOpcode
  /-- The F bit set on an opcode other than 0x21. -/
  | flagNotAdmitted
deriving DecidableEq, Repr

/-- What a command word is: a command, or an illegal word with the first of R95's grounds that applies to it. -/
inductive Decoded where
  | command (i : Instr)
  | illegal (why : IllegalWord)
deriving DecidableEq, Repr

/-- Names the ground on which R95 refuses a word that is none of R93's (the name is the model's: every illegal word
fails in the same way). Log entry 15. -/
def illegalGround (w : Word) : IllegalWord :=
  if (CommandFields.ofWord w).rsv ≠ 0 then .reservedBits
  else if assignedOpcodes.contains (CommandFields.ofWord w).opc then .flagNotAdmitted
  else .unassignedOpcode

/-- The legal command words (30_encoding.md R93, columns word and mnemonic). -/
def commandTable : List (Word × Instr) :=
  [(0x00000000, .nop),
   (0x00000001, .crcInit),
   (0x00000002, .crcFeed),
   (0x00000003, .crcFinal),
   (0x00000004, .crcCompute),
   (0x00000010, .typeFromBytes),
   (0x00000011, .typeFromString),
   (0x00000012, .typeCmp),
   (0x00000020, .frameSerialize),
   (0x00000021, .frameParse),
   (0x00000121, .frameParseEmit),
   (0x00000030, .sigEmit),
   (0x00000031, .sigCheck),
   (0x00000032, .streamParse)]

/-- 30_encoding.md R94: a decoder selects a command by comparing the whole 32-bit word against the words of R93. -/
def decode (w : Word) : Decoded :=
  match commandTable.lookup w with
  | some i => .command i
  | none => .illegal (illegalGround w)

/-- The command word of each command, from R93's columns OPC and F laid out as R90's format says (F at bit 8, the
opcode below it, RSV zero). -/
def encode (i : Instr) : Word := i.fields.rsv ++ BitVec.ofBool i.fields.f ++ i.fields.opc

/-- The host's question: the instruction the decoder reads from a table row's bits. One word, 32 bits (R92); bits past
`nbits` are 0; a number that does not fit one word is no command word. -/
def decodeTableWord (nbits w : Nat) : Option Instr :=
  if w % 2 ^ nbits < 2 ^ 32 then
    match decode (BitVec.ofNat 32 (w % 2 ^ nbits)) with
    | .command i => some i
    | .illegal _ => none
  else none

end Sys2Proof
end

