-- ==== Sys2Proof/Machine/Operands.lean ====
section
/-! DEFINITION. The operand forms: the operand window (20_memory.md R66), the parse position (R67) and the room in OUT_BUF
(R68). Every sum is exact (00_scope.md R8): it is a sum of natural numbers. -/

namespace Sys2Proof.Machine

/-- The window check of 20_memory.md R66 passes: `zext_34(ARG_OFF) + n <= zext_34(IN_LEN)`. -/
def windowOk (s : State) (n : Nat) : Bool := s.argOff.toNat + n ≤ s.inLen.toNat

/-- The operand window of n bytes, `MemRead(ARG_OFF, n)`. -/
def window (s : State) (n : Nat) : List Byte := memRead s.inBuf s.argOff.toNat n

/-- The parse position check of 20_memory.md R67 passes: `IN_PTR <= IN_LEN`. -/
def parseOk (s : State) : Bool := s.inPtr.toNat ≤ s.inLen.toNat

/-- The room check of 20_memory.md R68 passes: `zext_34(OUT_PTR) + m <= zext_34(OUT_CAP)`. -/
def roomOk (s : State) (m : Nat) : Bool := s.outPtr.toNat + m ≤ s.params.outCap.toNat

/-- The bytes at IN_PTR begin with the signature (44_stream.md R212, R213): at least 8 bytes remain, and they are SIG. -/
def sigAtPtr (s : State) : Bool :=
  8 ≤ s.inLen.toNat - s.inPtr.toNat && memRead s.inBuf s.inPtr.toNat 8 == sig

/-- The write of 20_memory.md R68: the bytes at OUT_PTR, and OUT_PTR past them. The caller has checked the room, so the
new OUT_PTR is at most OUT_CAP and fits its register. -/
def emit (bs : List Byte) (s : State) : State :=
  { s with outBuf := memWrite s.outBuf s.outPtr.toNat bs
           outPtr := BitVec.ofNat 32 (s.outPtr.toNat + bs.length) }

end Sys2Proof.Machine
end

