-- ==== Sys2Proof/Machine/ChunkType.lean ====
section
/-! DEFINITION. The commands of the type code validator (41_chunk_type.md §2). -/

namespace Sys2Proof.Machine

/-- TYPE_FROM_BYTES (41_chunk_type.md R140): the window is 4 bytes whatever ARG_LEN holds. -/
def execTypeFromBytes (s : State) : Host.Outcome State Fault Refusal :=
  if windowOk s 4 then .next (complete { s with typeReg := be32 (window s 4) })
  else .next (raise .range .none s)

/-- TYPE_FROM_STRING (41_chunk_type.md R141): RANGE, then the length test, then the ASCII test. -/
def execTypeFromString (s : State) : Host.Outcome State Fault Refusal :=
  if windowOk s s.argLen.toNat then
    if s.argLen.toNat = 4 then
      if (window s 4).all (fun b => b.toNat < 0x80) then
        .next (complete { s with typeReg := be32 (window s 4) })
      else .next (raise .invalidChunkType .none s)
    else .next (raise .invalidChunkType .none s)
  else .next (raise .range .none s)

/-- TYPE_CMP (41_chunk_type.md R142): equality of the packed 32-bit values (R138). -/
def execTypeCmp (s : State) : Host.Outcome State Fault Refusal :=
  if windowOk s 4 then
    .next (complete { s with status := { s.status with eq := s.typeReg == be32 (window s 4) } })
  else .next (raise .range .none s)

end Sys2Proof.Machine
end

