-- ==== Sys2Proof/Machine/Control.lean ====
section
/-! DEFINITION. The control command (40_control.md §2). -/

namespace Sys2Proof.Machine

/-- NOP (40_control.md R115): clears ERR, ERRCODE, ERRSUB and, alone among the commands, ANYERR. -/
def execNop (s : State) : Host.Outcome State Fault Refusal :=
  .next (complete { s with status := { s.status with anyErr := false } })

end Sys2Proof.Machine
end

