-- ==== Sys2Proof/Machine/Crc32.lean ====
section
/-! DEFINITION. The checksum CRC-32/ISO-HDLC (42_crc.md R160 to R162), shared by the CRC generator and by the frame unit's
own datapath (R163). -/

namespace Sys2Proof.Machine

/-- The reflected polynomial (42_crc.md R160). -/
def crcPoly : Word := 0xEDB88320

/-- The initial register value, which is also the final XOR (42_crc.md R160). -/
def crcInitial : Word := 0xFFFFFFFF

/-- One bit of the byte step of 42_crc.md R161: shift right, and xor the polynomial in when the bit shifted out was 1. -/
def crcShift (c : Word) : Word :=
  if c.getLsbD 0 then (c >>> 1) ^^^ crcPoly else c >>> 1

/-- `n` bits of the byte step of 42_crc.md R161. -/
def crcShifts : Nat → Word → Word
  | 0, c => c
  | n + 1, c => crcShifts n (crcShift c)

/-- `crc_byte` of 42_crc.md R161. -/
def crcByte (c : Word) (b : Byte) : Word := crcShifts 8 (c ^^^ b.setWidth 32)

/-- `crc_update` of 42_crc.md R161. -/
def crcUpdate (c : Word) : List Byte → Word
  | [] => c
  | b :: rest => crcUpdate (crcByte c b) rest

/-- `crc32` of 42_crc.md R162. -/
def crc32 (s : List Byte) : Word := crcUpdate crcInitial s ^^^ 0xFFFFFFFF

end Sys2Proof.Machine
end

