-- ==== Sys2Proof/Machine/Crc.lean ====
section
/-! DEFINITION. The commands of the CRC generator (42_crc.md §2). -/

namespace Sys2Proof.Machine

/-- CRC_INIT (42_crc.md R165). -/
def execCrcInit (s : State) : Host.Outcome State Fault Refusal :=
  .next (complete { s with crcAcc := crcInitial })

/-- CRC_FEED (42_crc.md R166). -/
def execCrcFeed (s : State) : Host.Outcome State Fault Refusal :=
  if windowOk s s.argLen.toNat then
    .next (complete { s with crcAcc := crcUpdate s.crcAcc (window s s.argLen.toNat) })
  else .next (raise .range .none s)

/-- CRC_FINAL (42_crc.md R167). -/
def execCrcFinal (s : State) : Host.Outcome State Fault Refusal :=
  .next (complete { s with crcResult := s.crcAcc ^^^ 0xFFFFFFFF })

/-- CRC_COMPUTE (42_crc.md R168). -/
def execCrcCompute (s : State) : Host.Outcome State Fault Refusal :=
  if windowOk s s.argLen.toNat then
    .next (complete { s with crcAcc := crcUpdate crcInitial (window s s.argLen.toNat)
                             crcResult := crcUpdate crcInitial (window s s.argLen.toNat) ^^^ 0xFFFFFFFF })
  else .next (raise .range .none s)

end Sys2Proof.Machine
end

