-- ==== Sys2Proof/Machine/Frame.lean ====
section
/-! DEFINITION. The frame unit (43_frame.md): the frame reader, the serializer and the two parse commands. -/

namespace Sys2Proof.Machine

/-- The length extractor's field of the frame at `p` (43_frame.md R180, R185): any 32-bit number. -/
def frameLen (m : Memory) (p : Nat) : Nat := (be32 (memRead m p 4)).toNat

/-- The crc the frame unit computes over type ++ data of the frame at `p` (42_crc.md R163). -/
def frameCrc (m : Memory) (p : Nat) : Word :=
  crc32 (memRead m (p + 4) 4 ++ memRead m (p + 8) (frameLen m p))

/-- The stored crc field of the frame at `p` (43_frame.md R180). -/
def frameStored (m : Memory) (p : Nat) : Word := be32 (memRead m (p + 8 + frameLen m p) 4)

/-- `frame_at(p)` (43_frame.md R180), for p ≤ IN_LEN: a function of IN_BUF, IN_LEN and p alone. Every field of the record
fits 32 bits, since `next` ≤ IN_LEN. -/
def frameAt (m : Memory) (inLen p : Nat) : FrameResult :=
  if inLen - p < 8 then .eof
  else if inLen - p - 8 < frameLen m p + 4 then .eof
  else if frameStored m p ≠ frameCrc m p then .mismatch (frameStored m p) (frameCrc m p)
  else .ok ⟨be32 (memRead m (p + 4) 4), BitVec.ofNat 32 (frameLen m p), BitVec.ofNat 32 (p + 8), frameStored m p⟩
    (p + 12 + frameLen m p)

/-- The frame the serializer builds (43_frame.md R181): length, type, data, crc. -/
def frameBytes (type : Word) (data : List Byte) : List Byte :=
  be32bytes (BitVec.ofNat 32 data.length) ++ be32bytes type ++ data ++ be32bytes (crc32 (be32bytes type ++ data))

/-- FRAME_SERIALIZE (43_frame.md R181): RANGE, then CAPACITY. -/
def execFrameSerialize (s : State) : Host.Outcome State Fault Refusal :=
  if windowOk s s.argLen.toNat then
    if roomOk s (12 + s.argLen.toNat) then
      .next (complete
        { emit (frameBytes s.typeReg (window s s.argLen.toNat)) s with
          len := s.argLen
          computedCrc := crc32 (be32bytes s.typeReg ++ window s s.argLen.toNat) })
    else .next (raise .capacity .none s)
  else .next (raise .range .none s)

/-- The registers a successful parse of one frame writes (43_frame.md R183). -/
def loadFrame (e : FrameEntry) (next : Nat) (s : State) : State :=
  { s with typeReg := e.type, len := e.len, dataOff := e.dataOff, storedCrc := e.crc, computedCrc := e.crc
           inPtr := BitVec.ofNat 32 next }

/-- FRAME_PARSE (43_frame.md R183). -/
def execFrameParse (s : State) : Host.Outcome State Fault Refusal :=
  if parseOk s then
    match frameAt s.inBuf s.inLen.toNat s.inPtr.toNat with
    | .eof => .next (raise .unexpectedEof .none { s with errOff := s.inPtr })
    | .mismatch st c =>
      .next (raise .crcMismatch .none { s with errOff := s.inPtr, storedCrc := st, computedCrc := c })
    | .ok e next => .next (complete (loadFrame e next s))
  else .next (raise .range .none s)

/-- FRAME_PARSE_EMIT (43_frame.md R184): FRAME_PARSE, then CAPACITY, then the payload to OUT_BUF. -/
def execFrameParseEmit (s : State) : Host.Outcome State Fault Refusal :=
  if parseOk s then
    match frameAt s.inBuf s.inLen.toNat s.inPtr.toNat with
    | .eof => .next (raise .unexpectedEof .none { s with errOff := s.inPtr })
    | .mismatch st c =>
      .next (raise .crcMismatch .none { s with errOff := s.inPtr, storedCrc := st, computedCrc := c })
    | .ok e next =>
      if roomOk s e.len.toNat then
        .next (complete (loadFrame e next (emit (memRead s.inBuf e.dataOff.toNat e.len.toNat) s)))
      else .next (raise .capacity .none { s with errOff := s.inPtr })
  else .next (raise .range .none s)

end Sys2Proof.Machine
end

