-- ==== Sys2Proof/Machine/Stream.lean ====
section
/-! DEFINITION. The stream unit (44_stream.md): the signature commands and the whole-stream parser. -/

namespace Sys2Proof.Machine

/-- SIG_EMIT (44_stream.md R211). -/
def execSigEmit (s : State) : Host.Outcome State Fault Refusal :=
  if roomOk s 8 then .next (complete (emit sig s)) else .next (raise .capacity .none s)

/-- SIG_CHECK (44_stream.md R212). -/
def execSigCheck (s : State) : Host.Outcome State Fault Refusal :=
  if parseOk s then
    if sigAtPtr s then .next (complete { s with inPtr := BitVec.ofNat 32 (s.inPtr.toNat + 8) })
    else .next (raise .invalidSignature .none { s with errOff := s.inPtr })
  else .next (raise .range .none s)

/-- One frame put before the frames a later part of the loop read. -/
def StreamResult.cons (e : FrameEntry) : StreamResult → StreamResult
  | .done es => .done (e :: es)
  | .eof q k => .eof q k
  | .mismatch q k st c => .mismatch q k st c
  | .full q k => .full q k

/-- The frame loop of 44_stream.md R213 from offset `q` with `k` frames read. The fuel bounds the passes: each pass moves
`q` on by at least 12 (40_control.md R114), so `inLen - q` passes are more than the loop can make
(`Laws.parseFrames_fuel_irrelevant`). Log entry 13. -/
def parseFrames (m : Memory) (inLen maxFrames : Nat) : Nat → Nat → Nat → StreamResult
  | 0, _, _ => .done []
  | fuel + 1, q, k =>
    if q < inLen then
      match frameAt m inLen q with
      | .eof => .eof q k
      | .mismatch st c => .mismatch q k st c
      | .ok e next => if k = maxFrames then .full q k else (parseFrames m inLen maxFrames fuel next (k + 1)).cons e
    else .done []

/-- The stream after the signature, from IN_PTR + 8 to IN_LEN. -/
def streamFrames (s : State) : StreamResult :=
  parseFrames s.inBuf s.inLen.toNat s.params.maxFrames.toNat (s.inLen.toNat - (s.inPtr.toNat + 8)) (s.inPtr.toNat + 8) 0

/-- The diagnostic registers a failed stream parse writes (44_stream.md R213): where it stopped, after how many frames,
and FRAME_COUNT to 0 (R214). -/
def stopStream (q k : Nat) (s : State) : State :=
  { s with errOff := BitVec.ofNat 32 q, errFrame := BitVec.ofNat 32 k, frameCount := 0 }

/-- The frame table with entries 0 to |es|-1 written (44_stream.md R213, `FT[k] <- …`), the later ones as they were. -/
def storeFrames (es : List FrameEntry) (ft : List FrameEntry) : List FrameEntry := es ++ ft.drop es.length

/-- STREAM_PARSE (44_stream.md R213). The table is written only on success: on failure FRAME_COUNT is 0 and no entry can
be observed (R214; log entry 8). A success leaves STORED_CRC and COMPUTED_CRC (R213, and program P4's end state in
95_test_vectors.md). DEDUCED: of 10_state.md R42 and R213, which differ on STORED_CRC, R213 is followed (log entry 16). -/
def execStreamParse (s : State) : Host.Outcome State Fault Refusal :=
  if parseOk s then
    if sigAtPtr s then
      match streamFrames s with
      | .eof q k => .next (raise .malformedChunkStream .unexpectedEof (stopStream q k s))
      | .mismatch q k st c =>
        .next (raise .malformedChunkStream .crcMismatch { stopStream q k s with storedCrc := st, computedCrc := c })
      | .full q k => .next (raise .capacity .none (stopStream q k s))
      | .done es =>
        .next (complete { s with ft := storeFrames es s.ft
                                 frameCount := BitVec.ofNat 32 es.length
                                 inPtr := s.inLen })
    else .next (raise .invalidSignature .none (stopStream s.inPtr.toNat 0 s))
  else .next (raise .range .none s)

end Sys2Proof.Machine
end

