-- ==== Sys2Proof/Machine/Dispatch.lean ====
section
/-! DEFINITION. One arm per command: the command's own step, with CMD already stored (40_control.md R110). -/

namespace Sys2Proof.Machine

def exec (i : Instr) (s : State) : Host.Outcome State Fault Refusal :=
  match i with
  -- control (40_control.md)
  | .nop => Sys2Proof.Machine.execNop s
  -- CRC generator (42_crc.md)
  | .crcInit => Sys2Proof.Machine.execCrcInit s
  | .crcFeed => Sys2Proof.Machine.execCrcFeed s
  | .crcFinal => Sys2Proof.Machine.execCrcFinal s
  | .crcCompute => Sys2Proof.Machine.execCrcCompute s
  -- type code validator (41_chunk_type.md)
  | .typeFromBytes => Sys2Proof.Machine.execTypeFromBytes s
  | .typeFromString => Sys2Proof.Machine.execTypeFromString s
  | .typeCmp => Sys2Proof.Machine.execTypeCmp s
  -- frame unit (43_frame.md)
  | .frameSerialize => Sys2Proof.Machine.execFrameSerialize s
  | .frameParse => Sys2Proof.Machine.execFrameParse s
  | .frameParseEmit => Sys2Proof.Machine.execFrameParseEmit s
  -- stream unit (44_stream.md)
  | .sigEmit => Sys2Proof.Machine.execSigEmit s
  | .sigCheck => Sys2Proof.Machine.execSigCheck s
  | .streamParse => Sys2Proof.Machine.execStreamParse s

end Sys2Proof.Machine
end

