-- ==== Sys2Proof/Machine/Reset.lean ====
section
/-! DEFINITION. Reset by the platform after power-on (70_reset_and_hazards.md §1). -/

namespace Sys2Proof.Machine

/-- Reset between commands (70_reset_and_hazards.md R260, R261): every register takes its reset value; the buffers keep
their bytes and no frame table entry is set. The host's side of the run is not the engine's and stays. -/
def assertReset (s : State) : State :=
  { State.resetWith s.params with
    ft := s.ft, inBuf := s.inBuf, outBuf := s.outBuf, draws := s.draws, pending := s.pending, hostReads := s.hostReads }

/-- The end of the OUT_BUF range, beginning at OUT_PTR, that the command word `w` would have written from `s`: a command
that writes OUT_BUF advances OUT_PTR by the number of bytes written, and no other command moves it (20_memory.md R68). -/
def abandonedEnd (w : Word) (s : State) : Nat :=
  match decode w with
  | .command i =>
    match exec i s with
    | .next t => t.outPtr.toNat
    | .fault _ => s.outPtr.toNat
    | .refused _ => s.outPtr.toNat
  | .illegal _ => s.outPtr.toNat

/-- The unspecified bytes of draw `d` for n offsets from `a` on. -/
def abandonedBytes (d a : Nat) : Nat → List Byte
  | 0 => []
  | n + 1 => Config.abandonedByte d a :: abandonedBytes d (a + 1) n

/-- Reset while the command of word `w` runs (70_reset_and_hazards.md R262): the command is abandoned, the registers take
their reset values, the OUT_BUF bytes it would have written hold free values (log entry 3), every other buffer byte is
unchanged, and the CMD write is about to end with a bus error, which is the next event (log entry 11). -/
def abandon (w : Word) (s : State) : State :=
  { assertReset s with
    outBuf := memWrite s.outBuf s.outPtr.toNat
      (abandonedBytes s.draws s.outPtr.toNat (abandonedEnd w s - s.outPtr.toNat))
    draws := s.draws + 1
    pending := .abandonedReply :: s.pending }

end Sys2Proof.Machine
end

