-- ==== Sys2Proof/Machine/Bus.lean ====
section
/-! DEFINITION. The host port: which accesses are admitted (20_memory.md R61 to R63), what each does, and how a CMD write
starts a command (40_control.md R110). -/

namespace Sys2Proof.Machine

/-- The size of a space in bytes (20_memory.md R60). -/
def spaceSize (p : Params) : Space → Nat
  | .reg    => 4096
  | .inBuf  => p.inCap.toNat
  | .outBuf => p.outCap.toNat

/-- Where the platform puts a space (00_scope.md R5, 20_memory.md R76). -/
def spaceBase (p : Params) : Space → Nat
  | .reg    => p.regBase
  | .inBuf  => p.inBase
  | .outBuf => p.outBase

/-- The address in the host's map of an offset of a space (10_state.md R22 "starting at REG_BASE", 20_memory.md R60). A
host access names its space and offset (30_encoding.md R97), so no step reads this. -/
def hostAddress (p : Params) (sp : Space) (off : Nat) : Nat := spaceBase p sp + off

/-- The bus error an access gets, if it is not admitted (20_memory.md R63, R60). Where two grounds hold at once, the one
tested first names the fault (log entry 10). -/
def accessFault (p : Params) (a : HostAccess) : Option Fault :=
  match a.space with
  | .reg =>
    if a.width ≠ 32 then some .regWidth
    else if a.offset % 4 ≠ 0 then some .regMisaligned
    else if 4096 ≤ a.offset then some .regOutside
    else none
  | .inBuf =>
    if a.width ≠ 8 then some .bufWidth
    else if p.inCap.toNat ≤ a.offset then some .inOffset
    else none
  | .outBuf =>
    if a.width ≠ 8 then some .bufWidth
    else if p.outCap.toNat ≤ a.offset then some .outOffset
    else none

/-- What a host read returns: a register's 32 bits (0 where there is none, 10_state.md R52), or a byte, zero extended. -/
def hostRead (s : State) : Space → Nat → Word
  | .reg, off =>
    match regAt off with
    | some r => readReg s r
    | none => 0
  | .inBuf, off => (inByte s.inBuf off).setWidth 32
  | .outBuf, off => (outByte s.outBuf off).setWidth 32

/-- The number a host write carries; the host's last read is the newest of `hostReads` (log entry 6). -/
def HostValue.word (s : State) : HostValue → Word
  | .lit v => v
  | .lastRead => s.hostReads.headD 0

/-- A CMD write of `w` (40_control.md R110): CMD stores the word, legal or not (10_state.md R23); a legal word runs its
command; an illegal one fails with ILLEGAL_COMMAND and changes nothing else (30_encoding.md R95). -/
def issue (w : Word) (s : State) : Host.Outcome State Fault Refusal :=
  match decode w with
  | .command i => exec i (writeReg .cmd w s)
  | .illegal _ => .next (raise .illegalCommand .none (writeReg .cmd w s))

/-- An admitted host write (20_memory.md R61, R62): a CMD write starts a command, another register takes its value, a
reserved offset ignores it (10_state.md R52), a buffer stores the byte the 8-bit write carries (log entry 14). -/
def hostWrite (w : Word) (s : State) : Space → Nat → Host.Outcome State Fault Refusal
  | .reg, off =>
    match regAt off with
    | some .cmd => issue w s
    | some r => .next (writeReg r w s)
    | none => .next s
  | .inBuf, off => .next { s with inBuf := s.inBuf.write off (w.setWidth 8) }
  | .outBuf, off => .next { s with outBuf := s.outBuf.write off (w.setWidth 8) }

/-- One host access (20_memory.md R61 to R63). A read changes nothing of the engine (R75); the host keeps the value. -/
def hostAccess (a : HostAccess) (s : State) : Host.Outcome State Fault Refusal :=
  match accessFault s.params a with
  | some f => .fault f
  | none =>
    match a.op with
    | .read => .next { s with hostReads := hostRead s a.space a.offset :: s.hostReads }
    | .write v => hostWrite (v.word s) s a.space a.offset

/-- One event from outside. -/
def hostEvent (e : HostEvent) (s : State) : Host.Outcome State Fault Refusal :=
  match e with
  | .access a => hostAccess a s
  | .reset => .next (assertReset s)
  | .resetDuring w => .next (abandon w s)
  | .abandonedReply => .fault .resetDuringCommand

/-- The CMD write of a word, as 30_encoding.md R97 encodes it: (REG, 0x000, 32, w). -/
def cmdWrite (w : Word) : HostEvent := .access ⟨.reg, 0x000, 32, .write (.lit w)⟩

end Sys2Proof.Machine
end

