-- ==== Sys2Proof/Machine/Step.lean ====
section
/-! DEFINITION. One step of the machine: the next event of the host's program, or idle. -/

namespace Sys2Proof.Machine

/-- One step: the first pending event takes effect (20_memory.md R78: one at a time, in the host's order); a whole command
is one step (40_control.md R111). With nothing pending the engine is idle and keeps its state (60_exceptions.md R252).
Log entry 5. -/
def step (s : State) : Host.Outcome State Fault Refusal :=
  match s.pending with
  | [] => .next s
  | e :: rest => hostEvent e { s with pending := rest }

/-- `s` with the host about to write the command word to CMD: the engine fetches nothing (10_state.md R21), its next
command is the host's next CMD write. A command is one 32-bit word (30_encoding.md R92); bits past `nbits` are 0. -/
def State.withFetchWord (s : State) (nbits w : Nat) : State :=
  { s with pending := cmdWrite (BitVec.ofNat 32 (w % 2 ^ nbits)) :: s.pending }

end Sys2Proof.Machine
end

