-- ==== Sys2Proof/Machine/Program.lean ====
section
/-! DEFINITION. Host programs in the notation of 30_encoding.md R97 and R98, and their expansion into host accesses. -/

namespace Sys2Proof.Machine

/-- The statements of 30_encoding.md R97 and the pseudo-statements of R98. -/
inductive HostStmt where
  /-- `wr NAME, v` -/
  | wr (r : Reg) (v : Word)
  /-- `rd NAME` -/
  | rd (r : Reg)
  /-- `wrb IN[k], v` -/
  | wrbIn (k : Nat) (v : Byte)
  /-- `rdb IN[k]` -/
  | rdbIn (k : Nat)
  /-- `rdb OUT[k]` -/
  | rdbOut (k : Nat)
  /-- `wrb OUT[k], v` -/
  | wrbOut (k : Nat) (v : Byte)
  /-- `cmd M` -/
  | cmd (i : Instr)
  /-- `loadin k, b0, …` -/
  | loadin (k : Nat) (bs : List Byte)
  /-- `setin n` -/
  | setin (n : Word)
  /-- `win off, n` -/
  | win (off n : Word)
  /-- `ser t, off, n` -/
  | ser (t off n : Word)
  /-- `out2in n` -/
  | out2in (n : Nat)
  /-- `expect NAME = v`: a read; the value is the test's, not an access. -/
  | expectReg (r : Reg) (v : Word)
  /-- `expect IN[k] = v` -/
  | expectIn (k : Nat) (v : Byte)
  /-- `expect OUT[k] = v` -/
  | expectOut (k : Nat) (v : Byte)
deriving DecidableEq, Repr

/-- `wr NAME, v` as an access: (REG, offset of NAME, 32, v). -/
def regWrite (r : Reg) (v : Word) : HostEvent := .access ⟨.reg, r.offset, 32, .write (.lit v)⟩

/-- `rd NAME` as an access: (REG, offset of NAME, 32, -). -/
def regRead (r : Reg) : HostEvent := .access ⟨.reg, r.offset, 32, .read⟩

/-- A byte access to a buffer: (space, k, 8, value or -). -/
def byteAccess (sp : Space) (k : Nat) (op : HostOp) : HostEvent := .access ⟨sp, k, 8, op⟩

/-- `loadin`'s byte writes, offset by offset. -/
def loadBytes (k : Nat) : List Byte → List HostEvent
  | [] => []
  | b :: bs => byteAccess .inBuf k (.write (.lit (b.setWidth 32))) :: loadBytes (k + 1) bs

/-- `out2in`'s copies of the offsets k to k+n-1: `rdb OUT[k]`, then `wrb IN[k]` with the byte read. -/
def copyBytes (k : Nat) : Nat → List HostEvent
  | 0 => []
  | n + 1 => byteAccess .outBuf k .read :: byteAccess .inBuf k (.write .lastRead) :: copyBytes (k + 1) n

/-- The host accesses a statement stands for (30_encoding.md R97, R98). -/
def HostStmt.expand : HostStmt → List HostEvent
  | .wr r v        => [regWrite r v]
  | .rd r          => [regRead r]
  | .wrbIn k v     => [byteAccess .inBuf k (.write (.lit (v.setWidth 32)))]
  | .rdbIn k       => [byteAccess .inBuf k .read]
  | .rdbOut k      => [byteAccess .outBuf k .read]
  | .wrbOut k v    => [byteAccess .outBuf k (.write (.lit (v.setWidth 32)))]
  | .cmd i         => [regWrite .cmd (encode i)]
  | .loadin k bs   => loadBytes k bs
  | .setin n       => [regWrite .inLen n]
  | .win off n     => [regWrite .argOff off, regWrite .argLen n]
  | .ser t off n   => [regWrite .type t, regWrite .argOff off, regWrite .argLen n, regWrite .cmd (encode .frameSerialize)]
  | .out2in n      => copyBytes 0 n ++ [regWrite .inLen (BitVec.ofNat 32 n), regWrite .inPtr 0]
  | .expectReg r _ => [regRead r]
  | .expectIn k _  => [byteAccess .inBuf k .read]
  | .expectOut k _ => [byteAccess .outBuf k .read]

/-- The accesses of a host program, in the order of its statements. -/
def expandProgram (p : List HostStmt) : List HostEvent := p.flatMap HostStmt.expand

/-- The host's serialization of the frames `es` (44_stream.md R215): OUT_PTR to 0, SIG_EMIT, then one `ser` per frame. -/
def serializeFrames (es : List FrameEntry) : List HostStmt :=
  .wr .outPtr 0 :: .cmd .sigEmit :: es.map (fun e => .ser e.type e.dataOff e.len)

end Sys2Proof.Machine
end

