-- ==== Sys2Proof/Safety.lean ====
section
/-! DEFINITION. The terms claims are made in: the legal states of the engine, how a command succeeds and fails, what a step
leaves unchanged, and well-formed chunk streams. -/

namespace Sys2Proof.Machine

/-! ## Legal states -/

/-- STATUS after any command: ERRCODE is 0 to 5 or 8 to 10 (10_state.md R29), ERR says whether it is nonzero (R25),
a set ERR has set ANYERR (R28), and ERRSUB is 3 or 4 under code 5 and 0 under every other (R30, 60_exceptions.md R231). -/
def Status.legal (st : Status) : Bool :=
  [0, 1, 2, 3, 4, 5, 8, 9, 10].contains st.errCode
    && (st.err == (st.errCode != 0))
    && (!st.err || st.anyErr)
    && (if st.errCode == 5 then st.errSub == 3 || st.errSub == 4 else st.errSub == 0)

/-- The invariant of the machine: sizes within R5's bounds, IN_LEN ≤ IN_CAP (10_state.md R33), OUT_PTR ≤ OUT_CAP (R35),
FRAME_COUNT ≤ MAX_FRAMES (R44) with every entry that can be observed written and lying inside IN_BUF (R45), a legal STATUS,
and both buffers in canonical form within their sizes. -/
structure State.Inv (s : State) : Prop where
  params_ok         : s.params.ok = true
  status_legal      : s.status.legal = true
  inLen_le_cap      : s.inLen.toNat ≤ s.params.inCap.toNat
  outPtr_le_cap     : s.outPtr.toNat ≤ s.params.outCap.toNat
  frames_written    : s.frameCount.toNat ≤ s.ft.length
  table_fits        : s.ft.length ≤ s.params.maxFrames.toNat
  frames_inside     : ∀ e ∈ s.ft, e.dataOff.toNat + e.len.toNat + 4 ≤ s.params.inCap.toNat
  inBuf_canonical   : s.inBuf.wf = true
  outBuf_canonical  : s.outBuf.wf = true
  inBuf_within_cap  : ∀ c ∈ s.inBuf, c.1 < s.params.inCap.toNat
  outBuf_within_cap : ∀ c ∈ s.outBuf, c.1 < s.params.outCap.toNat

/-! ## The two ends of a command -/

/-- The success writes of 40_control.md R110, EQ and ANYERR as they were. -/
def Succeeds (s t : State) : Prop :=
  t.status.err = false ∧ t.status.errCode = 0 ∧ t.status.errSub = 0
    ∧ t.status.eq = s.status.eq ∧ t.status.anyErr = s.status.anyErr

/-- The STATUS writes of a failure (60_exceptions.md R240), EQ as it was. -/
def Fails (code sub : BitVec 4) (s t : State) : Prop :=
  t.status.err = true ∧ t.status.errCode = code ∧ t.status.errSub = sub
    ∧ t.status.anyErr = true ∧ t.status.eq = s.status.eq

/-! ## Frames -/

/-- Every register reads as before but those named. -/
def RegsKeptBut (rs : List Reg) (s t : State) : Prop := ∀ r, r ∉ rs → readReg t r = readReg s r

/-- Every byte of IN_BUF reads as before. -/
def InKept (s t : State) : Prop := ∀ a, inByte t.inBuf a = inByte s.inBuf a

/-- Every byte of OUT_BUF reads as before. -/
def OutKept (s t : State) : Prop := ∀ a, outByte t.outBuf a = outByte s.outBuf a

/-- Every byte of OUT_BUF outside the n offsets from `lo` on reads as before. -/
def OutKeptOutside (lo n : Nat) (s t : State) : Prop :=
  ∀ a, ¬ (lo ≤ a ∧ a < lo + n) → outByte t.outBuf a = outByte s.outBuf a

/-- Every frame table entry is as before, whether FRAME_COUNT shows it or not. -/
def TableKept (s t : State) : Prop := ∀ i, ftEntry t i = ftEntry s i

/-- The parameters and the host's side of the run are as before. -/
def RunKept (s t : State) : Prop :=
  t.params = s.params ∧ t.pending = s.pending ∧ t.hostReads = s.hostReads ∧ t.draws = s.draws

/-- What a command that stores nothing leaves: every register but those named, both buffers, the frame table and the
host's side of the run. -/
def KeepsAllBut (rs : List Reg) (s t : State) : Prop :=
  RegsKeptBut rs s t ∧ InKept s t ∧ OutKept s t ∧ TableKept s t ∧ RunKept s t

/-- The same, but for the frame table: what a failed STREAM_PARSE leaves, whose table entries cannot be observed (R214). -/
def KeepsAllButTable (rs : List Reg) (s t : State) : Prop :=
  RegsKeptBut rs s t ∧ InKept s t ∧ OutKept s t ∧ RunKept s t

/-- What a command that stores n bytes of OUT_BUF from `lo` on leaves: the same, but for those bytes. -/
def KeepsAllButStored (rs : List Reg) (lo n : Nat) (s t : State) : Prop :=
  RegsKeptBut rs s t ∧ InKept s t ∧ OutKeptOutside lo n s t ∧ TableKept s t ∧ RunKept s t

/-- The bytes `bs` stand in OUT_BUF from `lo` on. -/
def OutHolds (t : State) (lo : Nat) (bs : List Byte) : Prop :=
  ∀ k (h : k < bs.length), outByte t.outBuf (lo + k) = bs[k]

/-! ## Streams (44_stream.md R210) -/

/-- The frames `es`, each `OK` under 43_frame.md R180 and starting at the `next` of the one before, take IN_BUF from `q`
exactly to `q'`. -/
def FrameChain (m : Memory) (inLen q : Nat) : List FrameEntry → Nat → Prop
  | [], q' => q = q'
  | e :: es, q' => ∃ next, frameAt m inLen q = .ok e next ∧ FrameChain m inLen next es q'

/-- The bytes IN_BUF[p..p+8) lie below IN_LEN and are SIG. -/
def SigAt (s : State) (p : Nat) : Prop := p + 8 ≤ s.inLen.toNat ∧ memRead s.inBuf p 8 = sig

/-- The chunk stream at `p` is well formed and has the frames `es` (44_stream.md R210). -/
def WellFormedStream (s : State) (p : Nat) (es : List FrameEntry) : Prop :=
  SigAt s p ∧ FrameChain s.inBuf s.inLen.toNat (p + 8) es s.inLen.toNat

/-! ## Runs (40_control.md R116, 60_exceptions.md R245) -/

/-- The outcome of the host program `evs`, run until its last statement has completed (40_control.md R116): one step for
each event, and one step more, in which a CMD write that a reset abandoned as the last event ends with its bus error
(70_reset_and_hazards.md R262); after any other last event that step is idle and changes nothing. -/
def runProgram (evs : List HostEvent) (s : State) : Host.Outcome State Fault Refusal :=
  Host.Core.run Sys2Proof.core (evs.length + 1) { s with pending := evs }

/-- The program runs from `s` to the final state `t` without an error: no bus error, of an access that is not admitted or
of a CMD write that a reset abandoned (a fault has no final state, 20_memory.md R63), and STATUS.ANYERR = 0 at the end, begun with ANYERR = 0 (60_exceptions.md R245). -/
def RunsWithoutError (evs : List HostEvent) (s t : State) : Prop :=
  s.status.anyErr = false ∧ runProgram evs s = .next t ∧ t.status.anyErr = false

/-- The state function `f` applied to an outcome's next state. -/
def mapNext (f : State → State) : Host.Outcome State Fault Refusal → Host.Outcome State Fault Refusal
  | .next t => .next (f t)
  | .fault r => .fault r
  | .refused r => .refused r

/-- IN_BUF with bit `b` of the byte at offset `a` inverted. -/
def flipInBit (a b : Nat) (s : State) : State :=
  { s with inBuf := s.inBuf.write a (inByte s.inBuf a ^^^ BitVec.twoPow 8 b) }

/-- A byte sequence with bit `b` of its byte `i` inverted. -/
def flipBit (bs : List Byte) (i b : Nat) : List Byte := bs.modify i (fun x => x ^^^ BitVec.twoPow 8 b)

end Sys2Proof.Machine
end

