-- ==== Sys2Proof/Certificates/Slice0/Obligations.lean ====
section
/-! DEFINITION. The statements for the provers, family by family in the order of spec/. -/

open Sys2Proof Sys2Proof.Machine

/-! ## Encoding (30_encoding.md) -/

/-- Four command words written out from 30_encoding.md R93, one for each opcode group but control, and the F form. -/
def Obligations.SampleWordsDecode : Prop :=
  decode 0x00000002#32 = .command .crcFeed ∧ decode 0x00000011#32 = .command .typeFromString
    ∧ decode 0x00000121#32 = .command .frameParseEmit ∧ decode 0x00000032#32 = .command .streamParse
    ∧ decode 0x00000120#32 = .illegal .flagNotAdmitted

/-- 30_encoding.md R93: the legal command words are exactly these 14. -/
def Obligations.LegalWordsAreExactlyTheTable : Prop :=
  ∀ (w : Word) (i : Instr), decode w = .command i ↔
    (w, i) ∈ [((0x00000000 : Word), Instr.nop), (0x00000001, .crcInit), (0x00000002, .crcFeed), (0x00000003, .crcFinal),
      (0x00000004, .crcCompute), (0x00000010, .typeFromBytes), (0x00000011, .typeFromString), (0x00000012, .typeCmp),
      (0x00000020, .frameSerialize), (0x00000021, .frameParse), (0x00000121, .frameParseEmit), (0x00000030, .sigEmit),
      (0x00000031, .sigCheck), (0x00000032, .streamParse)]

/-- 30_encoding.md R94: the two forms of legality, by the whole word and by its fields. -/
def Obligations.LegalWordsByFields : Prop :=
  ∀ w : Word,
    ((∃ i, decode w = .command i) ↔
      w ∈ [(0x00000000 : Word), 0x00000001, 0x00000002, 0x00000003, 0x00000004, 0x00000010, 0x00000011, 0x00000012,
        0x00000020, 0x00000021, 0x00000121, 0x00000030, 0x00000031, 0x00000032])
      ∧ ((∃ i, decode w = .command i) ↔
        w.extractLsb' 9 23 = 0
          ∧ (w.extractLsb' 0 8).toNat ∈ [0x00, 0x01, 0x02, 0x03, 0x04, 0x10, 0x11, 0x12, 0x20, 0x21, 0x30, 0x31, 0x32]
          ∧ (w.getLsbD 8 = false ∨ w.extractLsb' 0 8 = 0x21#8))

/-- Decode and encode agree on every command and every word: encoding loses nothing, and a word decodes to a command only
if that command encodes to it (30_encoding.md R90, R93, R94). -/
def Obligations.DecodeEncodeAgree : Prop :=
  (∀ i : Instr, i.wellFormed = true → decode (encode i) = .command i)
    ∧ (∀ w : Word, match decode w with
        | .command i => encode i = w
        | .illegal _ => ∀ i : Instr, encode i ≠ w)

/-! ## Steps and issue (40_control.md) -/

/-- A step runs the decoded command: with a CMD write of a legal word at the head of the host's program, `step` is `exec`
of that command at the state in which the write is taken off the program and CMD holds the word; and the word that
`withFetchWord` puts there is run by the very next step. -/
def Obligations.StepRunsTheDecodedCommand : Prop :=
  (∀ (s : State) (w : Word) (i : Instr) (rest : List HostEvent),
      s.pending = .access ⟨.reg, 0x000, 32, .write (.lit w)⟩ :: rest → decode w = .command i →
      step s = exec i { s with pending := rest, cmd := w })
    ∧ (∀ (s : State) (w : Nat) (i : Instr), w < 2 ^ 32 → decode (BitVec.ofNat 32 w) = .command i →
        step (s.withFetchWord 32 w) = exec i { s with cmd := BitVec.ofNat 32 w })

/-- With nothing pending the engine is idle and keeps all its state (60_exceptions.md R252). -/
def Obligations.IdleEngineKeepsItsState : Prop := ∀ s : State, s.pending = [] → step s = .next s

/-- 30_encoding.md R95: an unassigned opcode, an F bit on an opcode other than 0x21 and a set RSV bit are each illegal,
and an illegal word written to CMD fails with ILLEGAL_COMMAND; CMD holds the word and nothing else changes. -/
def Obligations.IllegalWordFailsAndChangesOnlyStatus : Prop :=
  (∀ w : Word,
    ((w.extractLsb' 0 8).toNat ∉ [0x00, 0x01, 0x02, 0x03, 0x04, 0x10, 0x11, 0x12, 0x20, 0x21, 0x30, 0x31, 0x32]
        ∨ (w.getLsbD 8 = true ∧ w.extractLsb' 0 8 ≠ 0x21#8) ∨ w.extractLsb' 9 23 ≠ 0) →
      ∀ i, decode w ≠ .command i) ∧
  (∀ (s : State) (w : Word) (rest : List HostEvent),
    s.pending = .access ⟨.reg, 0x000, 32, .write (.lit w)⟩ :: rest → (∀ i, decode w ≠ .command i) →
    ∃ t, step s = .next t ∧ t.cmd = w ∧ Fails 8 0 s t ∧ KeepsAllBut [.cmd, .status] { s with pending := rest } t)

/-- 40_control.md R115: NOP, and its corner cases: no other word with opcode 0 is a command, no other command clears
ANYERR, and a NOP after reset changes nothing. -/
def Obligations.NopClearsTheErrorStatus : Prop :=
  decode 0x00000000#32 = .command .nop ∧
  (∀ s : State, ∃ t, exec .nop s = .next t
    ∧ t.status.err = false ∧ t.status.errCode = 0 ∧ t.status.errSub = 0 ∧ t.status.anyErr = false
    ∧ t.status.eq = s.status.eq ∧ KeepsAllBut [.status] s t) ∧
  (∀ w : Word, w.extractLsb' 0 8 = 0 → w ≠ 0 → ∀ i, decode w ≠ .command i) ∧
  (∀ (i : Instr) (s t : State), exec i s = .next t → s.status.anyErr = true → t.status.anyErr = false → i = .nop) ∧
  (∀ p : Params, exec .nop (State.resetWith p) = .next (State.resetWith p))

/-! ## CRC generator (42_crc.md) -/

/-- 42_crc.md R165: CRC_INIT; reset loads the same value. -/
def Obligations.CrcInitLoadsTheInitialValue : Prop :=
  decode 0x00000001#32 = .command .crcInit ∧
  (∀ s : State, ∃ t, exec .crcInit s = .next t ∧ t.crcAcc = 0xFFFFFFFF ∧ Succeeds s t
    ∧ KeepsAllBut [.crcAcc, .status] s t) ∧
  (∀ p : Params, (State.resetWith p).crcAcc = 0xFFFFFFFF)

/-- 42_crc.md R166: CRC_FEED, with the byte step of R161 written out: eight times a shift right, with the reflected
polynomial 0xEDB88320 xored in when the bit shifted out was 1. -/
def Obligations.CrcFeedAddsTheWindow : Prop :=
  decode 0x00000002#32 = .command .crcFeed ∧
  (∀ (c : Word) (b : Byte) (rest : List Byte),
    let shift : Word → Word := fun x => if x.getLsbD 0 then (x >>> 1) ^^^ 0xEDB88320 else x >>> 1
    crcUpdate c [] = c
      ∧ crcUpdate c (b :: rest) = crcUpdate (Nat.repeat shift 8 (c ^^^ b.setWidth 32)) rest) ∧
  (∀ s : State, s.argOff.toNat + s.argLen.toNat ≤ s.inLen.toNat →
    ∃ t, exec .crcFeed s = .next t
      ∧ t.crcAcc = crcUpdate s.crcAcc (memRead s.inBuf s.argOff.toNat s.argLen.toNat)
      ∧ Succeeds s t ∧ KeepsAllBut [.crcAcc, .status] s t) ∧
  (∀ s : State, s.inLen.toNat < s.argOff.toNat + s.argLen.toNat →
    ∃ t, exec .crcFeed s = .next t ∧ Fails 9 0 s t ∧ KeepsAllBut [.status] s t)

/-- 42_crc.md R167: CRC_FINAL. -/
def Obligations.CrcFinalFinishesTheChecksum : Prop :=
  decode 0x00000003#32 = .command .crcFinal ∧
  ∀ s : State, ∃ t, exec .crcFinal s = .next t ∧ t.crcResult = s.crcAcc ^^^ 0xFFFFFFFF ∧ Succeeds s t
    ∧ KeepsAllBut [.crcResult, .status] s t

/-- 42_crc.md R168: CRC_COMPUTE, with R162's checksum and R160's check value, the CRC of "123456789". -/
def Obligations.CrcComputeChecksumsTheWindow : Prop :=
  decode 0x00000004#32 = .command .crcCompute ∧
  (∀ bs : List Byte, crc32 bs = crcUpdate 0xFFFFFFFF bs ^^^ 0xFFFFFFFF) ∧ crc32 [] = 0x00000000 ∧
  crc32 [0x31, 0x32, 0x33, 0x34, 0x35, 0x36, 0x37, 0x38, 0x39] = 0xCBF43926 ∧
  (∀ s : State, s.argOff.toNat + s.argLen.toNat ≤ s.inLen.toNat →
    ∃ t, exec .crcCompute s = .next t
      ∧ t.crcAcc = crcUpdate 0xFFFFFFFF (memRead s.inBuf s.argOff.toNat s.argLen.toNat)
      ∧ t.crcResult = t.crcAcc ^^^ 0xFFFFFFFF
      ∧ t.crcResult = crc32 (memRead s.inBuf s.argOff.toNat s.argLen.toNat)
      ∧ Succeeds s t ∧ KeepsAllBut [.crcAcc, .crcResult, .status] s t) ∧
  (∀ s : State, s.inLen.toNat < s.argOff.toNat + s.argLen.toNat →
    ∃ t, exec .crcCompute s = .next t ∧ Fails 9 0 s t ∧ KeepsAllBut [.status] s t)

/-- 42_crc.md R168, corner case: CRC_COMPUTE has the same effect as CRC_INIT, CRC_FEED, CRC_FINAL over the same window. -/
def Obligations.CrcComputeIsInitFeedFinal : Prop :=
  ∀ s : State, s.argOff.toNat + s.argLen.toNat ≤ s.inLen.toNat →
    ∃ a b c, exec .crcInit s = .next a ∧ exec .crcFeed a = .next b ∧ exec .crcFinal b = .next c
      ∧ exec .crcCompute s = .next c

/-- 42_crc.md R164 on the engine: two CRC_FEEDs over adjacent windows leave what one CRC_FEED over the two windows
together leaves in CRC_ACC, and what one CRC_COMPUTE leaves when the first starts from the initial value. -/
def Obligations.CrcFeedsComposeOverAdjacentWindows : Prop :=
  ∀ (s : State) (n m : Word), s.argOff.toNat + n.toNat + m.toNat ≤ s.inLen.toNat →
    ∃ a b c, exec .crcFeed { s with argLen := n } = .next a
      ∧ exec .crcFeed { a with argOff := BitVec.ofNat 32 (s.argOff.toNat + n.toNat), argLen := m } = .next b
      ∧ exec .crcFeed { s with argLen := BitVec.ofNat 32 (n.toNat + m.toNat) } = .next c
      ∧ b.crcAcc = c.crcAcc
      ∧ (s.crcAcc = 0xFFFFFFFF →
          ∃ d, exec .crcCompute { s with argLen := BitVec.ofNat 32 (n.toNat + m.toNat) } = .next d ∧ b.crcAcc = d.crcAcc)

/-- 42_crc.md R170: a single flipped bit always changes the checksum. -/
def Obligations.SingleBitFlipChangesCrc : Prop :=
  ∀ (bs : List Byte) (i b : Nat), i < bs.length → b < 8 → crc32 (flipBit bs i b) ≠ crc32 bs

/-- The commands outside the CRC generator never write CRC_ACC or CRC_RESULT, CRC_FEED and CRC_INIT never write CRC_RESULT,
and CRC_FINAL never writes CRC_ACC (10_state.md R38, R39; 42_crc.md R163). -/
def Obligations.OnlyTheCrcGeneratorWritesItsRegisters : Prop :=
  ∀ (i : Instr) (s t : State), exec i s = .next t →
    (i ≠ .crcInit → i ≠ .crcFeed → i ≠ .crcCompute → t.crcAcc = s.crcAcc)
      ∧ (i ≠ .crcFinal → i ≠ .crcCompute → t.crcResult = s.crcResult)

/-! ## Type code validator (41_chunk_type.md) -/

/-- 41_chunk_type.md R131 to R136: each TYPE_FLAGS bit, in terms of the four bytes of TYPE as numbers. -/
def Obligations.TypeFlagsFollowTheTypeBytes : Prop :=
  ∀ s : State,
    let tb : Nat → Nat := fun i => s.typeReg.toNat / 2 ^ (24 - 8 * i) % 256
    let letter : Nat → Prop := fun b => (0x41 ≤ b ∧ b ≤ 0x5A) ∨ (0x61 ≤ b ∧ b ≤ 0x7A)
    let flags := readReg s .typeFlags
    (flags.getLsbD 0 = true ↔ letter (tb 0) ∧ letter (tb 1) ∧ letter (tb 2) ∧ letter (tb 3))
      ∧ (flags.getLsbD 1 = true ↔ tb 0 / 32 % 2 = 0)
      ∧ (flags.getLsbD 2 = true ↔ tb 1 / 32 % 2 = 0)
      ∧ (flags.getLsbD 3 = true ↔ tb 2 / 32 % 2 = 0)
      ∧ (flags.getLsbD 4 = true ↔ tb 3 / 32 % 2 = 1)
      ∧ (flags.getLsbD 5 = true ↔ flags.getLsbD 0 = true ∧ flags.getLsbD 3 = true)
      ∧ flags.extractLsb' 6 26 = 0

/-- 41_chunk_type.md R140: TYPE_FROM_BYTES. The type is the four bytes, first byte most significant. -/
def Obligations.TypeFromBytesLoadsTheWindow : Prop :=
  decode 0x00000010#32 = .command .typeFromBytes ∧
  (∀ s : State, s.argOff.toNat + 4 ≤ s.inLen.toNat →
    ∃ t, exec .typeFromBytes s = .next t
      ∧ t.typeReg.toNat = (inByte s.inBuf s.argOff.toNat).toNat * 2 ^ 24
          + (inByte s.inBuf (s.argOff.toNat + 1)).toNat * 2 ^ 16
          + (inByte s.inBuf (s.argOff.toNat + 2)).toNat * 2 ^ 8 + (inByte s.inBuf (s.argOff.toNat + 3)).toNat
      ∧ Succeeds s t ∧ KeepsAllBut [.type, .typeFlags, .status] s t) ∧
  (∀ s : State, s.inLen.toNat < s.argOff.toNat + 4 →
    ∃ t, exec .typeFromBytes s = .next t ∧ Fails 9 0 s t ∧ KeepsAllBut [.status] s t)

/-- 41_chunk_type.md R141: TYPE_FROM_STRING, with the order of its checks. -/
def Obligations.TypeFromStringTakesFourAsciiCharacters : Prop :=
  decode 0x00000011#32 = .command .typeFromString ∧
  (∀ s : State, s.argOff.toNat + s.argLen.toNat ≤ s.inLen.toNat → s.argLen = 4 →
    (∀ k < 4, (inByte s.inBuf (s.argOff.toNat + k)).toNat < 0x80) →
    ∃ t, exec .typeFromString s = .next t
      ∧ t.typeReg.toNat = (inByte s.inBuf s.argOff.toNat).toNat * 2 ^ 24
          + (inByte s.inBuf (s.argOff.toNat + 1)).toNat * 2 ^ 16
          + (inByte s.inBuf (s.argOff.toNat + 2)).toNat * 2 ^ 8 + (inByte s.inBuf (s.argOff.toNat + 3)).toNat
      ∧ Succeeds s t ∧ KeepsAllBut [.type, .typeFlags, .status] s t) ∧
  (∀ s : State, s.argOff.toNat + s.argLen.toNat ≤ s.inLen.toNat →
    (s.argLen ≠ 4 ∨ ∃ k < 4, 0x80 ≤ (inByte s.inBuf (s.argOff.toNat + k)).toNat) →
    ∃ t, exec .typeFromString s = .next t ∧ Fails 1 0 s t ∧ KeepsAllBut [.status] s t) ∧
  (∀ s : State, s.inLen.toNat < s.argOff.toNat + s.argLen.toNat →
    ∃ t, exec .typeFromString s = .next t ∧ Fails 9 0 s t ∧ KeepsAllBut [.status] s t)

/-- 41_chunk_type.md R142 and R138: TYPE_CMP compares byte for byte. -/
def Obligations.TypeCmpComparesByteForByte : Prop :=
  decode 0x00000012#32 = .command .typeCmp ∧
  (∀ s : State, s.argOff.toNat + 4 ≤ s.inLen.toNat →
    ∃ t, exec .typeCmp s = .next t
      ∧ (t.status.eq = true ↔ ∀ k < 4, (inByte s.inBuf (s.argOff.toNat + k)).toNat
          = s.typeReg.toNat / 2 ^ (24 - 8 * k) % 256)
      ∧ t.status.err = false ∧ t.status.errCode = 0 ∧ t.status.errSub = 0 ∧ t.status.anyErr = s.status.anyErr
      ∧ KeepsAllBut [.status] s t) ∧
  (∀ s : State, s.inLen.toNat < s.argOff.toNat + 4 →
    ∃ t, exec .typeCmp s = .next t ∧ Fails 9 0 s t ∧ KeepsAllBut [.status] s t)

/-! ## Frame unit (43_frame.md) -/

/-- 43_frame.md R180: `frame_at`, its five ways, with the fields read big-endian and the bounds exact. -/
def Obligations.FrameReaderFollowsItsChecks : Prop :=
  ∀ (m : Memory) (inLen p : Nat), p ≤ inLen → inLen < 2 ^ 32 →
    let L := (be32 (memRead m p 4)).toNat
    let t := memRead m (p + 4) 4
    let d := memRead m (p + 8) L
    let st := be32 (memRead m (p + 8 + L) 4)
    let c := crc32 (t ++ d)
    (inLen - p < 8 → frameAt m inLen p = .eof)
      ∧ (8 ≤ inLen - p → inLen - p - 8 < L + 4 → frameAt m inLen p = .eof)
      ∧ (8 ≤ inLen - p → L + 4 ≤ inLen - p - 8 → st ≠ c → frameAt m inLen p = .mismatch st c)
      ∧ (8 ≤ inLen - p → L + 4 ≤ inLen - p - 8 → st = c →
          ∃ e, frameAt m inLen p = .ok e (p + 12 + L) ∧ e.type = be32 t ∧ e.len.toNat = L ∧ e.dataOff.toNat = p + 8
            ∧ e.crc = st ∧ p + 12 + L ≤ inLen)

/-- The frame reader accepts exactly the serializer's frames: `frame_at(p)` is OK with `L` data bytes just when the bytes
from p on are length, type, data and crc as 20_memory.md R70 lays them out and end at or below IN_LEN (43_frame.md R180,
R181). -/
def Obligations.FrameReaderAcceptsExactlySerializedFrames : Prop :=
  ∀ (m : Memory) (inLen p : Nat), p ≤ inLen → inLen < 2 ^ 32 →
    ((∃ e next, frameAt m inLen p = .ok e next) ↔
      ∃ (type : Word) (data : List Byte), p + 12 + data.length ≤ inLen
        ∧ memRead m p (12 + data.length) = frameBytes type data)

/-- 43_frame.md R186: the bytes after a frame are neither read nor checked: a frame that is OK stays OK, with the same
fields, whatever IN_BUF holds from its `next` on and wherever IN_LEN lies from there on. -/
def Obligations.FrameReaderIgnoresTheBytesAfterTheFrame : Prop :=
  ∀ (m m' : Memory) (inLen inLen' p next : Nat) (e : FrameEntry), frameAt m inLen p = .ok e next → next ≤ inLen' →
    (∀ a, p ≤ a → a < next → inByte m' a = inByte m a) → frameAt m' inLen' p = .ok e next

/-- 43_frame.md R181: FRAME_SERIALIZE. -/
def Obligations.FrameSerializeWritesTheFrame : Prop :=
  decode 0x00000020#32 = .command .frameSerialize ∧
  (∀ s : State, s.argOff.toNat + s.argLen.toNat ≤ s.inLen.toNat →
    s.outPtr.toNat + 12 + s.argLen.toNat ≤ s.params.outCap.toNat →
    ∃ t, exec .frameSerialize s = .next t
      ∧ OutHolds t s.outPtr.toNat
          (be32bytes s.argLen ++ be32bytes s.typeReg ++ memRead s.inBuf s.argOff.toNat s.argLen.toNat
            ++ be32bytes (crc32 (be32bytes s.typeReg ++ memRead s.inBuf s.argOff.toNat s.argLen.toNat)))
      ∧ t.outPtr.toNat = s.outPtr.toNat + 12 + s.argLen.toNat
      ∧ t.len = s.argLen
      ∧ t.computedCrc = crc32 (be32bytes s.typeReg ++ memRead s.inBuf s.argOff.toNat s.argLen.toNat)
      ∧ Succeeds s t
      ∧ KeepsAllButStored [.outPtr, .len, .computedCrc, .status] s.outPtr.toNat (12 + s.argLen.toNat) s t) ∧
  (∀ s : State, s.argOff.toNat + s.argLen.toNat ≤ s.inLen.toNat →
    s.params.outCap.toNat < s.outPtr.toNat + 12 + s.argLen.toNat →
    ∃ t, exec .frameSerialize s = .next t ∧ Fails 10 0 s t ∧ KeepsAllBut [.status] s t) ∧
  (∀ s : State, s.inLen.toNat < s.argOff.toNat + s.argLen.toNat →
    ∃ t, exec .frameSerialize s = .next t ∧ Fails 9 0 s t ∧ KeepsAllBut [.status] s t)

/-- 43_frame.md R183: FRAME_PARSE. -/
def Obligations.FrameParseSplitsOneFrame : Prop :=
  decode 0x00000021#32 = .command .frameParse ∧
  (∀ (s : State) (e : FrameEntry) (next : Nat), s.inPtr.toNat ≤ s.inLen.toNat →
    frameAt s.inBuf s.inLen.toNat s.inPtr.toNat = .ok e next →
    ∃ t, exec .frameParse s = .next t ∧ t.typeReg = e.type ∧ t.len = e.len ∧ t.dataOff = e.dataOff
      ∧ t.storedCrc = e.crc ∧ t.computedCrc = e.crc ∧ t.inPtr.toNat = next ∧ Succeeds s t
      ∧ KeepsAllBut [.type, .typeFlags, .len, .dataOff, .storedCrc, .computedCrc, .inPtr, .status] s t) ∧
  (∀ (s : State) (st c : Word), s.inPtr.toNat ≤ s.inLen.toNat →
    frameAt s.inBuf s.inLen.toNat s.inPtr.toNat = .mismatch st c →
    ∃ t, exec .frameParse s = .next t ∧ t.errOff = s.inPtr ∧ t.storedCrc = st ∧ t.computedCrc = c ∧ Fails 4 0 s t
      ∧ KeepsAllBut [.errOff, .storedCrc, .computedCrc, .status] s t) ∧
  (∀ s : State, s.inPtr.toNat ≤ s.inLen.toNat → frameAt s.inBuf s.inLen.toNat s.inPtr.toNat = .eof →
    ∃ t, exec .frameParse s = .next t ∧ t.errOff = s.inPtr ∧ Fails 3 0 s t ∧ KeepsAllBut [.errOff, .status] s t) ∧
  (∀ s : State, s.inLen.toNat < s.inPtr.toNat →
    ∃ t, exec .frameParse s = .next t ∧ Fails 9 0 s t ∧ KeepsAllBut [.status] s t)

/-- 43_frame.md R184: FRAME_PARSE_EMIT. -/
def Obligations.FrameParseEmitCopiesThePayload : Prop :=
  decode 0x00000121#32 = .command .frameParseEmit ∧
  (∀ (s : State) (e : FrameEntry) (next : Nat), s.inPtr.toNat ≤ s.inLen.toNat →
    frameAt s.inBuf s.inLen.toNat s.inPtr.toNat = .ok e next →
    s.outPtr.toNat + e.len.toNat ≤ s.params.outCap.toNat →
    ∃ t, exec .frameParseEmit s = .next t
      ∧ (∀ k < e.len.toNat, outByte t.outBuf (s.outPtr.toNat + k) = inByte s.inBuf (e.dataOff.toNat + k))
      ∧ t.outPtr.toNat = s.outPtr.toNat + e.len.toNat
      ∧ t.typeReg = e.type ∧ t.len = e.len ∧ t.dataOff = e.dataOff
      ∧ t.storedCrc = e.crc ∧ t.computedCrc = e.crc ∧ t.inPtr.toNat = next ∧ Succeeds s t
      ∧ KeepsAllButStored [.outPtr, .type, .typeFlags, .len, .dataOff, .storedCrc, .computedCrc, .inPtr, .status]
          s.outPtr.toNat e.len.toNat s t) ∧
  (∀ (s : State) (e : FrameEntry) (next : Nat), s.inPtr.toNat ≤ s.inLen.toNat →
    frameAt s.inBuf s.inLen.toNat s.inPtr.toNat = .ok e next →
    s.params.outCap.toNat < s.outPtr.toNat + e.len.toNat →
    ∃ t, exec .frameParseEmit s = .next t ∧ t.errOff = s.inPtr ∧ Fails 10 0 s t ∧ KeepsAllBut [.errOff, .status] s t) ∧
  (∀ (s : State) (st c : Word), s.inPtr.toNat ≤ s.inLen.toNat →
    frameAt s.inBuf s.inLen.toNat s.inPtr.toNat = .mismatch st c →
    ∃ t, exec .frameParseEmit s = .next t ∧ t.errOff = s.inPtr ∧ t.storedCrc = st ∧ t.computedCrc = c ∧ Fails 4 0 s t
      ∧ KeepsAllBut [.errOff, .storedCrc, .computedCrc, .status] s t) ∧
  (∀ s : State, s.inPtr.toNat ≤ s.inLen.toNat → frameAt s.inBuf s.inLen.toNat s.inPtr.toNat = .eof →
    ∃ t, exec .frameParseEmit s = .next t ∧ t.errOff = s.inPtr ∧ Fails 3 0 s t ∧ KeepsAllBut [.errOff, .status] s t) ∧
  (∀ s : State, s.inLen.toNat < s.inPtr.toNat →
    ∃ t, exec .frameParseEmit s = .next t ∧ Fails 9 0 s t ∧ KeepsAllBut [.status] s t)

/-- 43_frame.md R182, law 1: a serialized frame, put into IN_BUF at any offset p, parses back to the type, data and crc it
was built from. -/
def Obligations.SerializedFrameParsesBack : Prop :=
  ∀ s t u : State, exec .frameSerialize s = .next t → t.status.err = false →
    u.inPtr.toNat + 12 + s.argLen.toNat ≤ u.inLen.toNat →
    (∀ k < 12 + s.argLen.toNat, inByte u.inBuf (u.inPtr.toNat + k) = outByte t.outBuf (s.outPtr.toNat + k)) →
    ∃ v, exec .frameParse u = .next v ∧ Succeeds u v
      ∧ v.typeReg = s.typeReg ∧ v.len = s.argLen ∧ v.dataOff.toNat = u.inPtr.toNat + 8
      ∧ v.storedCrc = t.computedCrc ∧ v.computedCrc = t.computedCrc
      ∧ v.inPtr.toNat = u.inPtr.toNat + 12 + s.argLen.toNat
      ∧ ∀ k < s.argLen.toNat, inByte v.inBuf (v.dataOff.toNat + k) = inByte s.inBuf (s.argOff.toNat + k)

/-- 43_frame.md R182, law 2: serializing what a parse read writes exactly the bytes it was read from. -/
def Obligations.ParsedFrameSerializesBack : Prop :=
  ∀ s t u : State, exec .frameParse s = .next t → t.status.err = false →
    u.typeReg = t.typeReg → u.argOff = t.dataOff → u.argLen = t.len → u.inBuf = s.inBuf → u.inLen = s.inLen →
    u.outPtr.toNat + 12 + t.len.toNat ≤ u.params.outCap.toNat →
    ∃ v, exec .frameSerialize u = .next v ∧ Succeeds u v
      ∧ v.outPtr.toNat = u.outPtr.toNat + 12 + t.len.toNat
      ∧ t.inPtr.toNat = s.inPtr.toNat + 12 + t.len.toNat
      ∧ ∀ k < 12 + t.len.toNat, outByte v.outBuf (u.outPtr.toNat + k) = inByte s.inBuf (s.inPtr.toNat + k)

/-- 43_frame.md R183, corner case: one flipped bit in the type or data bytes of a frame that parses makes its parse fail
with CRC_MISMATCH, whatever else the state holds. -/
def Obligations.FlippedTypeOrDataBitFailsTheParse : Prop :=
  ∀ (s : State) (e : FrameEntry) (next a b : Nat), s.inPtr.toNat ≤ s.inLen.toNat →
    frameAt s.inBuf s.inLen.toNat s.inPtr.toNat = .ok e next →
    s.inPtr.toNat + 4 ≤ a → a < s.inPtr.toNat + 8 + e.len.toNat → b < 8 →
    ∃ t, exec .frameParse (flipInBit a b s) = .next t ∧ Fails 4 0 s t
      ∧ t.storedCrc = e.crc ∧ t.computedCrc ≠ e.crc ∧ t.errOff = s.inPtr ∧ t.inPtr = s.inPtr

/-! ## Stream unit (44_stream.md) -/

/-- 44_stream.md R211: SIG_EMIT. -/
def Obligations.SigEmitWritesTheSignature : Prop :=
  decode 0x00000030#32 = .command .sigEmit ∧
  (∀ s : State, s.outPtr.toNat + 8 ≤ s.params.outCap.toNat →
    ∃ t, exec .sigEmit s = .next t
      ∧ OutHolds t s.outPtr.toNat [0x89, 0x50, 0x4E, 0x47, 0x0D, 0x0A, 0x1A, 0x0A]
      ∧ t.outPtr.toNat = s.outPtr.toNat + 8 ∧ Succeeds s t
      ∧ KeepsAllButStored [.outPtr, .status] s.outPtr.toNat 8 s t) ∧
  (∀ s : State, s.params.outCap.toNat < s.outPtr.toNat + 8 →
    ∃ t, exec .sigEmit s = .next t ∧ Fails 10 0 s t ∧ KeepsAllBut [.status] s t)

/-- 44_stream.md R212: SIG_CHECK. -/
def Obligations.SigCheckStepsOverTheSignature : Prop :=
  decode 0x00000031#32 = .command .sigCheck ∧
  (∀ s : State, s.inPtr.toNat + 8 ≤ s.inLen.toNat →
    memRead s.inBuf s.inPtr.toNat 8 = [0x89, 0x50, 0x4E, 0x47, 0x0D, 0x0A, 0x1A, 0x0A] →
    ∃ t, exec .sigCheck s = .next t ∧ t.inPtr.toNat = s.inPtr.toNat + 8 ∧ Succeeds s t
      ∧ KeepsAllBut [.inPtr, .status] s t) ∧
  (∀ s : State, s.inPtr.toNat ≤ s.inLen.toNat →
    (s.inLen.toNat < s.inPtr.toNat + 8 ∨
      memRead s.inBuf s.inPtr.toNat 8 ≠ [0x89, 0x50, 0x4E, 0x47, 0x0D, 0x0A, 0x1A, 0x0A]) →
    ∃ t, exec .sigCheck s = .next t ∧ t.errOff = s.inPtr ∧ Fails 2 0 s t ∧ KeepsAllBut [.errOff, .status] s t) ∧
  (∀ s : State, s.inLen.toNat < s.inPtr.toNat →
    ∃ t, exec .sigCheck s = .next t ∧ Fails 9 0 s t ∧ KeepsAllBut [.status] s t)

/-- 44_stream.md R213: STREAM_PARSE. A well-formed stream that fits the table fills it with its frames, in stream order.
Otherwise the first thing that stops the parse decides; there `es` are the frames before it, and on every path but RANGE
FRAME_COUNT is 0, so that the window reads 0 (R214). The last clause, a success leaves STORED_CRC, stands apart: R213 says
so and 10_state.md R42 says otherwise, and that R213 is followed there is the model's choice (log entry 16). -/
def Obligations.StreamParseFillsTheTableOrStops : Prop :=
  decode 0x00000032#32 = .command .streamParse ∧
  (∀ (s : State) (es : List FrameEntry), WellFormedStream s s.inPtr.toNat es →
    es.length ≤ s.params.maxFrames.toNat →
    ∃ t, exec .streamParse s = .next t ∧ t.frameCount.toNat = es.length
      ∧ (∀ k (h : k < es.length), ftEntry t k = es[k])
      ∧ (∀ k, es.length ≤ k → ftEntry t k = ftEntry s k)
      ∧ t.inPtr = s.inLen ∧ Succeeds s t
      ∧ RegsKeptBut [.frameCount, .ftType, .ftLen, .ftDataOff, .ftCrc, .inPtr, .storedCrc, .status] s t
      ∧ InKept s t ∧ OutKept s t ∧ RunKept s t) ∧
  (∀ s : State, s.inLen.toNat < s.inPtr.toNat →
    ∃ t, exec .streamParse s = .next t ∧ Fails 9 0 s t ∧ KeepsAllBut [.status] s t) ∧
  (∀ s : State, s.inPtr.toNat ≤ s.inLen.toNat → ¬ SigAt s s.inPtr.toNat →
    ∃ t, exec .streamParse s = .next t ∧ t.errOff = s.inPtr ∧ t.errFrame = 0 ∧ t.frameCount = 0 ∧ Fails 2 0 s t
      ∧ KeepsAllButTable [.errOff, .errFrame, .frameCount, .ftType, .ftLen, .ftDataOff, .ftCrc, .status] s t) ∧
  (∀ (s : State) (es : List FrameEntry) (q : Nat), SigAt s s.inPtr.toNat →
    FrameChain s.inBuf s.inLen.toNat (s.inPtr.toNat + 8) es q → q < s.inLen.toNat →
    es.length ≤ s.params.maxFrames.toNat → frameAt s.inBuf s.inLen.toNat q = .eof →
    ∃ t, exec .streamParse s = .next t ∧ t.errOff.toNat = q ∧ t.errFrame.toNat = es.length ∧ t.frameCount = 0
      ∧ Fails 5 3 s t
      ∧ KeepsAllButTable [.errOff, .errFrame, .frameCount, .ftType, .ftLen, .ftDataOff, .ftCrc, .status] s t) ∧
  (∀ (s : State) (es : List FrameEntry) (q : Nat) (st c : Word), SigAt s s.inPtr.toNat →
    FrameChain s.inBuf s.inLen.toNat (s.inPtr.toNat + 8) es q → q < s.inLen.toNat →
    es.length ≤ s.params.maxFrames.toNat → frameAt s.inBuf s.inLen.toNat q = .mismatch st c →
    ∃ t, exec .streamParse s = .next t ∧ t.errOff.toNat = q ∧ t.errFrame.toNat = es.length ∧ t.frameCount = 0
      ∧ t.storedCrc = st ∧ t.computedCrc = c ∧ Fails 5 4 s t
      ∧ KeepsAllButTable [.errOff, .errFrame, .frameCount, .storedCrc, .computedCrc, .ftType, .ftLen, .ftDataOff, .ftCrc,
          .status] s t) ∧
  (∀ (s : State) (es : List FrameEntry) (q : Nat) (e : FrameEntry) (next : Nat), SigAt s s.inPtr.toNat →
    FrameChain s.inBuf s.inLen.toNat (s.inPtr.toNat + 8) es q → q < s.inLen.toNat →
    es.length = s.params.maxFrames.toNat → frameAt s.inBuf s.inLen.toNat q = .ok e next →
    ∃ t, exec .streamParse s = .next t ∧ t.errOff.toNat = q ∧ t.errFrame.toNat = es.length ∧ t.frameCount = 0
      ∧ Fails 10 0 s t
      ∧ KeepsAllButTable [.errOff, .errFrame, .frameCount, .ftType, .ftLen, .ftDataOff, .ftCrc, .status] s t) ∧
  (∀ s t : State, exec .streamParse s = .next t → t.status.err = false → t.storedCrc = s.storedCrc)

/-- STREAM_PARSE succeeds exactly on the well-formed streams of at most MAX_FRAMES frames (44_stream.md R210, R213). -/
def Obligations.StreamParseSucceedsExactlyOnWellFormedStreams : Prop :=
  ∀ s : State, (∃ t, exec .streamParse s = .next t ∧ t.status.err = false) ↔
    ∃ es, WellFormedStream s s.inPtr.toNat es ∧ es.length ≤ s.params.maxFrames.toNat

/-- 43_frame.md R186: FRAME_PARSE repeated from just after the signature visits the frames STREAM_PARSE put into the table,
in the same order, and stands at the end of the input after the last. -/
def Obligations.RepeatedFrameParseVisitsTheStream : Prop :=
  ∀ s t : State, exec .streamParse s = .next t → t.status.err = false →
    (∀ k < t.frameCount.toNat,
      ∃ u, runProgram (List.replicate (k + 1) (cmdWrite 0x00000021))
          { s with inPtr := BitVec.ofNat 32 (s.inPtr.toNat + 8) } = .next u
        ∧ u.status.err = false ∧ u.typeReg = (ftEntry t k).type ∧ u.len = (ftEntry t k).len
        ∧ u.dataOff = (ftEntry t k).dataOff ∧ u.storedCrc = (ftEntry t k).crc
        ∧ (eos u = true ↔ k + 1 = t.frameCount.toNat))

/-- 44_stream.md R215: after a successful STREAM_PARSE over IN_BUF[p..IN_LEN), the host's serialization of the table's
frames runs without an error and writes exactly those bytes, given the room. -/
def Obligations.ContainerRoundTrip : Prop :=
  ∀ (s t : State) (es : List FrameEntry), exec .streamParse s = .next t → t.status.err = false →
    es = (List.range t.frameCount.toNat).map (ftEntry t) →
    s.inLen.toNat - s.inPtr.toNat ≤ s.params.outCap.toNat →
    ∃ u, runProgram (expandProgram (serializeFrames es)) t = .next u
      ∧ u.status.err = false ∧ u.status.anyErr = t.status.anyErr
      ∧ u.outPtr.toNat = s.inLen.toNat - s.inPtr.toNat
      ∧ ∀ k < s.inLen.toNat - s.inPtr.toNat, outByte u.outBuf k = inByte s.inBuf (s.inPtr.toNat + k)

/-! ## Errors, for every command (60_exceptions.md) -/

/-- 60_exceptions.md R240: every command ends, by success or by failure; a failure writes STATUS and the diagnostic
registers its code allows (R230, last column) and nothing else. The last clause is the failure of an illegal word. -/
def Obligations.FailureWritesOnlyStatusAndDiagnostics : Prop :=
  (∀ (i : Instr) (s : State), ∃ t, exec i s = .next t ∧
    ((t.status.err = false ∧ t.status.errCode = 0 ∧ t.status.errSub = 0) ∨
     (t.status.err = true ∧ t.status.anyErr = true ∧ t.status.eq = s.status.eq
      ∧ InKept s t ∧ OutKept s t ∧ RunKept s t ∧ (i ≠ .streamParse ∨ t.status.errCode = 9 → TableKept s t)
      ∧ (t.frameCount = 0 → ∀ r ∈ [Reg.ftType, .ftLen, .ftDataOff, .ftCrc], readReg t r = 0)
      ∧ ((t.status.errCode = 1 ∨ t.status.errCode = 9) ∧ t.status.errSub = 0 ∧ RegsKeptBut [.status] s t
        ∨ t.status.errCode = 2 ∧ t.status.errSub = 0 ∧ i = .sigCheck ∧ RegsKeptBut [.status, .errOff] s t
        ∨ t.status.errCode = 3 ∧ t.status.errSub = 0 ∧ RegsKeptBut [.status, .errOff] s t
        ∨ t.status.errCode = 4 ∧ t.status.errSub = 0 ∧ RegsKeptBut [.status, .errOff, .storedCrc, .computedCrc] s t
        ∨ t.status.errCode = 10 ∧ t.status.errSub = 0 ∧ (i = .frameSerialize ∨ i = .sigEmit) ∧ RegsKeptBut [.status] s t
        ∨ t.status.errCode = 10 ∧ t.status.errSub = 0 ∧ i = .frameParseEmit ∧ RegsKeptBut [.status, .errOff] s t
        ∨ i = .streamParse ∧ t.frameCount = 0
          ∧ ((t.status.errCode = 2 ∧ t.errFrame = 0 ∨ t.status.errCode = 10) ∧ t.status.errSub = 0
              ∨ t.status.errCode = 5 ∧ t.status.errSub = 3)
          ∧ RegsKeptBut [.status, .errOff, .errFrame, .frameCount, .ftType, .ftLen, .ftDataOff, .ftCrc] s t
        ∨ i = .streamParse ∧ t.frameCount = 0 ∧ t.status.errCode = 5 ∧ t.status.errSub = 4
          ∧ RegsKeptBut [.status, .errOff, .errFrame, .frameCount, .storedCrc, .computedCrc, .ftType, .ftLen,
              .ftDataOff, .ftCrc] s t)))) ∧
  (∀ (w : Word) (s : State), (∀ i, decode w ≠ .command i) →
    ∃ t, issue w s = .next t ∧ Fails 8 0 s t ∧ KeepsAllBut [.cmd, .status] s t)

/-- RANGE is raised exactly when a window reaches past IN_LEN (20_memory.md R66) or IN_PTR lies past it (R67), by exactly
the commands that read a window or parse. -/
def Obligations.RangeRaisedExactlyPastInLen : Prop :=
  ∀ (i : Instr) (s t : State), exec i s = .next t →
    (t.status.errCode = 9 ↔
      (i = .crcFeed ∨ i = .crcCompute ∨ i = .typeFromString ∨ i = .frameSerialize)
          ∧ s.inLen.toNat < s.argOff.toNat + s.argLen.toNat
        ∨ (i = .typeFromBytes ∨ i = .typeCmp) ∧ s.inLen.toNat < s.argOff.toNat + 4
        ∨ (i = .frameParse ∨ i = .frameParseEmit ∨ i = .sigCheck ∨ i = .streamParse) ∧ s.inLen.toNat < s.inPtr.toNat)

/-- Every command writes all its output bytes or none (20_memory.md R68). FRAME_SERIALIZE, FRAME_PARSE_EMIT and SIG_EMIT
(10_state.md R35), when they succeed, put the whole of their output `bs` at the old OUT_PTR, inside OUT_CAP, move OUT_PTR
past it and change no other byte; when they fail, and for every other command, OUT_PTR and OUT_BUF are as before. -/
def Obligations.OutputIsAllOrNothing : Prop :=
  ∀ (i : Instr) (s t : State), exec i s = .next t →
    (t.status.err = false → i = .frameSerialize ∨ i = .frameParseEmit ∨ i = .sigEmit →
      ∃ bs : List Byte,
        (i = .frameSerialize → bs = be32bytes s.argLen ++ be32bytes s.typeReg
          ++ memRead s.inBuf s.argOff.toNat s.argLen.toNat ++ be32bytes t.computedCrc)
        ∧ (i = .frameParseEmit → bs = memRead s.inBuf t.dataOff.toNat t.len.toNat)
        ∧ (i = .sigEmit → bs = [0x89, 0x50, 0x4E, 0x47, 0x0D, 0x0A, 0x1A, 0x0A])
        ∧ t.outPtr.toNat = s.outPtr.toNat + bs.length ∧ t.outPtr.toNat ≤ s.params.outCap.toNat
        ∧ OutHolds t s.outPtr.toNat bs ∧ OutKeptOutside s.outPtr.toNat bs.length s t) ∧
    (t.status.err = true ∨ (i ≠ .frameSerialize ∧ i ≠ .frameParseEmit ∧ i ≠ .sigEmit) →
      t.outPtr = s.outPtr ∧ OutKept s t)

/-- No command writes CMD, ARG_OFF, ARG_LEN, IN_LEN, FT_INDEX, any byte of IN_BUF, or the constants (10_state.md R23, R31,
R32, R33, R46; 20_memory.md R64). -/
def Obligations.CommandsNeverWriteTheHostsRegisters : Prop :=
  ∀ (i : Instr) (s t : State), exec i s = .next t →
    t.cmd = s.cmd ∧ t.argOff = s.argOff ∧ t.argLen = s.argLen ∧ t.inLen = s.inLen ∧ t.ftIndex = s.ftIndex
      ∧ InKept s t ∧ RunKept s t

/-- A parse command that failed leaves everything it reads as it was: issued again it fails again in the same way, and the
state stays the same (70_reset_and_hazards.md R272). -/
def Obligations.FailedParseFailsAgainTheSameWay : Prop :=
  ∀ (i : Instr) (s t : State), (i = .frameParse ∨ i = .frameParseEmit ∨ i = .sigCheck ∨ i = .streamParse) →
    exec i s = .next t → t.status.err = true → exec i t = .next t

/-- No command reads a STATUS flag (10_state.md R57): whatever STATUS holds before, a command leaves the same in every
other part of the state, and the same ERR, ERRCODE and ERRSUB. -/
def Obligations.CommandsReadNoStatusFlag : Prop :=
  ∀ (i : Instr) (s : State) (st : Status), ∃ t u, exec i s = .next t ∧ exec i { s with status := st } = .next u
    ∧ { u with status := t.status } = t
    ∧ u.status.err = t.status.err ∧ u.status.errCode = t.status.errCode ∧ u.status.errSub = t.status.errSub

/-- A command's result depends on IN_BUF only below IN_LEN and not at all on OUT_BUF (10_state.md R33, 20_memory.md R64):
two states that differ only in IN_BUF from IN_LEN on, and in OUT_BUF, are taken to states that differ only there (IN_BUF
still agrees below IN_LEN), and the bytes a command writes to OUT_BUF are the same. -/
def Obligations.CommandsReadOnlyDeclaredInput : Prop :=
  ∀ (i : Instr) (s : State) (mi mo : Memory), (∀ a < s.inLen.toNat, inByte mi a = inByte s.inBuf a) →
    ∃ t u, exec i s = .next t ∧ exec i { s with inBuf := mi, outBuf := mo } = .next u
      ∧ { u with inBuf := t.inBuf, outBuf := t.outBuf } = t
      ∧ (∀ a < t.inLen.toNat, inByte u.inBuf a = inByte t.inBuf a)
      ∧ ∀ a, s.outPtr.toNat ≤ a → a < t.outPtr.toNat → outByte u.outBuf a = outByte t.outBuf a

/-- No rule depends on LATENCY or on where the platform puts the spaces (70_reset_and_hazards.md R275, 20_memory.md R76):
changing them changes no step but by the change itself. -/
def Obligations.LatencyAndPlacementChangeNothing : Prop :=
  ∀ (s : State) (lat rb ib ob : Nat),
    let f : State → State := fun x =>
      { x with params := { x.params with latency := lat, regBase := rb, inBase := ib, outBase := ob } }
    step (f s) = mapNext f (step s)

/-! ## STATUS (10_state.md) -/

/-- 10_state.md R27: EOS reads 1 just when IN_PTR = IN_LEN, at every read, so that a host write of either changes it at once,
and 1 after reset. The other bits of the STATUS word stand where R24's table puts them. -/
def Obligations.StatusWordHasItsFields : Prop :=
  (∀ s : State, let w := readReg s .status
    w.getLsbD 0 = s.status.err ∧ w.getLsbD 1 = s.status.eq ∧ (w.getLsbD 2 = true ↔ s.inPtr = s.inLen)
      ∧ w.getLsbD 3 = s.status.anyErr ∧ w.extractLsb' 4 4 = 0 ∧ w.extractLsb' 8 4 = s.status.errCode
      ∧ w.extractLsb' 12 4 = s.status.errSub ∧ w.extractLsb' 16 16 = 0) ∧
  (∀ (s : State) (v : Word) (rest : List HostEvent),
    s.pending = .access ⟨.reg, 0x014, 32, .write (.lit v)⟩ :: rest →
    ∃ t, step s = .next t ∧ ((readReg t .status).getLsbD 2 = true ↔ v = s.inLen)) ∧
  (∀ (s : State) (v : Word) (rest : List HostEvent),
    s.pending = .access ⟨.reg, 0x010, 32, .write (.lit v)⟩ :: rest →
    ∃ t, step s = .next t
      ∧ ((readReg t .status).getLsbD 2 = true ↔ s.inPtr.toNat = min v.toNat s.params.inCap.toNat)) ∧
  (∀ p : Params, (readReg (State.resetWith p) .status).getLsbD 2 = true)

/-- 10_state.md R28: ANYERR is set by every failing command, an illegal word among them, kept by every other success,
and cleared only by reset and by NOP, over all steps; reset leaves it 0. -/
def Obligations.AnyErrClearedOnlyByNopAndReset : Prop :=
  (∀ (i : Instr) (s t : State), exec i s = .next t →
      (t.status.err = true → t.status.anyErr = true)
        ∧ (t.status.err = false → i ≠ .nop → t.status.anyErr = s.status.anyErr)
        ∧ (i = .nop → t.status.anyErr = false)) ∧
  (∀ (w : Word) (s t : State), (∀ i, decode w ≠ .command i) → issue w s = .next t → t.status.anyErr = true) ∧
  (∀ s t : State, step s = .next t → s.status.anyErr = true → t.status.anyErr = false →
    ∃ rest, s.pending = .reset :: rest ∨ (∃ w, s.pending = .resetDuring w :: rest)
      ∨ (∃ v, s.pending = .access ⟨.reg, 0x000, 32, .write v⟩ :: rest ∧ decode (v.word s) = .command .nop)) ∧
  (∀ s : State, (assertReset s).status.anyErr = false) ∧ (∀ p : Params, (State.resetWith p).status.anyErr = false)

/-- 10_state.md R26: EQ holds the result of a TYPE_CMP that completes without error, is written by nothing else but
reset, over all steps, and is 0 after reset. -/
def Obligations.EqWrittenOnlyByTypeCmp : Prop :=
  (∀ s t : State, exec .typeCmp s = .next t → t.status.err = false →
      (t.status.eq = true ↔ be32bytes s.typeReg = memRead s.inBuf s.argOff.toNat 4)) ∧
  (∀ (i : Instr) (s t : State), exec i s = .next t → (i ≠ .typeCmp ∨ t.status.err = true) →
      t.status.eq = s.status.eq) ∧
  (∀ s t : State, step s = .next t → t.status.eq ≠ s.status.eq →
    ∃ rest, s.pending = .reset :: rest ∨ (∃ w, s.pending = .resetDuring w :: rest)
      ∨ (∃ v, s.pending = .access ⟨.reg, 0x000, 32, .write v⟩ :: rest ∧ decode (v.word s) = .command .typeCmp
          ∧ t.status.err = false)) ∧
  (∀ s : State, (assertReset s).status.eq = false) ∧ (∀ p : Params, (State.resetWith p).status.eq = false)

/-! ## The host port (10_state.md, 20_memory.md) -/

/-- 20_memory.md R63: an access is a fault exactly when it is not admitted. (REG is 4096 bytes, R60; what an offset past it
does is log entry 9 and no part of this statement.) -/
def Obligations.NotAdmittedAccessesFaultAndOnlyThose : Prop :=
  ∀ (s : State) (a : HostAccess) (rest : List HostEvent), s.pending = .access a :: rest →
    (a.space = .reg → a.offset < 4096) →
    ((∃ f, step s = .fault f) ↔
      (a.space = .reg ∧ (a.width ≠ 32 ∨ a.offset % 4 ≠ 0))
        ∨ ((a.space = .inBuf ∨ a.space = .outBuf) ∧ a.width ≠ 8)
        ∨ (a.space = .inBuf ∧ s.params.inCap.toNat ≤ a.offset)
        ∨ (a.space = .outBuf ∧ s.params.outCap.toNat ≤ a.offset))
      ∧ ((∃ t, step s = .next t) ∨ (∃ f, step s = .fault f))

/-- A host read of any register returns its value and changes nothing of the engine (20_memory.md R61, R75); the value goes
to the host's log, which is the model's own (log entry 6). The 27 registers stand at the offsets of 10_state.md R22's map,
and each register with storage, and each constant, reads as what the state holds for it (STATUS, TYPE_FLAGS and the frame
table window: StatusWordHasItsFields, TypeFlagsFollowTheTypeBytes, FrameTableWindowShowsTheSelectedEntry). -/
def Obligations.RegisterReadHasNoSideEffect : Prop :=
  (∀ (s : State) (r : Reg) (rest : List HostEvent), s.pending = .access ⟨.reg, r.offset, 32, .read⟩ :: rest →
    step s = .next { s with pending := rest, hostReads := readReg s r :: s.hostReads }) ∧
  (∀ r : Reg, (r, r.offset) ∈ [(Reg.cmd, 0x000), (.status, 0x004), (.argOff, 0x008), (.argLen, 0x00C), (.inLen, 0x010),
    (.inPtr, 0x014), (.outPtr, 0x018), (.type, 0x01C), (.typeFlags, 0x020), (.crcAcc, 0x024), (.crcResult, 0x028),
    (.len, 0x02C), (.dataOff, 0x030), (.storedCrc, 0x034), (.computedCrc, 0x038), (.frameCount, 0x03C),
    (.ftIndex, 0x040), (.ftType, 0x044), (.ftLen, 0x048), (.ftDataOff, 0x04C), (.ftCrc, 0x050), (.errOff, 0x054),
    (.errFrame, 0x058), (.id, 0x05C), (.capIn, 0x060), (.capOut, 0x064), (.capFrames, 0x068)]) ∧
  (∀ s : State, readReg s .cmd = s.cmd ∧ readReg s .argOff = s.argOff ∧ readReg s .argLen = s.argLen
    ∧ readReg s .inLen = s.inLen ∧ readReg s .inPtr = s.inPtr ∧ readReg s .outPtr = s.outPtr
    ∧ readReg s .type = s.typeReg ∧ readReg s .crcAcc = s.crcAcc ∧ readReg s .crcResult = s.crcResult
    ∧ readReg s .len = s.len ∧ readReg s .dataOff = s.dataOff ∧ readReg s .storedCrc = s.storedCrc
    ∧ readReg s .computedCrc = s.computedCrc ∧ readReg s .frameCount = s.frameCount ∧ readReg s .ftIndex = s.ftIndex
    ∧ readReg s .errOff = s.errOff ∧ readReg s .errFrame = s.errFrame ∧ readReg s .id = 0x504E4701
    ∧ readReg s .capIn = s.params.inCap ∧ readReg s .capOut = s.params.outCap
    ∧ readReg s .capFrames = s.params.maxFrames)

/-- 10_state.md R52 and R54: a host write to a read-only register or to a reserved offset changes nothing, and a read of a
reserved offset returns 0. -/
def Obligations.ReadOnlyAndReservedWritesAreIgnored : Prop :=
  (∀ (s : State) (r : Reg) (v : HostValue) (rest : List HostEvent),
    r ∈ [.status, .typeFlags, .crcResult, .len, .dataOff, .storedCrc, .computedCrc, .frameCount, .ftType, .ftLen,
      .ftDataOff, .ftCrc, .errOff, .errFrame, .id, .capIn, .capOut, .capFrames] →
    s.pending = .access ⟨.reg, r.offset, 32, .write v⟩ :: rest → step s = .next { s with pending := rest }) ∧
  (∀ (s : State) (off : Nat) (v : HostValue) (rest : List HostEvent), 0x06C ≤ off → off ≤ 0xFFC → off % 4 = 0 →
    s.pending = .access ⟨.reg, off, 32, .write v⟩ :: rest → step s = .next { s with pending := rest }) ∧
  (∀ (s : State) (off : Nat) (rest : List HostEvent), 0x06C ≤ off → off ≤ 0xFFC → off % 4 = 0 →
    s.pending = .access ⟨.reg, off, 32, .read⟩ :: rest →
    step s = .next { s with pending := rest, hostReads := 0 :: s.hostReads })

/-- 10_state.md R31, R32, R34, R36, R38, R46: a host write to a plain RW register stores the whole value, the next read
returns it, and no other register changes but those computed from it. -/
def Obligations.PlainRegisterWritesReadBack : Prop :=
  ∀ (s : State) (r : Reg) (v : Word) (rest : List HostEvent),
    r ∈ [Reg.argOff, .argLen, .inPtr, .type, .crcAcc, .ftIndex] →
    s.pending = .access ⟨.reg, r.offset, 32, .write (.lit v)⟩ :: rest →
    ∃ t, step s = .next t ∧ readReg t r = v ∧ t.status = s.status
      ∧ (r = .inPtr → KeepsAllBut [.inPtr, .status] { s with pending := rest } t)
      ∧ (r = .type → KeepsAllBut [.type, .typeFlags] { s with pending := rest } t)
      ∧ (r = .ftIndex → KeepsAllBut [.ftIndex, .ftType, .ftLen, .ftDataOff, .ftCrc] { s with pending := rest } t)
      ∧ (r ≠ .inPtr → r ≠ .type → r ≠ .ftIndex → KeepsAllBut [r] { s with pending := rest } t)

/-- 10_state.md R33 and R35: writes of IN_LEN and OUT_PTR are clamped to the buffer's size, with no error. -/
def Obligations.InLenAndOutPtrWritesAreClamped : Prop :=
  ∀ (s : State) (v : Word) (rest : List HostEvent),
    (s.pending = .access ⟨.reg, 0x010, 32, .write (.lit v)⟩ :: rest →
      ∃ t, step s = .next t ∧ t.inLen.toNat = min v.toNat s.params.inCap.toNat ∧ t.status = s.status
        ∧ KeepsAllBut [.inLen, .status] { s with pending := rest } t) ∧
    (s.pending = .access ⟨.reg, 0x018, 32, .write (.lit v)⟩ :: rest →
      ∃ t, step s = .next t ∧ t.outPtr.toNat = min v.toNat s.params.outCap.toNat ∧ t.status = s.status
        ∧ KeepsAllBut [.outPtr] { s with pending := rest } t)

/-- 20_memory.md R62: a byte write below the buffer's size stores the byte there and nowhere else, and a byte read returns
the byte last stored and changes no byte. -/
def Obligations.BufferBytesReadBack : Prop :=
  (∀ (s : State) (k : Nat) (b : Byte) (rest : List HostEvent), k < s.params.inCap.toNat →
    s.pending = byteAccess .inBuf k (.write (.lit (b.setWidth 32))) :: rest →
    ∃ t, step s = .next t ∧ inByte t.inBuf k = b ∧ (∀ a, a ≠ k → inByte t.inBuf a = inByte s.inBuf a) ∧ OutKept s t
      ∧ RegsKeptBut [] s t ∧ TableKept s t) ∧
  (∀ (s : State) (k : Nat) (b : Byte) (rest : List HostEvent), k < s.params.outCap.toNat →
    s.pending = byteAccess .outBuf k (.write (.lit (b.setWidth 32))) :: rest →
    ∃ t, step s = .next t ∧ outByte t.outBuf k = b ∧ (∀ a, a ≠ k → outByte t.outBuf a = outByte s.outBuf a) ∧ InKept s t
      ∧ RegsKeptBut [] s t ∧ TableKept s t) ∧
  (∀ (s : State) (k : Nat) (rest : List HostEvent), k < s.params.inCap.toNat →
    s.pending = byteAccess .inBuf k .read :: rest →
    step s = .next { s with pending := rest, hostReads := (inByte s.inBuf k).setWidth 32 :: s.hostReads }) ∧
  (∀ (s : State) (k : Nat) (rest : List HostEvent), k < s.params.outCap.toNat →
    s.pending = byteAccess .outBuf k .read :: rest →
    step s = .next { s with pending := rest, hostReads := (outByte s.outBuf k).setWidth 32 :: s.hostReads })

/-- 10_state.md R47: the frame table window shows the selected entry below FRAME_COUNT, and 0 from there on; a host read
of a window register returns what it shows and changes nothing but the host's own log, and a host write of it changes
nothing at all. -/
def Obligations.FrameTableWindowShowsTheSelectedEntry : Prop :=
  (∀ s : State, s.ftIndex.toNat < s.frameCount.toNat →
    readReg s .ftType = (ftEntry s s.ftIndex.toNat).type ∧ readReg s .ftLen = (ftEntry s s.ftIndex.toNat).len
      ∧ readReg s .ftDataOff = (ftEntry s s.ftIndex.toNat).dataOff
      ∧ readReg s .ftCrc = (ftEntry s s.ftIndex.toNat).crc) ∧
  (∀ s : State, s.frameCount.toNat ≤ s.ftIndex.toNat →
    readReg s .ftType = 0 ∧ readReg s .ftLen = 0 ∧ readReg s .ftDataOff = 0 ∧ readReg s .ftCrc = 0) ∧
  (∀ (s : State) (r : Reg) (off : Nat) (rest : List HostEvent),
    (r, off) ∈ [(Reg.ftType, 0x044), (.ftLen, 0x048), (.ftDataOff, 0x04C), (.ftCrc, 0x050)] →
    (s.pending = .access ⟨.reg, off, 32, .read⟩ :: rest →
      step s = .next { s with pending := rest, hostReads := readReg s r :: s.hostReads }) ∧
    (∀ v, s.pending = .access ⟨.reg, off, 32, .write v⟩ :: rest → step s = .next { s with pending := rest }))

/-- 10_state.md R49 and R51: ID and the three capacities read as the constants they are, and no step changes what they
read, a host write to them included. -/
def Obligations.IdentityAndCapacitiesAreConstant : Prop :=
  (∀ s : State, readReg s .id = 0x504E4701 ∧ readReg s .capIn = s.params.inCap ∧ readReg s .capOut = s.params.outCap
    ∧ readReg s .capFrames = s.params.maxFrames) ∧
  (∀ s t : State, step s = .next t → t.params = s.params) ∧
  (∀ (s : State) (off : Nat) (v : HostValue) (rest : List HostEvent), off ∈ [0x05C, 0x060, 0x064, 0x068] →
    s.pending = .access ⟨.reg, off, 32, .write v⟩ :: rest → step s = .next { s with pending := rest })

/-- 30_encoding.md R98: `out2in n` copies OUT_BUF[0..n) to IN_BUF[0..n), then sets IN_LEN to n and IN_PTR to 0, and
changes nothing else of the engine. (That the host writes back the byte it read, which it keeps in its log, is
`HostValue.lastRead`, log entry 6.) -/
def Obligations.OutToInCopiesTheBytes : Prop :=
  ∀ (s : State) (n : Nat), n ≤ s.params.inCap.toNat → n ≤ s.params.outCap.toNat →
    ∃ t, runProgram (HostStmt.out2in n).expand s = .next t
      ∧ (∀ k < n, inByte t.inBuf k = outByte s.outBuf k) ∧ (∀ k, n ≤ k → inByte t.inBuf k = inByte s.inBuf k)
      ∧ OutKept s t ∧ t.inLen.toNat = n ∧ t.inPtr = 0 ∧ t.status = s.status
      ∧ RegsKeptBut [.inLen, .inPtr, .status] s t ∧ TableKept s t
      ∧ t.params = s.params ∧ t.draws = s.draws ∧ t.pending = []

/-! ## Reset (70_reset_and_hazards.md) -/

/-- 70_reset_and_hazards.md R260: what every register reads after power-on and after a later reset, whatever the
parameters and the state before. -/
def Obligations.ResetLoadsTheResetValues : Prop :=
  let loaded : Params → State → Prop := fun p s =>
    (∀ r, r ∈ [Reg.cmd, .argOff, .argLen, .inLen, .inPtr, .outPtr, .type, .crcResult, .len, .dataOff, .storedCrc,
        .computedCrc, .frameCount, .ftIndex, .ftType, .ftLen, .ftDataOff, .ftCrc, .errOff, .errFrame] → readReg s r = 0)
      ∧ readReg s .crcAcc = 0xFFFFFFFF ∧ readReg s .status = 0x00000004 ∧ readReg s .typeFlags = 0x0000000E
      ∧ readReg s .id = 0x504E4701 ∧ readReg s .capIn = p.inCap ∧ readReg s .capOut = p.outCap
      ∧ readReg s .capFrames = p.maxFrames
  (∀ p : Params, loaded p (State.resetWith p)) ∧
  (∀ (s : State) (rest : List HostEvent), s.pending = .reset :: rest →
    ∃ t, step s = .next t ∧ loaded s.params t ∧ t.pending = rest)

/-- 70_reset_and_hazards.md R261: a reset changes no buffer byte and sets no frame table entry, and none can be observed
after it; after power-on every byte of both buffers is the free value of its offset (log entry 1). -/
def Obligations.ResetKeepsBuffersAndTable : Prop :=
  (∀ (s : State) (rest : List HostEvent), s.pending = .reset :: rest →
    ∃ t, step s = .next t ∧ InKept s t ∧ OutKept s t ∧ TableKept s t
      ∧ ∀ r ∈ [Reg.ftType, .ftLen, .ftDataOff, .ftCrc], readReg t r = 0) ∧
  (∀ (p : Params) (a : Nat), inByte (State.resetWith p).inBuf a = Config.powerOnIn a
    ∧ outByte (State.resetWith p).outBuf a = Config.powerOnOut a)

/-- 70_reset_and_hazards.md R262: a reset during a command gives every register its reset value; only OUT_BUF bytes in the
range that command would have written may change (here: bytes between OUT_PTR and where the command, completed, would have
moved it), no byte at all when it would have written none; and the host's CMD write then ends with a bus error. So a run
with such a reset in it, even as its last event, ends in a fault and has no final state (60_exceptions.md R245,
40_control.md R116). -/
def Obligations.AbandonedCommandTouchesOnlyItsOwnOutput : Prop :=
  (∀ (s : State) (w : Word) (rest : List HostEvent), s.pending = .resetDuring w :: rest →
    ∃ t f, step s = .next t ∧ (∀ r, readReg t r = readReg (State.resetWith s.params) r) ∧ InKept s t
      ∧ (∀ a, outByte t.outBuf a ≠ outByte s.outBuf a →
          ∃ i u, decode w = .command i ∧ exec i s = .next u ∧ s.outPtr.toNat ≤ a ∧ a < u.outPtr.toNat)
      ∧ step t = .fault f) ∧
  (∀ (evs : List HostEvent) (s : State) (w : Word), .resetDuring w ∈ evs →
    (∃ f, runProgram evs s = .fault f) ∧ ∀ t, ¬ RunsWithoutError evs s t)

/-! ## The invariant -/

/-- The machine has its invariant right after power-on, whatever parameters R5 allows. -/
def Obligations.PowerOnStateHasTheInvariant : Prop := ∀ p : Params, p.ok = true → (State.resetWith p).Inv

/-- Every step keeps the invariant: IN_LEN ≤ IN_CAP, OUT_PTR ≤ OUT_CAP, FRAME_COUNT ≤ MAX_FRAMES with every observable
entry written and inside IN_BUF, a legal STATUS, and both buffers in canonical form within their sizes. -/
def Obligations.StepKeepsTheInvariant : Prop := ∀ s t : State, s.Inv → step s = .next t → t.Inv
end

