-- ==== Sys2Proof/Laws/Bytes.lean ====
section
/-! SUPPORT. Byte order: BE32 and be32bytes undo each other (00_scope.md R9). -/

namespace Sys2Proof.Machine

theorem be32_four (a b c d : Byte) :
    be32 [a, b, c, d] = (a.setWidth 32 <<< 24) ||| (b.setWidth 32 <<< 16) ||| (c.setWidth 32 <<< 8) ||| d.setWidth 32 := by
  ext i hi
  simp [be32]
  grind

/-- BE32 as R9 writes it: a sum of powers of two. -/
theorem be32_toNat (a b c d : Byte) :
    (be32 [a, b, c, d]).toNat = a.toNat * 2 ^ 24 + b.toNat * 2 ^ 16 + c.toNat * 2 ^ 8 + d.toNat := by
  have ha := a.isLt
  have hb := b.isLt
  have hc := c.isLt
  have hd := d.isLt
  have step : ∀ (x : Word) (y : Byte), x.toNat < 2 ^ 24 →
      ((x <<< 8) ||| y.setWidth 32).toNat = x.toNat * 2 ^ 8 + y.toNat := by
    intro x y hx
    have hy := y.isLt
    rw [BitVec.toNat_or, BitVec.toNat_shiftLeft, BitVec.toNat_setWidth, Nat.shiftLeft_eq,
      Nat.mod_eq_of_lt (by omega), Nat.mod_eq_of_lt (by omega), Nat.mul_comm, Nat.two_pow_add_eq_or_of_lt (by omega)]
  have h0 := step 0 a (by decide)
  have h1 := step _ b (by rw [h0]; simp; omega)
  have h2 := step _ c (by rw [h1, h0]; simp; omega)
  have h3 := step _ d (by rw [h2, h1, h0]; simp; omega)
  simp only [be32, List.foldl]
  rw [h3, h2, h1, h0]
  simp
  omega

@[simp] theorem be32bytes_length (v : Word) : (be32bytes v).length = 4 := rfl

/-- `BE32(be32bytes(v)) = v`. -/
@[simp] theorem be32_be32bytes (v : Word) : be32 (be32bytes v) = v := by
  simp only [be32bytes, be32_four]
  ext i hi
  simp
  grind

/-- `be32bytes(BE32(s)) = s` for every 4-byte s (R9). -/
theorem be32bytes_be32 {s : List Byte} (h : s.length = 4) : be32bytes (be32 s) = s := by
  match s, h with
  | [a, b, c, d], _ =>
    simp only [be32bytes, be32_four, List.cons.injEq, and_true]
    refine ⟨?_, ?_, ?_, ?_⟩ <;> (ext i hi; simp; grind)

end Sys2Proof.Machine
end

