-- ==== Sys2Proof/Laws/Memory.lean ====
section
/-! SUPPORT. The laws of the buffers: read after write, the canonical form, and what a run of bytes reads and writes. -/

namespace Sys2Proof.Machine

/-! ## One byte -/

theorem find?_write_same (m : Memory) (a : Nat) (v : Byte) : (m.write a v).find? a = some v := by
  induction m with
  | nil => simp [Memory.write, Memory.find?]
  | cons c m ih =>
    obtain ⟨b, w⟩ := c
    simp only [Memory.write]
    split
    · simp [Memory.find?]
    · split
      · simp [Memory.find?]
      · rename_i h1 h2
        simp [Memory.find?, h2, ih]

theorem find?_write_other (m : Memory) {a b : Nat} (v : Byte) (h : b ≠ a) : (m.write a v).find? b = m.find? b := by
  induction m with
  | nil => simp [Memory.write, Memory.find?, h]
  | cons c m ih =>
    obtain ⟨x, w⟩ := c
    simp only [Memory.write]
    split
    · simp [Memory.find?, h]
    · split
      · rename_i h1 h2
        subst h2
        simp [Memory.find?, h]
      · simp only [Memory.find?, ih]

theorem inByte_write_same (m : Memory) (a : Nat) (v : Byte) : inByte (m.write a v) a = v := by
  simp [inByte, find?_write_same]

theorem inByte_write_other (m : Memory) {a b : Nat} (v : Byte) (h : b ≠ a) : inByte (m.write a v) b = inByte m b := by
  simp [inByte, find?_write_other m v h]

theorem outByte_write_same (m : Memory) (a : Nat) (v : Byte) : outByte (m.write a v) a = v := by
  simp [outByte, find?_write_same]

theorem outByte_write_other (m : Memory) {a b : Nat} (v : Byte) (h : b ≠ a) :
    outByte (m.write a v) b = outByte m b := by
  simp [outByte, find?_write_other m v h]

/-! ## The canonical form -/

theorem wf_cons {c : Host.Cell} {m : Memory} (h : Memory.wf (c :: m) = true) : m.wf = true := by
  obtain ⟨a, v⟩ := c
  cases m with
  | nil => rfl
  | cons d m =>
    obtain ⟨b, w⟩ := d
    simp only [Memory.wf, Bool.and_eq_true] at h
    exact h.2

/-- A list in canonical form stays in it when a lower offset is put before it. -/
theorem wf_cons_write {a b : Nat} {v w : Byte} {m : Memory} (hab : b < a) (h : Memory.wf ((b, w) :: m) = true)
    (hw : (m.write a v).wf = true) : Memory.wf ((b, w) :: m.write a v) = true := by
  cases m with
  | nil => simp [Memory.write, Memory.wf, hab]
  | cons d m =>
    obtain ⟨x, y⟩ := d
    simp only [Memory.wf, Bool.and_eq_true, decide_eq_true_eq] at h
    by_cases h1 : a < x
    · simp [Memory.write, h1, Memory.wf, hab, h.2]
    · by_cases h2 : a = x
      · subst h2
        simp only [Memory.write, Nat.lt_irrefl, if_true, if_false] at hw ⊢
        rw [Memory.wf, hw]
        simp [hab]
      · simp only [Memory.write, h1, h2, if_false] at hw ⊢
        rw [Memory.wf, hw]
        simp [h.1]

/-- Every write keeps the canonical form. -/
theorem wf_write {m : Memory} (a : Nat) (v : Byte) (h : m.wf = true) : (m.write a v).wf = true := by
  induction m with
  | nil => rfl
  | cons c m ih =>
    obtain ⟨b, w⟩ := c
    have hm := ih (wf_cons h)
    by_cases h1 : a < b
    · simp [Memory.write, h1, Memory.wf, h]
    · by_cases h2 : a = b
      · subst h2
        cases m with
        | nil => simp [Memory.write, Memory.wf]
        | cons d m => simpa [Memory.write, Memory.wf] using h
      · simp only [Memory.write, h1, h2, if_false]
        exact wf_cons_write (by omega) h hm

/-- Every run of bytes keeps the canonical form. -/
theorem wf_memWrite {m : Memory} (a : Nat) (bs : List Byte) (h : m.wf = true) : (memWrite m a bs).wf = true := by
  induction bs generalizing m a with
  | nil => exact h
  | cons b bs ih => exact ih (a + 1) (wf_write a b h)

/-- The offsets of a written memory are the old ones and the new one. -/
theorem mem_write {m : Memory} {a : Nat} {v : Byte} {c : Host.Cell} (h : c ∈ m.write a v) : c.1 = a ∨ c ∈ m := by
  induction m with
  | nil => simp [Memory.write] at h; simp [h]
  | cons d m ih =>
    obtain ⟨b, w⟩ := d
    simp only [Memory.write] at h
    split at h
    · rcases List.mem_cons.1 h with rfl | h
      · simp
      · exact .inr h
    · split at h
      · rcases List.mem_cons.1 h with rfl | h
        · simp
        · exact .inr (List.mem_cons_of_mem _ h)
      · rcases List.mem_cons.1 h with rfl | h
        · simp
        · rcases ih h with h | h
          · exact .inl h
          · exact .inr (List.mem_cons_of_mem _ h)

/-- The offsets of a memory after a run of bytes are the old ones and those of the run. -/
theorem mem_memWrite {m : Memory} {a : Nat} {bs : List Byte} {c : Host.Cell} (h : c ∈ memWrite m a bs) :
    (a ≤ c.1 ∧ c.1 < a + bs.length) ∨ c ∈ m := by
  induction bs generalizing m a with
  | nil => exact .inr h
  | cons b bs ih =>
    rcases ih h with h | h
    · left
      simp only [List.length_cons]
      omega
    · rcases mem_write h with h | h
      · left
        simp only [List.length_cons]
        omega
      · exact .inr h

/-- A memory whose offsets lie below a bound keeps that when the run lies below it. -/
theorem memWrite_below {m : Memory} {a cap : Nat} {bs : List Byte} (h : ∀ c ∈ m, c.1 < cap) (hb : a + bs.length ≤ cap) :
    ∀ c ∈ memWrite m a bs, c.1 < cap := by
  intro c hc
  rcases mem_memWrite hc with ⟨_, h2⟩ | hc
  · omega
  · exact h c hc

/-! ## Runs of bytes -/

@[simp] theorem memRead_length (m : Memory) (a n : Nat) : (memRead m a n).length = n := by
  induction n generalizing a with
  | zero => rfl
  | succ n ih => simp [memRead, ih]

@[simp] theorem memRead_getElem (m : Memory) (a n k : Nat) (h : k < (memRead m a n).length) :
    (memRead m a n)[k] = inByte m (a + k) := by
  induction n generalizing a k with
  | zero => simp at h
  | succ n ih =>
    cases k with
    | zero => simp [memRead]
    | succ k =>
      simp only [memRead, List.getElem_cons_succ]
      rw [ih]
      congr 1
      omega

theorem memRead_append (m : Memory) (a n k : Nat) : memRead m a (n + k) = memRead m a n ++ memRead m (a + n) k := by
  induction n generalizing a with
  | zero => simp [memRead]
  | succ n ih =>
    have h : n + 1 + k = (n + k) + 1 := by omega
    have h2 : a + 1 + n = a + (n + 1) := by omega
    simp only [h, memRead, ih, h2, List.cons_append]

/-- A run of bytes is the same in two memories that agree on it. -/
theorem memRead_congr {m m' : Memory} {a n : Nat} (h : ∀ k, a ≤ k → k < a + n → inByte m' k = inByte m k) :
    memRead m' a n = memRead m a n := by
  induction n generalizing a with
  | zero => rfl
  | succ n ih =>
    have h0 := h a (by omega) (by omega)
    have h1 := ih (a := a + 1) (fun k h1 h2 => h k (by omega) (by omega))
    simp only [memRead, h0, h1]

/-- A run of bytes equals a list when it does so byte by byte. -/
theorem memRead_eq {m : Memory} {a n : Nat} {bs : List Byte} (hl : bs.length = n)
    (h : ∀ k (hk : k < bs.length), inByte m (a + k) = bs[k]) : memRead m a n = bs := by
  apply List.ext_getElem
  · simp [hl]
  · intro k h1 h2
    simp [h k h2]

/-- A run of bytes written reads back as before outside the run. -/
theorem outByte_memWrite_outside (m : Memory) (a : Nat) (bs : List Byte) (k : Nat)
    (h : ¬ (a ≤ k ∧ k < a + bs.length)) : outByte (memWrite m a bs) k = outByte m k := by
  induction bs generalizing m a with
  | nil => rfl
  | cons b bs ih =>
    simp only [List.length_cons] at h
    simp only [memWrite]
    rw [ih _ _ (by omega), outByte_write_other _ _ (by omega)]

/-- A run of bytes written reads back. -/
theorem outByte_memWrite_inside (m : Memory) (a : Nat) (bs : List Byte) (k : Nat) (h : k < bs.length) :
    outByte (memWrite m a bs) (a + k) = bs[k] := by
  induction bs generalizing m a k with
  | nil => simp at h
  | cons b bs ih =>
    simp only [memWrite]
    cases k with
    | zero =>
      rw [outByte_memWrite_outside _ _ _ _ (by omega), Nat.add_zero, outByte_write_same]
      rfl
    | succ k =>
      have hk : a + (k + 1) = a + 1 + k := by omega
      rw [hk, ih _ _ _ (by simpa using h)]
      rfl

end Sys2Proof.Machine
end

