-- ==== Sys2Proof/Laws/Operands.lean ====
section
/-! SUPPORT. The operand checks as inequalities of numbers (20_memory.md R66 to R68), the clamp, and the register map. -/

namespace Sys2Proof.Machine

@[simp] theorem windowOk_iff (s : State) (n : Nat) : windowOk s n = true ↔ s.argOff.toNat + n ≤ s.inLen.toNat := by
  simp [windowOk]

@[simp] theorem parseOk_iff (s : State) : parseOk s = true ↔ s.inPtr.toNat ≤ s.inLen.toNat := by
  simp [parseOk]

@[simp] theorem roomOk_iff (s : State) (m : Nat) : roomOk s m = true ↔ s.outPtr.toNat + m ≤ s.params.outCap.toNat := by
  simp [roomOk]

@[simp] theorem sigAtPtr_iff (s : State) :
    sigAtPtr s = true ↔ s.inPtr.toNat + 8 ≤ s.inLen.toNat ∧ memRead s.inBuf s.inPtr.toNat 8 = sig := by
  simp only [sigAtPtr, Bool.and_eq_true, decide_eq_true_eq, beq_iff_eq]
  constructor <;> rintro ⟨h1, h2⟩ <;> exact ⟨by omega, h2⟩

@[simp] theorem window_length (s : State) (n : Nat) : (window s n).length = n := memRead_length _ _ _

/-- A number below 2^32 keeps its value in a register. -/
theorem word_toNat {n : Nat} (h : n < 2 ^ 32) : (BitVec.ofNat 32 n).toNat = n := by
  rw [BitVec.toNat_ofNat]
  exact Nat.mod_eq_of_lt h

/-- `min(v, cap)` of 10_state.md R33 and R35. -/
@[simp] theorem clamp_toNat (v cap : Word) : (clamp v cap).toNat = min v.toNat cap.toNat := by
  unfold clamp
  split <;> omega

/-- The register map and the register names agree (10_state.md R22). -/
@[simp] theorem regAt_offset (r : Reg) : regAt r.offset = some r := by
  cases r <;> rfl

theorem offset_admitted (r : Reg) : r.offset % 4 = 0 ∧ r.offset < 4096 := by
  cases r <;> decide

/-- An access to a register by its name is admitted (20_memory.md R61). -/
@[simp] theorem accessFault_reg (p : Params) (r : Reg) (op : HostOp) : accessFault p ⟨.reg, r.offset, 32, op⟩ = none := by
  have h := offset_admitted r
  simp [accessFault, h.1, Nat.not_le.2 h.2]

/-- Two places of disjointly placed spaces have different addresses in the host's map (20_memory.md R60, R76). -/
theorem hostAddress_injective {p : Params} {a b : Space} {i j : Nat} (hi : i < spaceSize p a) (hj : j < spaceSize p b)
    (hd : a ≠ b → spaceBase p a + spaceSize p a ≤ spaceBase p b ∨ spaceBase p b + spaceSize p b ≤ spaceBase p a)
    (h : hostAddress p a i = hostAddress p b j) : a = b ∧ i = j := by
  unfold hostAddress at h
  by_cases hab : a = b
  · subst hab
    exact ⟨rfl, by omega⟩
  · rcases hd hab with h1 | h1 <;> omega

end Sys2Proof.Machine
end

