-- ==== Sys2Proof/Laws/State.lean ====
section
/-! SUPPORT. What each shared state update leaves in each field: one lemma per field and update, so that no later proof
unfolds a record update. -/

namespace Sys2Proof.Machine

/-! ## `complete` -/

@[simp] theorem complete_params (s : State) : (complete s).params = s.params := rfl
@[simp] theorem complete_cmd (s : State) : (complete s).cmd = s.cmd := rfl
@[simp] theorem complete_status (s : State) : (complete s).status = { s.status with err := false, errCode := 0, errSub := 0 } := rfl
@[simp] theorem complete_argOff (s : State) : (complete s).argOff = s.argOff := rfl
@[simp] theorem complete_argLen (s : State) : (complete s).argLen = s.argLen := rfl
@[simp] theorem complete_inLen (s : State) : (complete s).inLen = s.inLen := rfl
@[simp] theorem complete_inPtr (s : State) : (complete s).inPtr = s.inPtr := rfl
@[simp] theorem complete_outPtr (s : State) : (complete s).outPtr = s.outPtr := rfl
@[simp] theorem complete_typeReg (s : State) : (complete s).typeReg = s.typeReg := rfl
@[simp] theorem complete_crcAcc (s : State) : (complete s).crcAcc = s.crcAcc := rfl
@[simp] theorem complete_crcResult (s : State) : (complete s).crcResult = s.crcResult := rfl
@[simp] theorem complete_len (s : State) : (complete s).len = s.len := rfl
@[simp] theorem complete_dataOff (s : State) : (complete s).dataOff = s.dataOff := rfl
@[simp] theorem complete_storedCrc (s : State) : (complete s).storedCrc = s.storedCrc := rfl
@[simp] theorem complete_computedCrc (s : State) : (complete s).computedCrc = s.computedCrc := rfl
@[simp] theorem complete_frameCount (s : State) : (complete s).frameCount = s.frameCount := rfl
@[simp] theorem complete_ftIndex (s : State) : (complete s).ftIndex = s.ftIndex := rfl
@[simp] theorem complete_errOff (s : State) : (complete s).errOff = s.errOff := rfl
@[simp] theorem complete_errFrame (s : State) : (complete s).errFrame = s.errFrame := rfl
@[simp] theorem complete_ft (s : State) : (complete s).ft = s.ft := rfl
@[simp] theorem complete_inBuf (s : State) : (complete s).inBuf = s.inBuf := rfl
@[simp] theorem complete_outBuf (s : State) : (complete s).outBuf = s.outBuf := rfl
@[simp] theorem complete_draws (s : State) : (complete s).draws = s.draws := rfl
@[simp] theorem complete_pending (s : State) : (complete s).pending = s.pending := rfl
@[simp] theorem complete_hostReads (s : State) : (complete s).hostReads = s.hostReads := rfl

/-! ## `raise` -/

@[simp] theorem raise_params (e sub : ErrorKind) (s : State) : (raise e sub s).params = s.params := rfl
@[simp] theorem raise_cmd (e sub : ErrorKind) (s : State) : (raise e sub s).cmd = s.cmd := rfl
@[simp] theorem raise_status (e sub : ErrorKind) (s : State) : (raise e sub s).status = { s.status with err := true, anyErr := true, errCode := e.code, errSub := sub.code } := rfl
@[simp] theorem raise_argOff (e sub : ErrorKind) (s : State) : (raise e sub s).argOff = s.argOff := rfl
@[simp] theorem raise_argLen (e sub : ErrorKind) (s : State) : (raise e sub s).argLen = s.argLen := rfl
@[simp] theorem raise_inLen (e sub : ErrorKind) (s : State) : (raise e sub s).inLen = s.inLen := rfl
@[simp] theorem raise_inPtr (e sub : ErrorKind) (s : State) : (raise e sub s).inPtr = s.inPtr := rfl
@[simp] theorem raise_outPtr (e sub : ErrorKind) (s : State) : (raise e sub s).outPtr = s.outPtr := rfl
@[simp] theorem raise_typeReg (e sub : ErrorKind) (s : State) : (raise e sub s).typeReg = s.typeReg := rfl
@[simp] theorem raise_crcAcc (e sub : ErrorKind) (s : State) : (raise e sub s).crcAcc = s.crcAcc := rfl
@[simp] theorem raise_crcResult (e sub : ErrorKind) (s : State) : (raise e sub s).crcResult = s.crcResult := rfl
@[simp] theorem raise_len (e sub : ErrorKind) (s : State) : (raise e sub s).len = s.len := rfl
@[simp] theorem raise_dataOff (e sub : ErrorKind) (s : State) : (raise e sub s).dataOff = s.dataOff := rfl
@[simp] theorem raise_storedCrc (e sub : ErrorKind) (s : State) : (raise e sub s).storedCrc = s.storedCrc := rfl
@[simp] theorem raise_computedCrc (e sub : ErrorKind) (s : State) : (raise e sub s).computedCrc = s.computedCrc := rfl
@[simp] theorem raise_frameCount (e sub : ErrorKind) (s : State) : (raise e sub s).frameCount = s.frameCount := rfl
@[simp] theorem raise_ftIndex (e sub : ErrorKind) (s : State) : (raise e sub s).ftIndex = s.ftIndex := rfl
@[simp] theorem raise_errOff (e sub : ErrorKind) (s : State) : (raise e sub s).errOff = s.errOff := rfl
@[simp] theorem raise_errFrame (e sub : ErrorKind) (s : State) : (raise e sub s).errFrame = s.errFrame := rfl
@[simp] theorem raise_ft (e sub : ErrorKind) (s : State) : (raise e sub s).ft = s.ft := rfl
@[simp] theorem raise_inBuf (e sub : ErrorKind) (s : State) : (raise e sub s).inBuf = s.inBuf := rfl
@[simp] theorem raise_outBuf (e sub : ErrorKind) (s : State) : (raise e sub s).outBuf = s.outBuf := rfl
@[simp] theorem raise_draws (e sub : ErrorKind) (s : State) : (raise e sub s).draws = s.draws := rfl
@[simp] theorem raise_pending (e sub : ErrorKind) (s : State) : (raise e sub s).pending = s.pending := rfl
@[simp] theorem raise_hostReads (e sub : ErrorKind) (s : State) : (raise e sub s).hostReads = s.hostReads := rfl

/-! ## `emit` -/

@[simp] theorem emit_params (bs : List Byte) (s : State) : (emit bs s).params = s.params := rfl
@[simp] theorem emit_cmd (bs : List Byte) (s : State) : (emit bs s).cmd = s.cmd := rfl
@[simp] theorem emit_status (bs : List Byte) (s : State) : (emit bs s).status = s.status := rfl
@[simp] theorem emit_argOff (bs : List Byte) (s : State) : (emit bs s).argOff = s.argOff := rfl
@[simp] theorem emit_argLen (bs : List Byte) (s : State) : (emit bs s).argLen = s.argLen := rfl
@[simp] theorem emit_inLen (bs : List Byte) (s : State) : (emit bs s).inLen = s.inLen := rfl
@[simp] theorem emit_inPtr (bs : List Byte) (s : State) : (emit bs s).inPtr = s.inPtr := rfl
@[simp] theorem emit_outPtr (bs : List Byte) (s : State) : (emit bs s).outPtr = BitVec.ofNat 32 (s.outPtr.toNat + bs.length) := rfl
@[simp] theorem emit_typeReg (bs : List Byte) (s : State) : (emit bs s).typeReg = s.typeReg := rfl
@[simp] theorem emit_crcAcc (bs : List Byte) (s : State) : (emit bs s).crcAcc = s.crcAcc := rfl
@[simp] theorem emit_crcResult (bs : List Byte) (s : State) : (emit bs s).crcResult = s.crcResult := rfl
@[simp] theorem emit_len (bs : List Byte) (s : State) : (emit bs s).len = s.len := rfl
@[simp] theorem emit_dataOff (bs : List Byte) (s : State) : (emit bs s).dataOff = s.dataOff := rfl
@[simp] theorem emit_storedCrc (bs : List Byte) (s : State) : (emit bs s).storedCrc = s.storedCrc := rfl
@[simp] theorem emit_computedCrc (bs : List Byte) (s : State) : (emit bs s).computedCrc = s.computedCrc := rfl
@[simp] theorem emit_frameCount (bs : List Byte) (s : State) : (emit bs s).frameCount = s.frameCount := rfl
@[simp] theorem emit_ftIndex (bs : List Byte) (s : State) : (emit bs s).ftIndex = s.ftIndex := rfl
@[simp] theorem emit_errOff (bs : List Byte) (s : State) : (emit bs s).errOff = s.errOff := rfl
@[simp] theorem emit_errFrame (bs : List Byte) (s : State) : (emit bs s).errFrame = s.errFrame := rfl
@[simp] theorem emit_ft (bs : List Byte) (s : State) : (emit bs s).ft = s.ft := rfl
@[simp] theorem emit_inBuf (bs : List Byte) (s : State) : (emit bs s).inBuf = s.inBuf := rfl
@[simp] theorem emit_outBuf (bs : List Byte) (s : State) : (emit bs s).outBuf = memWrite s.outBuf s.outPtr.toNat bs := rfl
@[simp] theorem emit_draws (bs : List Byte) (s : State) : (emit bs s).draws = s.draws := rfl
@[simp] theorem emit_pending (bs : List Byte) (s : State) : (emit bs s).pending = s.pending := rfl
@[simp] theorem emit_hostReads (bs : List Byte) (s : State) : (emit bs s).hostReads = s.hostReads := rfl

/-! ## `loadFrame` -/

@[simp] theorem loadFrame_params (e : FrameEntry) (next : Nat) (s : State) : (loadFrame e next s).params = s.params := rfl
@[simp] theorem loadFrame_cmd (e : FrameEntry) (next : Nat) (s : State) : (loadFrame e next s).cmd = s.cmd := rfl
@[simp] theorem loadFrame_status (e : FrameEntry) (next : Nat) (s : State) : (loadFrame e next s).status = s.status := rfl
@[simp] theorem loadFrame_argOff (e : FrameEntry) (next : Nat) (s : State) : (loadFrame e next s).argOff = s.argOff := rfl
@[simp] theorem loadFrame_argLen (e : FrameEntry) (next : Nat) (s : State) : (loadFrame e next s).argLen = s.argLen := rfl
@[simp] theorem loadFrame_inLen (e : FrameEntry) (next : Nat) (s : State) : (loadFrame e next s).inLen = s.inLen := rfl
@[simp] theorem loadFrame_inPtr (e : FrameEntry) (next : Nat) (s : State) : (loadFrame e next s).inPtr = BitVec.ofNat 32 next := rfl
@[simp] theorem loadFrame_outPtr (e : FrameEntry) (next : Nat) (s : State) : (loadFrame e next s).outPtr = s.outPtr := rfl
@[simp] theorem loadFrame_typeReg (e : FrameEntry) (next : Nat) (s : State) : (loadFrame e next s).typeReg = e.type := rfl
@[simp] theorem loadFrame_crcAcc (e : FrameEntry) (next : Nat) (s : State) : (loadFrame e next s).crcAcc = s.crcAcc := rfl
@[simp] theorem loadFrame_crcResult (e : FrameEntry) (next : Nat) (s : State) : (loadFrame e next s).crcResult = s.crcResult := rfl
@[simp] theorem loadFrame_len (e : FrameEntry) (next : Nat) (s : State) : (loadFrame e next s).len = e.len := rfl
@[simp] theorem loadFrame_dataOff (e : FrameEntry) (next : Nat) (s : State) : (loadFrame e next s).dataOff = e.dataOff := rfl
@[simp] theorem loadFrame_storedCrc (e : FrameEntry) (next : Nat) (s : State) : (loadFrame e next s).storedCrc = e.crc := rfl
@[simp] theorem loadFrame_computedCrc (e : FrameEntry) (next : Nat) (s : State) : (loadFrame e next s).computedCrc = e.crc := rfl
@[simp] theorem loadFrame_frameCount (e : FrameEntry) (next : Nat) (s : State) : (loadFrame e next s).frameCount = s.frameCount := rfl
@[simp] theorem loadFrame_ftIndex (e : FrameEntry) (next : Nat) (s : State) : (loadFrame e next s).ftIndex = s.ftIndex := rfl
@[simp] theorem loadFrame_errOff (e : FrameEntry) (next : Nat) (s : State) : (loadFrame e next s).errOff = s.errOff := rfl
@[simp] theorem loadFrame_errFrame (e : FrameEntry) (next : Nat) (s : State) : (loadFrame e next s).errFrame = s.errFrame := rfl
@[simp] theorem loadFrame_ft (e : FrameEntry) (next : Nat) (s : State) : (loadFrame e next s).ft = s.ft := rfl
@[simp] theorem loadFrame_inBuf (e : FrameEntry) (next : Nat) (s : State) : (loadFrame e next s).inBuf = s.inBuf := rfl
@[simp] theorem loadFrame_outBuf (e : FrameEntry) (next : Nat) (s : State) : (loadFrame e next s).outBuf = s.outBuf := rfl
@[simp] theorem loadFrame_draws (e : FrameEntry) (next : Nat) (s : State) : (loadFrame e next s).draws = s.draws := rfl
@[simp] theorem loadFrame_pending (e : FrameEntry) (next : Nat) (s : State) : (loadFrame e next s).pending = s.pending := rfl
@[simp] theorem loadFrame_hostReads (e : FrameEntry) (next : Nat) (s : State) : (loadFrame e next s).hostReads = s.hostReads := rfl

/-! ## `stopStream` -/

@[simp] theorem stopStream_params (q k : Nat) (s : State) : (stopStream q k s).params = s.params := rfl
@[simp] theorem stopStream_cmd (q k : Nat) (s : State) : (stopStream q k s).cmd = s.cmd := rfl
@[simp] theorem stopStream_status (q k : Nat) (s : State) : (stopStream q k s).status = s.status := rfl
@[simp] theorem stopStream_argOff (q k : Nat) (s : State) : (stopStream q k s).argOff = s.argOff := rfl
@[simp] theorem stopStream_argLen (q k : Nat) (s : State) : (stopStream q k s).argLen = s.argLen := rfl
@[simp] theorem stopStream_inLen (q k : Nat) (s : State) : (stopStream q k s).inLen = s.inLen := rfl
@[simp] theorem stopStream_inPtr (q k : Nat) (s : State) : (stopStream q k s).inPtr = s.inPtr := rfl
@[simp] theorem stopStream_outPtr (q k : Nat) (s : State) : (stopStream q k s).outPtr = s.outPtr := rfl
@[simp] theorem stopStream_typeReg (q k : Nat) (s : State) : (stopStream q k s).typeReg = s.typeReg := rfl
@[simp] theorem stopStream_crcAcc (q k : Nat) (s : State) : (stopStream q k s).crcAcc = s.crcAcc := rfl
@[simp] theorem stopStream_crcResult (q k : Nat) (s : State) : (stopStream q k s).crcResult = s.crcResult := rfl
@[simp] theorem stopStream_len (q k : Nat) (s : State) : (stopStream q k s).len = s.len := rfl
@[simp] theorem stopStream_dataOff (q k : Nat) (s : State) : (stopStream q k s).dataOff = s.dataOff := rfl
@[simp] theorem stopStream_storedCrc (q k : Nat) (s : State) : (stopStream q k s).storedCrc = s.storedCrc := rfl
@[simp] theorem stopStream_computedCrc (q k : Nat) (s : State) : (stopStream q k s).computedCrc = s.computedCrc := rfl
@[simp] theorem stopStream_frameCount (q k : Nat) (s : State) : (stopStream q k s).frameCount = 0 := rfl
@[simp] theorem stopStream_ftIndex (q k : Nat) (s : State) : (stopStream q k s).ftIndex = s.ftIndex := rfl
@[simp] theorem stopStream_errOff (q k : Nat) (s : State) : (stopStream q k s).errOff = BitVec.ofNat 32 q := rfl
@[simp] theorem stopStream_errFrame (q k : Nat) (s : State) : (stopStream q k s).errFrame = BitVec.ofNat 32 k := rfl
@[simp] theorem stopStream_ft (q k : Nat) (s : State) : (stopStream q k s).ft = s.ft := rfl
@[simp] theorem stopStream_inBuf (q k : Nat) (s : State) : (stopStream q k s).inBuf = s.inBuf := rfl
@[simp] theorem stopStream_outBuf (q k : Nat) (s : State) : (stopStream q k s).outBuf = s.outBuf := rfl
@[simp] theorem stopStream_draws (q k : Nat) (s : State) : (stopStream q k s).draws = s.draws := rfl
@[simp] theorem stopStream_pending (q k : Nat) (s : State) : (stopStream q k s).pending = s.pending := rfl
@[simp] theorem stopStream_hostReads (q k : Nat) (s : State) : (stopStream q k s).hostReads = s.hostReads := rfl

end Sys2Proof.Machine
end

