-- ==== Sys2Proof/Laws/Exec.lean ====
section
/-! SUPPORT. What holds of every command: it ends in a next state, and which fields no command reads or writes. -/

namespace Sys2Proof.Machine

/-- The fields of the state no command reads and none writes: the host's side of a run, CMD, FT_INDEX and the parameters
of placement and latency. -/
def reframe (cmd ftIndex : Word) (draws : Nat) (pending : List HostEvent) (hostReads : List Word)
    (regBase inBase outBase latency : Nat) (s : State) : State :=
  { s with cmd := cmd, ftIndex := ftIndex, draws := draws, pending := pending, hostReads := hostReads
           params := { s.params with regBase := regBase, inBase := inBase, outBase := outBase, latency := latency } }

/-- No command reads or writes those fields: changed before, they stay changed after, and all else is the same. -/
theorem exec_reframe (i : Instr) (s : State) (c x : Word) (d : Nat) (p : List HostEvent) (h : List Word)
    (rb ib ob l : Nat) :
    exec i (reframe c x d p h rb ib ob l s) = mapNext (reframe c x d p h rb ib ob l) (exec i s) := by
  have hw : ∀ n, windowOk (reframe c x d p h rb ib ob l s) n = windowOk s n := fun _ => rfl
  have hr : ∀ n, roomOk (reframe c x d p h rb ib ob l s) n = roomOk s n := fun _ => rfl
  have hp : parseOk (reframe c x d p h rb ib ob l s) = parseOk s := rfl
  have hs : sigAtPtr (reframe c x d p h rb ib ob l s) = sigAtPtr s := rfl
  have hf : streamFrames (reframe c x d p h rb ib ob l s) = streamFrames s := rfl
  cases i with
  | nop => rfl
  | crcInit => rfl
  | crcFeed => simp only [exec, execCrcFeed]; rw [show (reframe c x d p h rb ib ob l s).argLen = s.argLen from rfl, hw]; split <;> rfl
  | crcFinal => rfl
  | crcCompute => simp only [exec, execCrcCompute]; rw [show (reframe c x d p h rb ib ob l s).argLen = s.argLen from rfl, hw]; split <;> rfl
  | typeFromBytes => simp only [exec, execTypeFromBytes]; rw [hw]; split <;> rfl
  | typeFromString =>
    simp only [exec, execTypeFromString]
    rw [show (reframe c x d p h rb ib ob l s).argLen = s.argLen from rfl,
      show window (reframe c x d p h rb ib ob l s) 4 = window s 4 from rfl, hw]
    split
    · split
      · split <;> rfl
      · rfl
    · rfl
  | typeCmp => simp only [exec, execTypeCmp]; rw [hw]; split <;> rfl
  | frameSerialize =>
    simp only [exec, execFrameSerialize]
    rw [show (reframe c x d p h rb ib ob l s).argLen = s.argLen from rfl, hw, hr]
    split
    · split <;> rfl
    · rfl
  | frameParse =>
    simp only [exec, execFrameParse]
    rw [hp, show frameAt (reframe c x d p h rb ib ob l s).inBuf (reframe c x d p h rb ib ob l s).inLen.toNat
      (reframe c x d p h rb ib ob l s).inPtr.toNat = frameAt s.inBuf s.inLen.toNat s.inPtr.toNat from rfl]
    split
    · split <;> rfl
    · rfl
  | frameParseEmit =>
    simp only [exec, execFrameParseEmit]
    rw [hp, show frameAt (reframe c x d p h rb ib ob l s).inBuf (reframe c x d p h rb ib ob l s).inLen.toNat
      (reframe c x d p h rb ib ob l s).inPtr.toNat = frameAt s.inBuf s.inLen.toNat s.inPtr.toNat from rfl]
    split
    · split
      · rfl
      · rfl
      · rw [hr]
        split <;> rfl
    · rfl
  | sigEmit => simp only [exec, execSigEmit]; rw [hr]; split <;> rfl
  | sigCheck =>
    simp only [exec, execSigCheck]
    rw [hp, hs]
    split
    · split <;> rfl
    · rfl
  | streamParse =>
    simp only [exec, execStreamParse]
    rw [hp, hs, hf]
    split
    · split
      · split <;> rfl
      · rfl
    · rfl

/-- Every command ends, in a next state (40_control.md R112, R114): no command faults and none refuses. -/
theorem exec_next (i : Instr) (s : State) : ∃ t, exec i s = .next t := by
  cases i with
  | nop => exact ⟨_, rfl⟩
  | crcInit => exact ⟨_, rfl⟩
  | crcFeed => simp only [exec, execCrcFeed]; split <;> exact ⟨_, rfl⟩
  | crcFinal => exact ⟨_, rfl⟩
  | crcCompute => simp only [exec, execCrcCompute]; split <;> exact ⟨_, rfl⟩
  | typeFromBytes => simp only [exec, execTypeFromBytes]; split <;> exact ⟨_, rfl⟩
  | typeFromString =>
    simp only [exec, execTypeFromString]
    split
    · split
      · split <;> exact ⟨_, rfl⟩
      · exact ⟨_, rfl⟩
    · exact ⟨_, rfl⟩
  | typeCmp => simp only [exec, execTypeCmp]; split <;> exact ⟨_, rfl⟩
  | frameSerialize =>
    simp only [exec, execFrameSerialize]
    split
    · split <;> exact ⟨_, rfl⟩
    · exact ⟨_, rfl⟩
  | frameParse =>
    simp only [exec, execFrameParse]
    split
    · split <;> exact ⟨_, rfl⟩
    · exact ⟨_, rfl⟩
  | frameParseEmit =>
    simp only [exec, execFrameParseEmit]
    split
    · split
      · exact ⟨_, rfl⟩
      · exact ⟨_, rfl⟩
      · split <;> exact ⟨_, rfl⟩
    · exact ⟨_, rfl⟩
  | sigEmit => simp only [exec, execSigEmit]; split <;> exact ⟨_, rfl⟩
  | sigCheck =>
    simp only [exec, execSigCheck]
    split
    · split <;> exact ⟨_, rfl⟩
    · exact ⟨_, rfl⟩
  | streamParse =>
    simp only [exec, execStreamParse]
    split
    · split
      · split <;> exact ⟨_, rfl⟩
      · exact ⟨_, rfl⟩
    · exact ⟨_, rfl⟩

end Sys2Proof.Machine
end

