-- ==== Sys2Proof/Laws/Run.lean ====
section
/-! SUPPORT. What one host access can do, and how a host program runs: access by access, each on what the one before left. -/

namespace Sys2Proof.Machine

/-- With nothing pending a step keeps the state. -/
theorem step_nil {s : State} (h : s.pending = []) : step s = .next s := by
  unfold step
  rw [h]

/-- A step takes the first pending event. -/
theorem step_cons {s : State} {e : HostEvent} {rest : List HostEvent} (h : s.pending = e :: rest) :
    step s = hostEvent e { s with pending := rest } := by
  unfold step
  rw [h]

/-- The host's side of a run is no part of what a command reads or writes. -/
theorem exec_pending (i : Instr) (s : State) (p : List HostEvent) :
    exec i { s with pending := p } = mapNext (fun t => { t with pending := p }) (exec i s) := by
  have h1 := exec_reframe i s s.cmd s.ftIndex s.draws p s.hostReads s.params.regBase s.params.inBase s.params.outBase
    s.params.latency
  have h2 := exec_reframe i s s.cmd s.ftIndex s.draws s.pending s.hostReads s.params.regBase s.params.inBase
    s.params.outBase s.params.latency
  obtain ⟨t, ht⟩ := exec_next i s
  have e1 : reframe s.cmd s.ftIndex s.draws p s.hostReads s.params.regBase s.params.inBase s.params.outBase
    s.params.latency s = { s with pending := p } := rfl
  have e2 : reframe s.cmd s.ftIndex s.draws s.pending s.hostReads s.params.regBase s.params.inBase s.params.outBase
    s.params.latency s = s := rfl
  rw [e1, ht] at h1
  rw [e2, ht] at h2
  simp only [mapNext, Host.Outcome.next.injEq] at h1 h2
  rw [h1, ht]
  simp only [mapNext, Host.Outcome.next.injEq]
  rw [h2]
  rfl

theorem issue_pending (w : Word) (s : State) (p : List HostEvent) :
    issue w { s with pending := p } = mapNext (fun t => { t with pending := p }) (issue w s) := by
  unfold issue
  cases decode w with
  | command i => exact exec_pending i (writeReg .cmd w s) p
  | illegal y => rfl

/-- What is pending is no part of what one access does. -/
theorem hostAccess_pending (a : HostAccess) (s : State) (p : List HostEvent) :
    hostAccess a { s with pending := p } = mapNext (fun t => { t with pending := p }) (hostAccess a s) := by
  unfold hostAccess
  cases accessFault s.params a with
  | some f => rfl
  | none =>
    cases a.op with
    | read =>
      cases a.space <;> simp only [hostRead]
      · cases regAt a.offset with
        | none => rfl
        | some r => cases r <;> rfl
      · rfl
      · rfl
    | write v =>
      have hv : v.word { s with pending := p } = v.word s := by cases v <;> rfl
      simp only [hv]
      cases a.space <;> simp only [hostWrite]
      · cases regAt a.offset with
        | none => rfl
        | some r => cases r <;> first | exact issue_pending _ _ _ | rfl
      · rfl
      · rfl

/-- A host access to a register by its name. -/
theorem hostAccess_regWrite (r : Reg) (v : Word) (s : State) (h : r ≠ .cmd) :
    hostAccess ⟨.reg, r.offset, 32, .write (.lit v)⟩ s = .next (writeReg r v s) := by
  simp only [hostAccess, accessFault_reg, HostValue.word, hostWrite, regAt_offset]

/-- The CMD write of a word issues it. -/
theorem hostAccess_cmdWrite (w : Word) (s : State) :
    hostAccess ⟨.reg, 0x000, 32, .write (.lit w)⟩ s = issue w s := by
  simp [hostAccess, accessFault, HostValue.word, hostWrite, regAt]

/-- The CMD write of a command's own word runs that command, with CMD holding the word. -/
theorem hostAccess_cmd (i : Instr) (s : State) :
    hostAccess ⟨.reg, Reg.offset .cmd, 32, .write (.lit (encode i))⟩ s = exec i { s with cmd := encode i } := by
  have hd : decode (encode i) = .command i := by cases i <;> decide
  show hostAccess ⟨.reg, 0x000, 32, .write (.lit (encode i))⟩ s = _
  rw [hostAccess_cmdWrite]
  unfold issue
  rw [hd]
  rfl

/-- A host access answers a next state or a bus error, never a refusal: the next state just when it is admitted. -/
theorem hostAccess_ends (a : HostAccess) (s : State) :
    (accessFault s.params a = none ∧ ∃ t, hostAccess a s = .next t)
      ∨ ∃ f, accessFault s.params a = some f ∧ hostAccess a s = .fault f := by
  unfold hostAccess
  cases accessFault s.params a with
  | some f => exact .inr ⟨f, rfl, rfl⟩
  | none =>
    refine .inl ⟨rfl, ?_⟩
    cases a.op with
    | read => exact ⟨_, rfl⟩
    | write v =>
      cases a.space with
      | inBuf => exact ⟨_, rfl⟩
      | outBuf => exact ⟨_, rfl⟩
      | reg =>
        simp only [hostWrite]
        split
        · unfold issue
          split
          · exact exec_next _ _
          · exact ⟨_, rfl⟩
        · exact ⟨_, rfl⟩
        · exact ⟨_, rfl⟩

/-- The empty program. -/
theorem runProgram_nil (s : State) : runProgram [] s = .next { s with pending := [] } := rfl

/-- A program runs its first access and then the rest on what that left. -/
theorem runProgram_access {a : HostAccess} {evs : List HostEvent} {s t : State} (h : hostAccess a s = .next t) :
    runProgram (.access a :: evs) s = runProgram evs t := by
  have hs : step { s with pending := .access a :: evs } = .next { t with pending := evs } := by
    show hostAccess a { s with pending := evs } = _
    rw [hostAccess_pending, h]
    rfl
  unfold runProgram
  simp only [List.length_cons, Host.Core.run]
  rw [show Host.Core.step Sys2Proof.core = step from rfl, hs]

/-- A program stops at an access that faults. -/
theorem runProgram_access_fault {a : HostAccess} {evs : List HostEvent} {s : State} {f : Fault}
    (h : hostAccess a s = .fault f) : runProgram (.access a :: evs) s = .fault f := by
  have hs : step { s with pending := .access a :: evs } = .fault f := by
    show hostAccess a { s with pending := evs } = _
    rw [hostAccess_pending, h]
    rfl
  unfold runProgram
  simp only [List.length_cons, Host.Core.run]
  rw [show Host.Core.step Sys2Proof.core = step from rfl, hs]
  rfl

/-- A program goes on from a reset between two accesses. -/
theorem runProgram_reset (evs : List HostEvent) (s : State) :
    runProgram (.reset :: evs) s = runProgram evs (assertReset s) := rfl

/-- A reset during a command ends the program with the bus error of the CMD write, whatever would have followed. -/
theorem runProgram_resetDuring (w : Word) (evs : List HostEvent) (s : State) :
    runProgram (.resetDuring w :: evs) s = .fault .resetDuringCommand := rfl

/-- A program that begins with accesses: if they run to `t`, the rest runs on `t`. -/
theorem runProgram_append {as : List HostAccess} {evs : List HostEvent} {s t : State}
    (h : runProgram (as.map HostEvent.access) s = .next t) :
    runProgram (as.map HostEvent.access ++ evs) s = runProgram evs t := by
  induction as generalizing s with
  | nil =>
    simp only [List.map_nil, runProgram_nil, Host.Outcome.next.injEq] at h
    subst h
    rfl
  | cons a as ih =>
    cases ha : hostAccess a s with
    | next u =>
      simp only [List.map_cons, List.cons_append]
      rw [runProgram_access ha]
      apply ih
      rw [← h, List.map_cons, runProgram_access ha]
    | fault f =>
      rw [List.map_cons, runProgram_access_fault ha] at h
      cases h
    | refused f =>
      obtain ⟨-, t, ht⟩ | ⟨f', -, ht⟩ := hostAccess_ends a s <;> rw [ha] at ht <;> cases ht

end Sys2Proof.Machine
end

