-- ==== Sys2Proof/Laws/Frame.lean ====
section
/-! SUPPORT. The frame reader and the serializer: when `frame_at` is OK and what it then holds, what it reads, and how
long a frame is. -/

namespace Sys2Proof.Machine

@[simp] theorem sig_length : sig.length = 8 := rfl

@[simp] theorem frameBytes_length (type : Word) (data : List Byte) :
    (frameBytes type data).length = 12 + data.length := by
  simp [frameBytes]
  omega

/-- When `frame_at` is OK, and everything it then answers (43_frame.md R180). -/
theorem frameAt_ok_iff {m : Memory} {inLen p : Nat} {e : FrameEntry} {next : Nat} :
    frameAt m inLen p = .ok e next ↔
      p + 12 + frameLen m p ≤ inLen ∧ frameStored m p = frameCrc m p ∧ next = p + 12 + frameLen m p
        ∧ e = ⟨be32 (memRead m (p + 4) 4), BitVec.ofNat 32 (frameLen m p), BitVec.ofNat 32 (p + 8), frameStored m p⟩ := by
  unfold frameAt
  split
  · simp only [reduceCtorEq, false_iff]
    omega
  · split
    · simp only [reduceCtorEq, false_iff]
      omega
    · split
      · rename_i h
        simp only [reduceCtorEq, false_iff]
        exact fun h' => h h'.2.1
      · rename_i h1 h2 h3
        simp only [FrameResult.ok.injEq, ne_eq, not_not] at h3 ⊢
        constructor
        · rintro ⟨rfl, rfl⟩
          exact ⟨by omega, h3, rfl, rfl⟩
        · rintro ⟨-, -, rfl, rfl⟩
          exact ⟨rfl, rfl⟩

/-- When `frame_at` reports a mismatch (43_frame.md R180). -/
theorem frameAt_mismatch_iff {m : Memory} {inLen p : Nat} {st c : Word} :
    frameAt m inLen p = .mismatch st c ↔
      p + 12 + frameLen m p ≤ inLen ∧ frameStored m p ≠ frameCrc m p ∧ st = frameStored m p ∧ c = frameCrc m p := by
  unfold frameAt
  split
  · simp only [reduceCtorEq, false_iff]
    omega
  · split
    · simp only [reduceCtorEq, false_iff]
      omega
    · split
      · rename_i h1 h2 h
        simp only [FrameResult.mismatch.injEq]
        constructor
        · rintro ⟨rfl, rfl⟩
          exact ⟨by omega, h, rfl, rfl⟩
        · rintro ⟨-, -, rfl, rfl⟩
          exact ⟨rfl, rfl⟩
      · rename_i h
        simp only [reduceCtorEq, false_iff]
        exact fun h' => h h'.2.1

/-- What an OK frame takes: it ends at or below IN_LEN, and its length and data offset are the exact numbers. -/
theorem frameAt_ok_bounds {m : Memory} {inLen p : Nat} {e : FrameEntry} {next : Nat} (h : frameAt m inLen p = .ok e next)
    (hl : inLen < 2 ^ 32) :
    next ≤ inLen ∧ next = p + 12 + e.len.toNat ∧ e.dataOff.toNat = p + 8 ∧ e.len.toNat = frameLen m p := by
  obtain ⟨h1, -, h3, rfl⟩ := frameAt_ok_iff.1 h
  have h4 : (BitVec.ofNat 32 (frameLen m p)).toNat = frameLen m p := by
    rw [BitVec.toNat_ofNat]
    omega
  have h5 : (BitVec.ofNat 32 (p + 8)).toNat = p + 8 := by
    rw [BitVec.toNat_ofNat]
    omega
  exact ⟨by omega, by rw [h3, h4], h5, h4⟩

/-- A frame's bytes, field by field (20_memory.md R70). -/
theorem memRead_frame (m : Memory) (p n : Nat) :
    memRead m p (12 + n) = memRead m p 4 ++ memRead m (p + 4) 4 ++ memRead m (p + 8) n ++ memRead m (p + 8 + n) 4 := by
  have h1 : 12 + n = 4 + 4 + n + 4 := by omega
  have h2 : p + (4 + 4 + n) = p + 8 + n := by omega
  rw [h1, memRead_append, memRead_append, memRead_append, h2]

/-- Where the serializer's bytes of a frame stand below IN_LEN, `frame_at` is OK and answers its fields. -/
theorem frameAt_frameBytes {m : Memory} {inLen p : Nat} (hl : inLen < 2 ^ 32) {type : Word} {data : List Byte}
    (h1 : p + 12 + data.length ≤ inLen) (h2 : memRead m p (12 + data.length) = frameBytes type data) :
    frameAt m inLen p = .ok
      ⟨type, BitVec.ofNat 32 data.length, BitVec.ofNat 32 (p + 8), crc32 (be32bytes type ++ data)⟩
      (p + 12 + data.length) := by
  rw [memRead_frame, frameBytes] at h2
  have h3 := List.append_inj h2 (by simp)
  have h4 := List.append_inj h3.1 (by simp)
  have h5 := List.append_inj h4.1 (by simp)
  have hL : frameLen m p = data.length := by
    unfold frameLen
    rw [h5.1, be32_be32bytes, BitVec.toNat_ofNat]
    omega
  have hc : frameCrc m p = crc32 (be32bytes type ++ data) := by
    unfold frameCrc
    rw [hL, h5.2, h4.2]
  have hs : frameStored m p = crc32 (be32bytes type ++ data) := by
    unfold frameStored
    rw [hL, h3.2, be32_be32bytes]
  rw [frameAt_ok_iff]
  refine ⟨by omega, by rw [hs, hc], by rw [hL], ?_⟩
  rw [hL, hs, h5.2, be32_be32bytes]

/-- Where `frame_at` is OK, the bytes are the serializer's of the fields it answers. -/
theorem frameBytes_of_frameAt {m : Memory} {inLen p : Nat} (hl : inLen < 2 ^ 32) {e : FrameEntry} {next : Nat}
    (h : frameAt m inLen p = .ok e next) :
    memRead m p (12 + e.len.toNat) = frameBytes e.type (memRead m (p + 8) e.len.toNat)
      ∧ e.crc = crc32 (be32bytes e.type ++ memRead m (p + 8) e.len.toNat) := by
  obtain ⟨h1, h2, h3, h4⟩ := frameAt_ok_iff.1 h
  obtain ⟨b1, b2, b3, b4⟩ := frameAt_ok_bounds h hl
  have ht : e.type = be32 (memRead m (p + 4) 4) := by rw [h4]
  have hs : e.crc = frameStored m p := by rw [h4]
  have hc : e.crc = crc32 (be32bytes e.type ++ memRead m (p + 8) e.len.toNat) := by
    rw [hs, h2, ht, be32bytes_be32 (by simp), b4]
    rfl
  refine ⟨?_, hc⟩
  rw [memRead_frame, frameBytes, ← hc, memRead_length]
  have e1 : be32bytes (BitVec.ofNat 32 e.len.toNat) = memRead m p 4 := by
    rw [b4]
    unfold frameLen
    rw [BitVec.ofNat_toNat, BitVec.setWidth_eq, be32bytes_be32 (by simp)]
  have e2 : be32bytes e.crc = memRead m (p + 8 + e.len.toNat) 4 := by
    rw [b4, hs]
    unfold frameStored
    rw [be32bytes_be32 (by simp)]
  rw [e1, e2, ht, be32bytes_be32 (by simp)]

/-- `frame_at` reads IN_BUF below IN_LEN only. -/
theorem frameAt_congr {m m' : Memory} {inLen p : Nat} (h : ∀ a < inLen, inByte m' a = inByte m a) :
    frameAt m' inLen p = frameAt m inLen p := by
  unfold frameAt
  by_cases h1 : inLen - p < 8
  · simp [h1]
  · have hL : frameLen m' p = frameLen m p := by
      unfold frameLen
      rw [memRead_congr (m := m)]
      intro k hk1 hk2
      exact h k (by omega)
    by_cases h2 : inLen - p - 8 < frameLen m p + 4
    · simp [h1, h2, hL]
    · have hS : frameStored m' p = frameStored m p := by
        unfold frameStored
        rw [hL, memRead_congr (m := m)]
        intro k hk1 hk2
        exact h k (by omega)
      have hT : memRead m' (p + 4) 4 = memRead m (p + 4) 4 :=
        memRead_congr (fun k hk1 hk2 => h k (by omega))
      have hD : memRead m' (p + 8) (frameLen m p) = memRead m (p + 8) (frameLen m p) :=
        memRead_congr (fun k hk1 hk2 => h k (by omega))
      have hC : frameCrc m' p = frameCrc m p := by
        unfold frameCrc
        rw [hL, hT, hD]
      simp only [hL, hS, hC, hT]

end Sys2Proof.Machine
end

