-- ==== Sys2Proof/Laws/Stream.lean ====
section
/-! SUPPORT. The frame loop of STREAM_PARSE: what each of its ends says about IN_BUF, and that its fuel never runs out. -/

namespace Sys2Proof.Machine

/-- Each pass of the frame loop moves on by at least 12 bytes (40_control.md R114). -/
theorem frameAt_ok_advances {m : Memory} {inLen p : Nat} {e : FrameEntry} {next : Nat}
    (h : frameAt m inLen p = .ok e next) : p + 12 ≤ next ∧ next ≤ inLen := by
  obtain ⟨h1, -, h3, -⟩ := frameAt_ok_iff.1 h
  omega

theorem frameChain_le {m : Memory} {inLen q q' : Nat} {es : List FrameEntry} (h : FrameChain m inLen q es q') :
    q + 12 * es.length ≤ q' := by
  induction es generalizing q with
  | nil => simp_all [FrameChain]
  | cons e es ih =>
    obtain ⟨next, h1, h2⟩ := h
    have := frameAt_ok_advances h1
    have := ih h2
    simp only [List.length_cons]
    omega

/-- The loop run over the frames `es` of a chain is the loop run from the chain's end, with `es` put before its result:
enough fuel stays enough. -/
theorem parseFrames_chain {m : Memory} {inLen mx fuel q k q' : Nat} {es : List FrameEntry}
    (h : FrameChain m inLen q es q') (hk : k + es.length ≤ mx) (hf : inLen ≤ q + fuel) :
    ∃ fuel', inLen ≤ q' + fuel' ∧
      parseFrames m inLen mx fuel q k = es.foldr StreamResult.cons (parseFrames m inLen mx fuel' q' (k + es.length)) := by
  induction es generalizing q k fuel with
  | nil =>
    obtain rfl : q = q' := h
    exact ⟨fuel, hf, rfl⟩
  | cons e es ih =>
    obtain ⟨next, h1, h2⟩ := h
    have ha := frameAt_ok_advances h1
    cases fuel with
    | zero => omega
    | succ fuel =>
      obtain ⟨fuel', h3, h4⟩ := ih (k := k + 1) (fuel := fuel) h2
        (by simp only [List.length_cons] at hk; omega) (by omega)
      refine ⟨fuel', h3, ?_⟩
      have hlt : q < inLen := by omega
      have hne : k ≠ mx := by simp only [List.length_cons] at hk; omega
      have hlen : k + (es.length + 1) = k + 1 + es.length := by omega
      simp only [parseFrames, hlt, if_true, h1, hne, if_false, List.foldr_cons, List.length_cons, hlen, h4]

theorem foldr_cons_done (es fs : List FrameEntry) : es.foldr StreamResult.cons (.done fs) = .done (es ++ fs) := by
  induction es with
  | nil => rfl
  | cons e es ih => simp [ih, StreamResult.cons]

theorem foldr_cons_eof (es : List FrameEntry) (q k : Nat) : es.foldr StreamResult.cons (.eof q k) = .eof q k := by
  induction es with
  | nil => rfl
  | cons e es ih => simp [ih, StreamResult.cons]

theorem foldr_cons_mismatch (es : List FrameEntry) (q k : Nat) (st c : Word) :
    es.foldr StreamResult.cons (.mismatch q k st c) = .mismatch q k st c := by
  induction es with
  | nil => rfl
  | cons e es ih => simp [ih, StreamResult.cons]

theorem foldr_cons_full (es : List FrameEntry) (q k : Nat) : es.foldr StreamResult.cons (.full q k) = .full q k := by
  induction es with
  | nil => rfl
  | cons e es ih => simp [ih, StreamResult.cons]

/-- The loop at the end of the input is done. -/
theorem parseFrames_at_end {m : Memory} {inLen mx fuel q k : Nat} (h : inLen ≤ q) :
    parseFrames m inLen mx fuel q k = .done [] := by
  cases fuel with
  | zero => rfl
  | succ fuel => simp [parseFrames, Nat.not_lt.2 h]

/-- What each end of the frame loop says: the frames read make a chain from `q` to where the loop stopped, and the frame
there decides how (44_stream.md R213). -/
theorem parseFrames_spec {m : Memory} {inLen mx fuel q k : Nat} (hk : k ≤ mx) (hf : inLen ≤ q + fuel) (hq : q ≤ inLen) :
    match parseFrames m inLen mx fuel q k with
    | .done es => FrameChain m inLen q es inLen ∧ k + es.length ≤ mx
    | .eof q' k' => ∃ es, FrameChain m inLen q es q' ∧ k' = k + es.length ∧ k' ≤ mx ∧ q' < inLen
        ∧ frameAt m inLen q' = .eof
    | .mismatch q' k' st c => ∃ es, FrameChain m inLen q es q' ∧ k' = k + es.length ∧ k' ≤ mx ∧ q' < inLen
        ∧ frameAt m inLen q' = .mismatch st c
    | .full q' k' => ∃ es, FrameChain m inLen q es q' ∧ k' = k + es.length ∧ k' = mx ∧ q' < inLen
        ∧ ∃ e next, frameAt m inLen q' = .ok e next := by
  induction fuel generalizing q k with
  | zero =>
    obtain rfl : q = inLen := by omega
    exact ⟨rfl, hk⟩
  | succ fuel ih =>
    by_cases hlt : q < inLen
    · cases hfr : frameAt m inLen q with
      | eof =>
        rw [show parseFrames m inLen mx (fuel + 1) q k = .eof q k by simp [parseFrames, hlt, hfr]]
        exact ⟨[], rfl, rfl, hk, hlt, hfr⟩
      | mismatch st c =>
        rw [show parseFrames m inLen mx (fuel + 1) q k = .mismatch q k st c by simp [parseFrames, hlt, hfr]]
        exact ⟨[], rfl, rfl, hk, hlt, hfr⟩
      | ok e next =>
        have ha := frameAt_ok_advances hfr
        by_cases hkm : k = mx
        · rw [show parseFrames m inLen mx (fuel + 1) q k = .full q k by simp [parseFrames, hlt, hfr, hkm]]
          exact ⟨[], rfl, rfl, hkm, hlt, e, next, hfr⟩
        · rw [show parseFrames m inLen mx (fuel + 1) q k = (parseFrames m inLen mx fuel next (k + 1)).cons e by
            simp [parseFrames, hlt, hfr, hkm]]
          have h := ih (q := next) (k := k + 1) (by omega) (by omega) ha.2
          cases hr : parseFrames m inLen mx fuel next (k + 1) with
          | done es =>
            rw [hr] at h
            simp only [StreamResult.cons, List.length_cons]
            exact ⟨⟨next, hfr, h.1⟩, by omega⟩
          | eof q' k' =>
            rw [hr] at h
            obtain ⟨es, h1, h2, h3⟩ := h
            exact ⟨e :: es, ⟨next, hfr, h1⟩, by simp only [List.length_cons]; omega, h3⟩
          | mismatch q' k' st c =>
            rw [hr] at h
            obtain ⟨es, h1, h2, h3⟩ := h
            exact ⟨e :: es, ⟨next, hfr, h1⟩, by simp only [List.length_cons]; omega, h3⟩
          | full q' k' =>
            rw [hr] at h
            obtain ⟨es, h1, h2, h3⟩ := h
            exact ⟨e :: es, ⟨next, hfr, h1⟩, by simp only [List.length_cons]; omega, h3⟩
    · obtain rfl : q = inLen := by omega
      rw [parseFrames_at_end (Nat.le_refl _)]
      exact ⟨rfl, hk⟩

/-- Any two amounts of fuel that reach the end of the input give one result: the fuel is no limit of the machine. -/
theorem parseFrames_fuel_irrelevant {m : Memory} {inLen mx f g q k : Nat} (hf : inLen ≤ q + f) (hg : inLen ≤ q + g) :
    parseFrames m inLen mx f q k = parseFrames m inLen mx g q k := by
  induction f generalizing g q k with
  | zero => rw [parseFrames_at_end (by omega), parseFrames_at_end (by omega)]
  | succ f ih =>
    cases g with
    | zero => rw [parseFrames_at_end (by omega), parseFrames_at_end (by omega)]
    | succ g =>
      simp only [parseFrames]
      split
      · split
        · rfl
        · rfl
        · rename_i e next h
          have := frameAt_ok_advances h
          rw [ih (g := g) (q := next) (k := k + 1) (by omega) (by omega)]
      · rfl

/-- The loop reads IN_BUF below IN_LEN only. -/
theorem parseFrames_congr {m m' : Memory} {inLen mx fuel q k : Nat} (h : ∀ a < inLen, inByte m' a = inByte m a) :
    parseFrames m' inLen mx fuel q k = parseFrames m inLen mx fuel q k := by
  induction fuel generalizing q k with
  | zero => rfl
  | succ fuel ih =>
    simp only [parseFrames, frameAt_congr h, ih]

end Sys2Proof.Machine
end

