-- ==== Sys2Proof/Laws/Commands.lean ====
section
/-! SUPPORT. What a command that succeeds has found and written, and what an abandoned one leaves. -/

namespace Sys2Proof.Machine

/-- What a successful FRAME_SERIALIZE has found and written (43_frame.md R181). -/
theorem frameSerialize_success {s t : State} (h : exec .frameSerialize s = .next t) (he : t.status.err = false) :
    s.argOff.toNat + s.argLen.toNat ≤ s.inLen.toNat
      ∧ s.outPtr.toNat + 12 + s.argLen.toNat ≤ s.params.outCap.toNat
      ∧ t = complete { emit (frameBytes s.typeReg (window s s.argLen.toNat)) s with
          len := s.argLen, computedCrc := crc32 (be32bytes s.typeReg ++ window s s.argLen.toNat) } := by
  simp only [exec, execFrameSerialize] at h
  split at h
  · split at h
    · rename_i h1 h2
      cases h
      rw [windowOk_iff] at h1
      rw [roomOk_iff] at h2
      exact ⟨h1, by omega, rfl⟩
    · cases h
      simp at he
  · cases h
    simp at he

/-- What a successful FRAME_PARSE has found and written (43_frame.md R183). -/
theorem frameParse_success {s t : State} (h : exec .frameParse s = .next t) (he : t.status.err = false) :
    ∃ e next, s.inPtr.toNat ≤ s.inLen.toNat ∧ frameAt s.inBuf s.inLen.toNat s.inPtr.toNat = .ok e next
      ∧ t = complete (loadFrame e next s) := by
  simp only [exec, execFrameParse] at h
  split at h
  · split at h
    · cases h
      simp at he
    · cases h
      simp at he
    · rename_i h1 _ e next h2
      cases h
      exact ⟨e, next, (parseOk_iff s).1 h1, h2, rfl⟩
  · cases h
    simp at he

/-- The frame loop run from the signature over a chain that fits the table (44_stream.md R213). -/
theorem streamFrames_chain {s : State} {es : List FrameEntry} {q : Nat} (hs : SigAt s s.inPtr.toNat)
    (hc : FrameChain s.inBuf s.inLen.toNat (s.inPtr.toNat + 8) es q) (hl : es.length ≤ s.params.maxFrames.toNat) :
    ∃ fuel, s.inLen.toNat ≤ q + fuel ∧ streamFrames s = es.foldr StreamResult.cons
      (parseFrames s.inBuf s.inLen.toNat s.params.maxFrames.toNat fuel q es.length) := by
  have := parseFrames_chain (k := 0) (mx := s.params.maxFrames.toNat)
    (fuel := s.inLen.toNat - (s.inPtr.toNat + 8)) hc (by omega) (by have := hs.1; omega)
  simpa [streamFrames] using this

/-- What a successful STREAM_PARSE has found and written (44_stream.md R210, R213). -/
theorem streamParse_success {s t : State} (h : exec .streamParse s = .next t) (he : t.status.err = false) :
    ∃ es, WellFormedStream s s.inPtr.toNat es ∧ es.length ≤ s.params.maxFrames.toNat
      ∧ t = complete { s with
          ft := storeFrames es s.ft, frameCount := BitVec.ofNat 32 es.length, inPtr := s.inLen } := by
  simp only [exec, execStreamParse] at h
  split at h
  · split at h
    · rename_i h1 h2
      have hs : SigAt s s.inPtr.toNat := (sigAtPtr_iff s).1 h2
      have sp := parseFrames_spec (m := s.inBuf) (inLen := s.inLen.toNat) (mx := s.params.maxFrames.toNat)
        (fuel := s.inLen.toNat - (s.inPtr.toNat + 8)) (q := s.inPtr.toNat + 8) (k := 0) (by omega)
        (by have := hs.1; omega) hs.1
      split at h
      · cases h
        simp at he
      · cases h
        simp at he
      · cases h
        simp at he
      · rename_i es hes
        unfold streamFrames at hes
        cases h
        rw [hes] at sp
        exact ⟨es, ⟨hs, sp.1⟩, by have := sp.2; omega, rfl⟩
    · cases h
      simp at he
  · cases h
    simp at he

/-- The stored frames come first and the later entries stay. -/
theorem storeFrames_getElem? (es ft : List FrameEntry) (k : Nat) :
    (storeFrames es ft)[k]? = if k < es.length then es[k]? else ft[k]? := by
  unfold storeFrames
  split
  · rw [List.getElem?_append_left (by assumption)]
  · rw [List.getElem?_append_right (by omega), List.getElem?_drop]
    congr 1
    omega

/-- Every frame of a chain that ends at IN_LEN lies below IN_LEN, its crc field included. -/
theorem frameChain_inside {m : Memory} {L : Word} {es : List FrameEntry} {e : FrameEntry} (he : e ∈ es) {q : Nat}
    (hq : FrameChain m L.toNat q es L.toNat) : e.dataOff.toNat + e.len.toNat + 4 ≤ L.toNat := by
  induction es generalizing q with
  | nil => cases he
  | cons f fs ih =>
    obtain ⟨next, h1, h2⟩ := hq
    rcases List.mem_cons.1 he with rfl | he'
    · have := frameAt_ok_bounds h1 L.isLt
      omega
    · exact ih he' h2

@[simp] theorem abandonedBytes_length (d a n : Nat) : (abandonedBytes d a n).length = n := by
  induction n generalizing a with
  | zero => rfl
  | succ n ih => simp [abandonedBytes, ih]

/-- Where an abandoned command's output ends: nowhere, or where the completed command leaves OUT_PTR. -/
theorem abandonedEnd_cases (w : Word) (s : State) :
    abandonedEnd w s = s.outPtr.toNat
      ∨ ∃ i u, decode w = .command i ∧ exec i s = .next u ∧ abandonedEnd w s = u.outPtr.toNat := by
  unfold abandonedEnd
  cases hd : decode w with
  | illegal y => exact .inl rfl
  | command i =>
    obtain ⟨u, hu⟩ := exec_next i s
    right
    refine ⟨i, u, rfl, hu, ?_⟩
    simp only [hu]

/-- An admitted access ends in a next state. -/
theorem hostAccess_next {a : HostAccess} {s : State} (h : accessFault s.params a = none) :
    ∃ t, hostAccess a s = .next t := by
  unfold hostAccess
  rw [h]
  cases a.op with
  | read => exact ⟨_, rfl⟩
  | write v =>
    cases a.space with
    | inBuf => exact ⟨_, rfl⟩
    | outBuf => exact ⟨_, rfl⟩
    | reg =>
      simp only [hostWrite]
      split
      · unfold issue
        split
        · exact exec_next _ _
        · exact ⟨_, rfl⟩
      · exact ⟨_, rfl⟩
      · exact ⟨_, rfl⟩

end Sys2Proof.Machine
end

