-- ==== Sys2Proof/Laws/Crc.lean ====
section
/-! SUPPORT. The checksum: feeding in pieces (42_crc.md R164), and that the byte step loses nothing, so two different
registers or bytes never meet again (the ground of R170). -/

namespace Sys2Proof.Machine

/-- 42_crc.md R164: feeding a sequence in two pieces is feeding it whole. -/
theorem crcUpdate_append (c : Word) (s t : List Byte) : crcUpdate c (s ++ t) = crcUpdate (crcUpdate c s) t := by
  induction s generalizing c with
  | nil => rfl
  | cons b s ih => exact ih (crcByte c b)

/-- The top bit of a shifted register says which way the shift went: the polynomial's top bit is set, and a plain shift
clears it. -/
theorem crcShift_topBit (c : Word) : (crcShift c).getLsbD 31 = c.getLsbD 0 := by
  unfold crcShift
  split <;> rename_i h
  · simp [crcPoly, h]
  · simpa using h

/-- One bit of the byte step loses nothing. -/
theorem crcShift_injective {c d : Word} (h : crcShift c = crcShift d) : c = d := by
  have h0 : c.getLsbD 0 = d.getLsbD 0 := by rw [← crcShift_topBit, ← crcShift_topBit, h]
  have hs : c >>> 1 = d >>> 1 := by
    unfold crcShift at h
    rw [h0] at h
    split at h
    · simpa using h
    · exact h
  apply BitVec.eq_of_getLsbD_eq
  intro i hi
  cases i with
  | zero => exact h0
  | succ i =>
    have := congrArg (fun x : Word => x.getLsbD i) hs
    simpa [Nat.add_comm] using this

theorem crcShifts_injective {n : Nat} {c d : Word} (h : crcShifts n c = crcShifts n d) : c = d := by
  induction n generalizing c d with
  | zero => exact h
  | succ n ih => exact crcShift_injective (ih h)

/-- Two registers stepped by one byte agree only if they agreed. -/
theorem crcByte_left_injective {c d : Word} {b : Byte} (h : crcByte c b = crcByte d b) : c = d := by
  simpa using crcShifts_injective h

/-- Two bytes step one register to one value only if they are one byte. -/
theorem crcByte_right_injective {c : Word} {a b : Byte} (h : crcByte c a = crcByte c b) : a = b := by
  have hw : a.setWidth 32 = b.setWidth 32 := by simpa using crcShifts_injective h
  apply BitVec.eq_of_toNat_eq
  have := congrArg BitVec.toNat hw
  have ha := a.isLt
  have hb := b.isLt
  simp only [BitVec.toNat_setWidth] at this
  omega

/-- Two registers fed one sequence agree only if they agreed. -/
theorem crcUpdate_left_injective {s : List Byte} {c d : Word} (h : crcUpdate c s = crcUpdate d s) : c = d := by
  induction s generalizing c d with
  | nil => exact h
  | cons b s ih => exact crcByte_left_injective (ih h)

end Sys2Proof.Machine
end

