-- ==== Sys2Proof/Laws/PerInstr.lean ====
section
/-! SUPPORT. Statements made for every command as syntax, one lemma per constructor (LAWS.json). -/

/-- The command is well formed, its word is the word its fields spell (30_encoding.md R90), is legal by R94, and decodes to
the command. -/
def Sys2Proof.Laws.Encoding.Statement (i : Sys2Proof.Instr) : Prop :=
  i.wellFormed = true ∧ Sys2Proof.CommandFields.ofWord (Sys2Proof.encode i) = i.fields
    ∧ Sys2Proof.legalWord (Sys2Proof.encode i) = true ∧ Sys2Proof.decode (Sys2Proof.encode i) = .command i

theorem Sys2Proof.Laws.Encoding.nop : Sys2Proof.Laws.Encoding.Statement .nop := by
  refine ⟨?_, ?_, ?_, ?_⟩ <;> decide
theorem Sys2Proof.Laws.Encoding.crcInit : Sys2Proof.Laws.Encoding.Statement .crcInit := by
  refine ⟨?_, ?_, ?_, ?_⟩ <;> decide
theorem Sys2Proof.Laws.Encoding.crcFeed : Sys2Proof.Laws.Encoding.Statement .crcFeed := by
  refine ⟨?_, ?_, ?_, ?_⟩ <;> decide
theorem Sys2Proof.Laws.Encoding.crcFinal : Sys2Proof.Laws.Encoding.Statement .crcFinal := by
  refine ⟨?_, ?_, ?_, ?_⟩ <;> decide
theorem Sys2Proof.Laws.Encoding.crcCompute : Sys2Proof.Laws.Encoding.Statement .crcCompute := by
  refine ⟨?_, ?_, ?_, ?_⟩ <;> decide
theorem Sys2Proof.Laws.Encoding.typeFromBytes : Sys2Proof.Laws.Encoding.Statement .typeFromBytes := by
  refine ⟨?_, ?_, ?_, ?_⟩ <;> decide
theorem Sys2Proof.Laws.Encoding.typeFromString : Sys2Proof.Laws.Encoding.Statement .typeFromString := by
  refine ⟨?_, ?_, ?_, ?_⟩ <;> decide
theorem Sys2Proof.Laws.Encoding.typeCmp : Sys2Proof.Laws.Encoding.Statement .typeCmp := by
  refine ⟨?_, ?_, ?_, ?_⟩ <;> decide
theorem Sys2Proof.Laws.Encoding.frameSerialize : Sys2Proof.Laws.Encoding.Statement .frameSerialize := by
  refine ⟨?_, ?_, ?_, ?_⟩ <;> decide
theorem Sys2Proof.Laws.Encoding.frameParse : Sys2Proof.Laws.Encoding.Statement .frameParse := by
  refine ⟨?_, ?_, ?_, ?_⟩ <;> decide
theorem Sys2Proof.Laws.Encoding.frameParseEmit : Sys2Proof.Laws.Encoding.Statement .frameParseEmit := by
  refine ⟨?_, ?_, ?_, ?_⟩ <;> decide
theorem Sys2Proof.Laws.Encoding.sigEmit : Sys2Proof.Laws.Encoding.Statement .sigEmit := by
  refine ⟨?_, ?_, ?_, ?_⟩ <;> decide
theorem Sys2Proof.Laws.Encoding.sigCheck : Sys2Proof.Laws.Encoding.Statement .sigCheck := by
  refine ⟨?_, ?_, ?_, ?_⟩ <;> decide
theorem Sys2Proof.Laws.Encoding.streamParse : Sys2Proof.Laws.Encoding.Statement .streamParse := by
  refine ⟨?_, ?_, ?_, ?_⟩ <;> decide
end

