-- ==== Sys2Proof/Tests/Slice0.lean ====
section
/-! SUPPORT. The model's own tests. Expected results come from the spec: the encodings of 30_encoding.md and the vectors of
95_test_vectors.md, named beside each test. Then one witness for each obligation with hypotheses, clause by clause. -/

namespace Sys2Proof.Tests

open Sys2Proof Sys2Proof.Machine

/-! ## Helpers -/

/-- The cells of a byte sequence from offset `a` on. -/
def cells (a : Nat) : List Byte → Memory
  | [] => []
  | b :: bs => (a, b) :: cells (a + 1) bs

/-- The machine right after reset with `bs` in IN_BUF from offset 0 and IN_LEN the number of them. -/
def loaded (bs : List Byte) : State :=
  { State.reset with inBuf := cells 0 bs, inLen := BitVec.ofNat 32 bs.length }

/-- The same with the operand window at `off`, of `n` bytes. -/
def windowed (bs : List Byte) (off n : Word) : State := { loaded bs with argOff := off, argLen := n }

/-- The same with the parse position at `p`. -/
def parsing (bs : List Byte) (p : Word) : State := { loaded bs with inPtr := p }

/-- A value of the next state, if there is one. -/
def after {α : Type} (o : Host.Outcome State Fault Refusal) (f : State → α) : Option α :=
  match o with
  | .next t => some (f t)
  | .fault _ => none
  | .refused _ => none

/-- The fault of an outcome, if it is one. -/
def faultOf (o : Host.Outcome State Fault Refusal) : Option Fault :=
  match o with
  | .next _ => none
  | .fault f => some f
  | .refused _ => none

/-- The first `n` bytes of OUT_BUF. -/
def outBytes (n : Nat) (s : State) : List Byte := (List.range n).map (outByte s.outBuf)

/-- A host write to a register by its offset. -/
def regWriteAt (off : Nat) (v : Word) : HostEvent := .access ⟨.reg, off, 32, .write (.lit v)⟩

/-- The machine with one event pending. -/
def facing (e : HostEvent) (s : State) : State := { s with pending := [e] }

/-- "123456789". -/
def digits : List Byte := [0x31, 0x32, 0x33, 0x34, 0x35, 0x36, 0x37, 0x38, 0x39]
/-- "ruSt". -/
def ruSt : List Byte := [0x72, 0x75, 0x53, 0x74]
/-- "RuSt". -/
def ruStCritical : List Byte := [0x52, 0x75, 0x53, 0x74]
/-- "secret". -/
def secret : List Byte := [0x73, 0x65, 0x63, 0x72, 0x65, 0x74]
/-- `F_secret` of 95_test_vectors.md. -/
def fSecret : List Byte :=
  [0x00, 0x00, 0x00, 0x06, 0x72, 0x75, 0x53, 0x74, 0x73, 0x65, 0x63, 0x72, 0x65, 0x74, 0x85, 0xEC, 0xF2, 0x12]
/-- `F_secret` with its last crc byte changed. -/
def fBadCrc : List Byte :=
  [0x00, 0x00, 0x00, 0x06, 0x72, 0x75, 0x53, 0x74, 0x73, 0x65, 0x63, 0x72, 0x65, 0x74, 0x85, 0xEC, 0xF2, 0x13]
/-- `F_IEND` of 95_test_vectors.md. -/
def fIend : List Byte := [0x00, 0x00, 0x00, 0x00, 0x49, 0x45, 0x4E, 0x44, 0xAE, 0x42, 0x60, 0x82]
/-- `F_IEND` with its last crc byte 0x83 (vector V-S9). -/
def fIendBad : List Byte := [0x00, 0x00, 0x00, 0x00, 0x49, 0x45, 0x4E, 0x44, 0xAE, 0x42, 0x60, 0x83]
/-- `SIG` of 95_test_vectors.md. -/
def sigBytes : List Byte := [0x89, 0x50, 0x4E, 0x47, 0x0D, 0x0A, 0x1A, 0x0A]
/-- The record of `F_secret` at offset 8 (vector V-S7). -/
def secretEntry : FrameEntry := ⟨0x72755374, 6, 16, 0x85ECF212⟩

/-! ## WellFormed: each check of 30_encoding.md R94 refuses -/

theorem test_rsv_refused : (⟨0x21, true, 1⟩ : CommandFields).wellFormed = false := by decide
theorem test_opcode_refused : (⟨0x05, false, 0⟩ : CommandFields).wellFormed = false := by decide
theorem test_flag_refused : (⟨0x20, true, 0⟩ : CommandFields).wellFormed = false := by decide
theorem test_fields_accepted : (⟨0x21, true, 0⟩ : CommandFields).wellFormed = true := by decide

/-! ## Decode: every word of 30_encoding.md R93, bit by bit (RSV, F, OPC) -/

theorem test_decode_control : decode 0b00000000000000000000000000000000#32 = .command .nop := by decide

theorem test_decode_crc :
    decode 0b00000000000000000000000000000001#32 = .command .crcInit
      ∧ decode 0b00000000000000000000000000000010#32 = .command .crcFeed
      ∧ decode 0b00000000000000000000000000000011#32 = .command .crcFinal
      ∧ decode 0b00000000000000000000000000000100#32 = .command .crcCompute := by decide

theorem test_decode_type :
    decode 0b00000000000000000000000000010000#32 = .command .typeFromBytes
      ∧ decode 0b00000000000000000000000000010001#32 = .command .typeFromString
      ∧ decode 0b00000000000000000000000000010010#32 = .command .typeCmp := by decide

theorem test_decode_frame :
    decode 0b00000000000000000000000000100000#32 = .command .frameSerialize
      ∧ decode 0b00000000000000000000000000100001#32 = .command .frameParse
      ∧ decode 0b00000000000000000000000100100001#32 = .command .frameParseEmit := by decide

theorem test_decode_stream :
    decode 0b00000000000000000000000000110000#32 = .command .sigEmit
      ∧ decode 0b00000000000000000000000000110001#32 = .command .sigCheck
      ∧ decode 0b00000000000000000000000000110010#32 = .command .streamParse := by decide

/-- Vectors V-C1 to V-C5 and the bounds of R96's ranges. -/
theorem test_decode_illegal :
    decode 0x00000005 = .illegal .unassignedOpcode ∧ decode 0x00000100 = .illegal .flagNotAdmitted
      ∧ decode 0x00000120 = .illegal .flagNotAdmitted ∧ decode 0x00000321 = .illegal .reservedBits
      ∧ decode 0xFFFFFFFF = .illegal .reservedBits
      ∧ ([0x05, 0x0F, 0x13, 0x1F, 0x22, 0x2F, 0x33, 0x3F, 0x40, 0xFF].all fun w : Word =>
          decode w == .illegal .unassignedOpcode) = true := by decide

theorem test_decodeTableWord :
    decodeTableWord 32 0x121 = some .frameParseEmit ∧ decodeTableWord 32 0x32 = some .streamParse
      ∧ decodeTableWord 32 0x320 = none := by decide

/-! ## One step of each command -/

/-- Vector V-C8: NOP on STATUS = 0x0000090B leaves 0x00000002. -/
theorem test_nop :
    after (step (State.withFetchWord { loaded [1] with status := ⟨true, true, true, 9, 0⟩ } 32 0x00)) (readReg · .status)
      = some 0x00000002 := by decide

/-- Vector V-C1. -/
theorem test_illegal_word :
    after (step (State.reset.withFetchWord 32 0x05)) (fun t => (readReg t .status, readReg t .cmd))
      = some (0x0000080D, 0x00000005) := by decide

theorem test_crcInit :
    after (step (State.withFetchWord { State.reset with crcAcc := 0x12345678 } 32 0x01)) (readReg · .crcAcc)
      = some 0xFFFFFFFF := by decide

/-- Vector V-K3's feed of "1234". -/
theorem test_crcFeed :
    after (step ((windowed digits 0 4).withFetchWord 32 0x02)) (readReg · .crcAcc) = some 0x641C1F5C := by
  decide +kernel

/-- Vector V-K6: an empty window changes nothing. -/
theorem test_crcFeed_empty :
    after (step (State.withFetchWord { windowed [0x61] 0 0 with crcAcc := 0x12345678 } 32 0x02)) (readReg · .crcAcc)
      = some 0x12345678 := by decide

theorem test_crcFinal :
    after (step (State.withFetchWord { State.reset with crcAcc := 0x340BC6D9 } 32 0x03)) (readReg · .crcResult)
      = some 0xCBF43926 := by decide

/-- Vector V-K1. -/
theorem test_crcCompute :
    after (step ((windowed digits 0 9).withFetchWord 32 0x04)) (fun t => (readReg t .crcAcc, readReg t .crcResult))
      = some (0x340BC6D9, 0xCBF43926) := by decide +kernel

/-- Vector V-T1. -/
theorem test_typeFromBytes :
    after (step ((windowed ruStCritical 0 4).withFetchWord 32 0x10)) (fun t => (readReg t .type, readReg t .typeFlags))
      = some (0x52755374, 0x3B) := by decide

/-- Vector V-T3. -/
theorem test_typeFromBytes_range :
    after (step ((windowed ruStCritical 1 4).withFetchWord 32 0x10)) (fun t => (readReg t .type, readReg t .status))
      = some (0, 0x00000909) := by decide

/-- Vector V-T8. -/
theorem test_typeFromString :
    after (step ((windowed [0x31, 0x32, 0x33, 0x34] 0 4).withFetchWord 32 0x11))
      (fun t => (readReg t .type, readReg t .typeFlags)) = some (0x31323334, 0x10) := by decide

/-- Vectors V-T7 and V-T9: a byte past ASCII; RANGE before the length test. -/
theorem test_typeFromString_errors :
    after (step ((windowed [0x52, 0xC3, 0xBC, 0x74] 0 4).withFetchWord 32 0x11)) (readReg · .status) = some 0x00000109
      ∧ after (step ((windowed [0x52, 0x75] 0 8).withFetchWord 32 0x11)) (readReg · .status) = some 0x00000909 := by
  decide

/-- Vectors V-T11 and V-T12. -/
theorem test_typeCmp :
    after (step (State.withFetchWord { windowed ruSt 0 4 with typeReg := 0x72755374 } 32 0x12)) (readReg · .status)
        = some 0x00000002
      ∧ after (step (State.withFetchWord { windowed ruStCritical 0 4 with typeReg := 0x72755374 } 32 0x12))
          (readReg · .status) = some 0x00000000 := by decide

/-- 43_frame.md R181's example, at OUT_PTR = 0. -/
theorem test_frameSerialize :
    after (step (State.withFetchWord { windowed secret 0 6 with typeReg := 0x72755374 } 32 0x20))
      (fun t => (outBytes 18 t, t.outPtr, t.len, t.computedCrc)) = some (fSecret, 18, 6, 0x85ECF212) := by decide +kernel

/-- One byte too few: the frame of 18 bytes at OUT_PTR = 47 of 64. -/
theorem test_frameSerialize_capacity :
    after (step (State.withFetchWord { windowed secret 0 6 with outPtr := 47 } 32 0x20)) (readReg · .status)
      = some 0x00000A09 := by decide

/-- 43_frame.md R183's example. -/
theorem test_frameParse :
    after (step ((parsing (sigBytes ++ fSecret) 8).withFetchWord 32 0x21))
      (fun t => (t.typeReg, t.len, t.dataOff, t.storedCrc, t.computedCrc, t.inPtr))
      = some (0x72755374, 6, 16, 0x85ECF212, 0x85ECF212, 26) := by decide +kernel

/-- Row S7 of 95_test_vectors.md: byte 8 changed to 0x72. -/
theorem test_frameParse_flipped :
    after (step ((parsing (fSecret.set 8 0x72) 0).withFetchWord 32 0x21))
      (fun t => (readReg t .status, t.storedCrc, t.computedCrc, t.inPtr))
      = some (0x00000409, 0x85ECF212, 0x4EB021B7, 0) := by decide +kernel

/-- 43_frame.md R184's example. -/
theorem test_frameParseEmit :
    after (step ((parsing (sigBytes ++ fSecret) 8).withFetchWord 32 0x121))
      (fun t => (outBytes 6 t, t.outPtr, t.inPtr)) = some (secret, 6, 26) := by decide +kernel

/-- No room for the 6 payload bytes at OUT_PTR = 59 of 64: nothing is parsed either. -/
theorem test_frameParseEmit_capacity :
    after (step (State.withFetchWord { parsing (sigBytes ++ fSecret) 8 with outPtr := 59 } 32 0x121))
      (fun t => (readReg t .status, t.errOff, t.outPtr, t.inPtr, t.typeReg)) = some (0x00000A09, 8, 59, 8, 0) := by
  decide +kernel

/-- 44_stream.md R211's example. -/
theorem test_sigEmit :
    after (step (State.reset.withFetchWord 32 0x30)) (fun t => (outBytes 8 t, t.outPtr)) = some (sigBytes, 8) := by decide

/-- 44_stream.md R212's example. -/
theorem test_sigCheck :
    after (step ((parsing sigBytes 0).withFetchWord 32 0x31)) (fun t => (t.inPtr, readReg t .status))
      = some (8, 0x00000004) := by decide

/-- Vector V-S5: 7 of the 8 bytes. -/
theorem test_sigCheck_short :
    after (step ((parsing (sigBytes.take 7) 0).withFetchWord 32 0x31)) (readReg · .status) = some 0x00000209 := by decide

/-- Vector V-S7; STORED_CRC and DATA_OFF stay 0, as in the end state of program P4. -/
theorem test_streamParse :
    after (step ((parsing (sigBytes ++ fSecret) 0).withFetchWord 32 0x32))
      (fun t => (t.frameCount, t.ft, t.inPtr, readReg t .storedCrc, readReg t .dataOff))
      = some (1, [secretEntry], 26, 0, 0) := by decide +kernel

/-- Vector V-S9. -/
theorem test_streamParse_mismatch :
    after (step ((parsing (sigBytes ++ fSecret ++ fIendBad) 0).withFetchWord 32 0x32))
      (fun t => (readReg t .status, t.errOff, t.errFrame, t.storedCrc, t.computedCrc))
      = some (0x00004509, 26, 1, 0xAE426083, 0xAE426082) := by decide +kernel

/-! ## The host port -/

/-- Vectors V-C12 and V-C13, and the widths and offsets of 20_memory.md R63. -/
theorem test_bus_errors :
    faultOf (step (facing (.access ⟨.reg, 0x004, 16, .read⟩) State.reset)) = some .regWidth
      ∧ faultOf (step (facing (.access ⟨.reg, 0x006, 32, .read⟩) State.reset)) = some .regMisaligned
      ∧ faultOf (step (facing (.access ⟨.inBuf, 64, 8, .write (.lit 0)⟩) State.reset)) = some .inOffset
      ∧ faultOf (step (facing (.access ⟨.outBuf, 64, 8, .read⟩) State.reset)) = some .outOffset
      ∧ faultOf (step (facing (.access ⟨.inBuf, 0, 32, .read⟩) State.reset)) = some .bufWidth := by decide

/-- Vector V-C9. -/
theorem test_clamped :
    after (step (facing (regWriteAt 0x010 0x1000) State.reset)) (readReg · .inLen) = some 64
      ∧ after (step (facing (regWriteAt 0x018 0xFFFFFFFF) State.reset)) (readReg · .outPtr) = some 64 := by decide

/-- Rows of the flag table of 95_test_vectors.md §2.2 on each side of the letters. -/
theorem test_typeFlags :
    typeFlags 0x52755374 = 0x3B ∧ typeFlags 0x52757374 = 0x13 ∧ typeFlags 0x5B616263 = 0x12
      ∧ typeFlags 0x405A417A = 0x1E ∧ typeFlags 0 = 0x0E ∧ typeFlags 0xFFFFFFFF = 0x10 := by decide

/-! ## Witnesses: states and operands that meet the hypotheses of each obligation, clause by clause -/

/-- The state `frameAt` reads at 0 in the witnesses: one whole frame. -/
def whole : State := parsing fSecret 0

theorem witness_DecodeEncodeAgree :
    Instr.wellFormed .frameParseEmit = true ∧ decode 0x121 = .command .frameParseEmit
      ∧ decode 0x122 = .illegal .unassignedOpcode := by decide

theorem witness_StepRunsTheDecodedCommand :
    (facing (regWriteAt 0x000 0x121) whole).pending = .access ⟨.reg, 0x000, 32, .write (.lit 0x121)⟩ :: []
      ∧ 0x121 < 2 ^ 32 ∧ decode (BitVec.ofNat 32 0x121) = .command .frameParseEmit := by decide

theorem witness_IdleEngineKeepsItsState : State.reset.pending = [] := by decide

theorem witness_IllegalWordFailsAndChangesOnlyStatus :
    ((0x05 : Word).extractLsb' 0 8).toNat ∉ [0x00, 0x01, 0x02, 0x03, 0x04, 0x10, 0x11, 0x12, 0x20, 0x21, 0x30, 0x31, 0x32]
      ∧ ((0x120 : Word).getLsbD 8 = true ∧ (0x120 : Word).extractLsb' 0 8 ≠ 0x21#8)
      ∧ (0x200 : Word).extractLsb' 9 23 ≠ 0
      ∧ (facing (regWriteAt 0x000 0x200) whole).pending = .access ⟨.reg, 0x000, 32, .write (.lit 0x200)⟩ :: []
      ∧ decode 0x200 = .illegal .reservedBits := by decide

theorem witness_NopClearsTheErrorStatus :
    (0x100 : Word).extractLsb' 0 8 = 0 ∧ (0x100 : Word) ≠ 0
      ∧ after (exec .nop { whole with status := ⟨true, false, true, 9, 0⟩ }) (·.status.anyErr) = some false := by decide

/-- The hypotheses of the clauses on a window of ARG_LEN bytes: a window that ends at IN_LEN, one that ends past it, and one that would wrap past 2^32. -/
theorem witness_window :
    (windowed digits 5 4).argOff.toNat + (windowed digits 5 4).argLen.toNat = (windowed digits 5 4).inLen.toNat
      ∧ (windowed digits 6 4).inLen.toNat < (windowed digits 6 4).argOff.toNat + (windowed digits 6 4).argLen.toNat
      ∧ (windowed digits 0xFFFFFFFF 1).inLen.toNat
          < (windowed digits 0xFFFFFFFF 1).argOff.toNat + (windowed digits 0xFFFFFFFF 1).argLen.toNat := by decide

theorem witness_CrcFeedAddsTheWindow :
    after (exec .crcFeed (windowed digits 5 4)) (·.status.err) = some false
      ∧ after (exec .crcFeed (windowed digits 6 4)) (·.status.errCode) = some 9 := by decide +kernel

theorem witness_CrcComputeChecksumsTheWindow :
    after (exec .crcCompute (windowed digits 5 4)) (·.status.err) = some false
      ∧ after (exec .crcCompute (windowed digits 6 4)) (·.status.errCode) = some 9 := by decide +kernel

theorem witness_CrcComputeIsInitFeedFinal :
    (windowed digits 0 9).argOff.toNat + (windowed digits 0 9).argLen.toNat ≤ (windowed digits 0 9).inLen.toNat := by
  decide

theorem witness_CrcFeedsComposeOverAdjacentWindows :
    (windowed digits 0 0).argOff.toNat + (4 : Word).toNat + (5 : Word).toNat ≤ (windowed digits 0 0).inLen.toNat
      ∧ (windowed digits 0 0).crcAcc = 0xFFFFFFFF := by decide

theorem witness_SingleBitFlipChangesCrc : 3 < ruSt.length ∧ 7 < 8 := by decide

theorem witness_OnlyTheCrcGeneratorWritesItsRegisters :
    after (exec .crcFinal (windowed digits 0 0)) (fun t => (t.crcAcc, t.crcResult)) = some (0xFFFFFFFF, 0) := by decide

theorem witness_TypeFromBytesLoadsTheWindow :
    (windowed digits 5 0).argOff.toNat + 4 = (windowed digits 5 0).inLen.toNat
      ∧ (windowed digits 6 0).inLen.toNat < (windowed digits 6 0).argOff.toNat + 4 := by decide

theorem witness_TypeFromStringTakesFourAsciiCharacters :
    (windowed [0x7F, 0, 0, 0x7F] 0 4).argLen = 4
      ∧ ([0x7F, 0, 0, 0x7F].all fun b : Byte => decide (b.toNat < 0x80)) = true
      ∧ (windowed digits 0 5).argLen ≠ 4
      ∧ 0x80 ≤ (inByte (windowed [0, 0, 0, 0x80] 0 4).inBuf 3).toNat := by decide

theorem witness_TypeCmpComparesByteForByte :
    (windowed ruSt 0 0).argOff.toNat + 4 = (windowed ruSt 0 0).inLen.toNat
      ∧ (windowed ruSt 1 0).inLen.toNat < (windowed ruSt 1 0).argOff.toNat + 4 := by decide

/-- One input for each way of the frame reader: 7 bytes; a data field cut by one byte; a wrong crc; a whole frame. -/
theorem witness_FrameReaderFollowsItsChecks :
    frameAt (cells 0 (fSecret.take 7)) 7 0 = .eof ∧ frameAt (cells 0 (fSecret.take 17)) 17 0 = .eof
      ∧ frameAt (cells 0 fBadCrc) 18 0 = .mismatch 0x85ECF213 0x85ECF212
      ∧ frameAt (cells 0 fSecret) 18 0 = .ok ⟨0x72755374, 6, 8, 0x85ECF212⟩ 18 := by decide +kernel

theorem witness_FrameReaderAcceptsExactlySerializedFrames :
    0 ≤ 18 ∧ 18 < 2 ^ 32 ∧ memRead (cells 0 fSecret) 0 (12 + secret.length) = frameBytes 0x72755374 secret := by
  decide +kernel

theorem witness_FrameReaderIgnoresTheBytesAfterTheFrame :
    frameAt (cells 0 (fSecret ++ [1])) 19 0 = .ok ⟨0x72755374, 6, 8, 0x85ECF212⟩ 18 ∧ 18 ≤ 18
      ∧ (∀ a < 18, inByte (cells 0 (fSecret ++ [2])) a = inByte (cells 0 (fSecret ++ [1])) a) := by decide +kernel

/-- A frame that fills OUT_BUF exactly, one a byte too long, and a window past IN_LEN. -/
theorem witness_FrameSerializeWritesTheFrame :
    { windowed secret 0 6 with outPtr := 46 }.outPtr.toNat + 12 + 6 = State.reset.params.outCap.toNat
      ∧ State.reset.params.outCap.toNat < { windowed secret 0 6 with outPtr := 47 }.outPtr.toNat + 12 + 6
      ∧ (windowed secret 1 6).inLen.toNat < (windowed secret 1 6).argOff.toNat + (windowed secret 1 6).argLen.toNat := by
  decide

theorem witness_FrameParseSplitsOneFrame :
    frameAt whole.inBuf whole.inLen.toNat whole.inPtr.toNat = .ok ⟨0x72755374, 6, 8, 0x85ECF212⟩ 18
      ∧ frameAt (parsing fBadCrc 0).inBuf 18 0 = .mismatch 0x85ECF213 0x85ECF212
      ∧ (parsing fSecret 18).inPtr = (parsing fSecret 18).inLen
      ∧ frameAt (parsing fSecret 18).inBuf (parsing fSecret 18).inLen.toNat (parsing fSecret 18).inPtr.toNat = .eof
      ∧ (parsing fSecret 19).inLen.toNat < (parsing fSecret 19).inPtr.toNat := by decide +kernel

theorem witness_FrameParseEmitCopiesThePayload :
    frameAt whole.inBuf whole.inLen.toNat whole.inPtr.toNat = .ok ⟨0x72755374, 6, 8, 0x85ECF212⟩ 18
      ∧ { whole with outPtr := 58 }.outPtr.toNat + 6 = whole.params.outCap.toNat
      ∧ whole.params.outCap.toNat < { whole with outPtr := 59 }.outPtr.toNat + 6 := by decide +kernel

/-- What FRAME_SERIALIZE wrote of ("ruSt", "secret") stands in the IN_BUF of `whole`. -/
theorem witness_SerializedFrameParsesBack :
    after (exec .frameSerialize { windowed secret 0 6 with typeReg := 0x72755374 }) (fun t => (t.status.err, outBytes 18 t))
        = some (false, fSecret)
      ∧ whole.inPtr.toNat + 12 + 6 ≤ whole.inLen.toNat
      ∧ (List.range 18).map (fun k => inByte whole.inBuf (whole.inPtr.toNat + k)) = fSecret := by decide +kernel

theorem witness_ParsedFrameSerializesBack :
    after (exec .frameParse whole) (fun t => (t.status.err, t.typeReg, t.dataOff, t.len))
        = some (false, 0x72755374, 8, 6)
      ∧ { whole with typeReg := 0x72755374, argOff := 8, argLen := 6, outPtr := 46 }.outPtr.toNat + 12 + 6
          ≤ whole.params.outCap.toNat := by decide +kernel

theorem witness_FlippedTypeOrDataBitFailsTheParse :
    frameAt whole.inBuf whole.inLen.toNat whole.inPtr.toNat = .ok ⟨0x72755374, 6, 8, 0x85ECF212⟩ 18
      ∧ whole.inPtr.toNat + 4 ≤ 4 ∧ 13 < whole.inPtr.toNat + 8 + (6 : Word).toNat ∧ 7 < 8 := by decide +kernel

theorem witness_SigEmitWritesTheSignature :
    { State.reset with outPtr := 56 }.outPtr.toNat + 8 = State.reset.params.outCap.toNat
      ∧ State.reset.params.outCap.toNat < { State.reset with outPtr := 57 }.outPtr.toNat + 8 := by decide

theorem witness_SigCheckStepsOverTheSignature :
    (parsing sigBytes 0).inPtr.toNat + 8 = (parsing sigBytes 0).inLen.toNat
      ∧ memRead (parsing sigBytes 0).inBuf 0 8 = [0x89, 0x50, 0x4E, 0x47, 0x0D, 0x0A, 0x1A, 0x0A]
      ∧ (parsing sigBytes 1).inLen.toNat < (parsing sigBytes 1).inPtr.toNat + 8
      ∧ memRead (parsing (sigBytes.set 0 0x88) 0).inBuf 0 8 ≠ [0x89, 0x50, 0x4E, 0x47, 0x0D, 0x0A, 0x1A, 0x0A]
      ∧ (parsing sigBytes 9).inLen.toNat < (parsing sigBytes 9).inPtr.toNat := by decide

/-- The stream SIG ++ F_secret (vector V-S7). -/
def stream : State := parsing (sigBytes ++ fSecret) 0

/-- The hypothesis of StreamParseFillsTheTableOrStops' first clause. -/
theorem witness_stream : WellFormedStream stream 0 [secretEntry] :=
  ⟨⟨by decide, by decide⟩, 26, by decide +kernel, rfl⟩

theorem witness_StreamParse_bad_signature :
    ¬ SigAt (parsing (sigBytes.take 7) 0) 0 ∧ ¬ SigAt (parsing (sigBytes.set 7 0) 0) 0 := by
  refine ⟨fun h => ?_, fun h => ?_⟩
  · exact absurd h.1 (by decide)
  · exact absurd h.2 (by decide)

/-- Three stray bytes, a wrong crc, and a second frame past MAX_FRAMES = 1, each behind F_secret. -/
theorem witness_StreamParseFillsTheTableOrStops :
    FrameChain (cells 0 (sigBytes ++ fSecret ++ [9, 9, 9])) 29 8 [secretEntry] 26
      ∧ frameAt (cells 0 (sigBytes ++ fSecret ++ [9, 9, 9])) 29 26 = .eof
      ∧ frameAt (cells 0 (sigBytes ++ fSecret ++ fIendBad)) 38 26 = .mismatch 0xAE426083 0xAE426082
      ∧ frameAt (cells 0 (sigBytes ++ fSecret ++ fIend)) 38 26 = .ok ⟨0x49454E44, 0, 34, 0xAE426082⟩ 38
      ∧ [secretEntry].length = { Config.params with maxFrames := 1 }.maxFrames.toNat :=
  ⟨⟨26, by decide +kernel, rfl⟩, by decide +kernel, by decide +kernel, by decide +kernel, by decide⟩

/-- Vector V-S10's end, with MAX_FRAMES = 1: CAPACITY at the second frame. -/
theorem witness_StreamParse_full :
    after (exec .streamParse { parsing (sigBytes ++ fSecret ++ fIend) 0 with params := { Config.params with maxFrames := 1 } })
      (fun t => (readReg t .status, t.errOff, t.errFrame, t.frameCount)) = some (0x00000A09, 26, 1, 0) := by
  decide +kernel

/-- Also the hypotheses of StreamParseFillsTheTableOrStops' last clause. -/
theorem witness_RepeatedFrameParseVisitsTheStream :
    after (exec .streamParse stream) (fun t => (t.status.err, t.frameCount)) = some (false, 1) := by decide +kernel

theorem witness_ContainerRoundTrip :
    after (exec .streamParse stream) (fun t => (t.status.err, (List.range t.frameCount.toNat).map (ftEntry t)))
        = some (false, [secretEntry])
      ∧ stream.inLen.toNat - stream.inPtr.toNat ≤ stream.params.outCap.toNat := by decide +kernel

theorem witness_FailureWritesOnlyStatusAndDiagnostics :
    after (exec .sigEmit { State.reset with outPtr := 57 }) (·.status.errCode) = some 10
      ∧ decode 0x05 = .illegal .unassignedOpcode := by decide

/-- RANGE just past IN_LEN and not at it, for a window of ARG_LEN bytes, a window of 4 and the parse position. -/
theorem witness_RangeRaisedExactlyPastInLen :
    after (exec .crcFeed (windowed digits 9 0)) (·.status.errCode) = some 0
      ∧ after (exec .crcFeed (windowed digits 10 0)) (·.status.errCode) = some 9
      ∧ after (exec .typeCmp (windowed digits 5 0)) (·.status.errCode) = some 0
      ∧ after (exec .typeCmp (windowed digits 6 0)) (·.status.errCode) = some 9
      ∧ after (exec .frameParse (parsing digits 9)) (·.status.errCode) = some 3
      ∧ after (exec .frameParse (parsing digits 10)) (·.status.errCode) = some 9 := by decide

/-- Each command that writes OUT_BUF succeeds, at the end of OUT_BUF, and one fails a byte later. -/
theorem witness_OutputIsAllOrNothing :
    after (exec .sigEmit { State.reset with outPtr := 56 }) (fun t => (t.status.err, t.outPtr)) = some (false, 64)
      ∧ after (exec .frameSerialize { windowed secret 0 6 with outPtr := 46 }) (fun t => (t.status.err, t.outPtr))
        = some (false, 64)
      ∧ after (exec .frameParseEmit { whole with outPtr := 58 }) (fun t => (t.status.err, t.outPtr)) = some (false, 64)
      ∧ after (exec .sigEmit { State.reset with outPtr := 57 }) (fun t => (t.status.err, t.outPtr)) = some (true, 57) := by
  decide +kernel

theorem witness_CommandsNeverWriteTheHostsRegisters :
    after (exec .typeFromBytes (windowed ruSt 0 9)) (fun t => (t.typeReg, t.argLen, t.inLen)) = some (0x72755374, 9, 4) := by
  decide

/-- Each parse command fails somewhere. -/
theorem witness_FailedParseFailsAgainTheSameWay :
    after (exec .frameParse (parsing fSecret 18)) (·.status.err) = some true
      ∧ after (exec .frameParseEmit (parsing fBadCrc 0)) (·.status.err) = some true
      ∧ after (exec .sigCheck (parsing sigBytes 1)) (·.status.err) = some true
      ∧ after (exec .streamParse (parsing sigBytes 9)) (·.status.err) = some true := by decide +kernel

theorem witness_CommandsReadOnlyDeclaredInput :
    ∀ a < whole.inLen.toNat, inByte (cells 0 (fSecret ++ [1])) a = inByte whole.inBuf a := by decide

/-- A state with ANYERR set. -/
def failed : State := { State.reset with status := ⟨true, false, true, 9, 0⟩ }

/-- A step that clears ANYERR, by each of the three ways. -/
theorem witness_AnyErrClearedOnlyByNopAndReset :
    failed.status.anyErr = true ∧ after (step (failed.withFetchWord 32 0)) (·.status.anyErr) = some false
      ∧ after (step (facing .reset failed)) (·.status.anyErr) = some false
      ∧ after (step (facing (.resetDuring 0x04) failed)) (·.status.anyErr) = some false
      ∧ decode 0x05 = .illegal .unassignedOpcode := by decide

theorem witness_EqWrittenOnlyByTypeCmp :
    after (step (State.withFetchWord { windowed ruSt 0 4 with typeReg := 0x72755374 } 32 0x12)) (·.status.eq) = some true
      ∧ (windowed ruSt 0 4).status.eq = false
      ∧ after (exec .typeCmp (windowed ruSt 1 4)) (·.status.err) = some true := by decide

/-- One access of each clause, at the bounds of the spaces. -/
theorem witness_NotAdmittedAccessesFaultAndOnlyThose :
    (facing (.access ⟨.reg, 0xFFC, 32, .read⟩) State.reset).pending = .access ⟨.reg, 0xFFC, 32, .read⟩ :: []
      ∧ 0xFFC < 4096 ∧ State.reset.params.inCap.toNat ≤ 64 ∧ State.reset.params.outCap.toNat ≤ 64
      ∧ faultOf (step (facing (.access ⟨.reg, 0xFFC, 32, .read⟩) State.reset)) = none
      ∧ faultOf (step (facing (.access ⟨.inBuf, 63, 8, .write (.lit 0)⟩) State.reset)) = none
      ∧ faultOf (step (facing (.access ⟨.outBuf, 63, 8, .read⟩) State.reset)) = none := by decide

theorem witness_RegisterReadHasNoSideEffect :
    (facing (.access ⟨.reg, Reg.offset .status, 32, .read⟩) whole).pending
      = .access ⟨.reg, Reg.offset .status, 32, .read⟩ :: [] := by decide

/-- Reads by R22's offsets as numbers: the STORED_CRC and COMPUTED_CRC of vector V-F12 and the LEN of V-F7. -/
theorem test_register_reads :
    after (step (facing (.access ⟨.reg, 0x034, 32, .read⟩) { whole with storedCrc := 0x85ECF212 })) (·.hostReads)
        = some [0x85ECF212]
      ∧ after (step (facing (.access ⟨.reg, 0x038, 32, .read⟩) { whole with computedCrc := 0x4EB021B7 })) (·.hostReads)
        = some [0x4EB021B7]
      ∧ after (step (facing (.access ⟨.reg, 0x02C, 32, .read⟩) { whole with len := 6 })) (·.hostReads) = some [6] := by
  decide

theorem witness_ReadOnlyAndReservedWritesAreIgnored :
    Reg.status ∈ [Reg.status, .typeFlags, .crcResult, .len, .dataOff, .storedCrc, .computedCrc, .frameCount, .ftType,
        .ftLen, .ftDataOff, .ftCrc, .errOff, .errFrame, .id, .capIn, .capOut, .capFrames]
      ∧ (facing (regWriteAt 0x004 7) whole).pending = .access ⟨.reg, Reg.offset .status, 32, .write (.lit 7)⟩ :: []
      ∧ (facing (regWriteAt 0xFFC 7) whole).pending = .access ⟨.reg, 0xFFC, 32, .write (.lit 7)⟩ :: []
      ∧ 0x06C ≤ 0xFFC ∧ 0xFFC % 4 = 0 := by decide

theorem witness_PlainRegisterWritesReadBack :
    Reg.inPtr ∈ [Reg.argOff, .argLen, .inPtr, .type, .crcAcc, .ftIndex]
      ∧ (facing (regWriteAt 0x014 0xFFFFFFFF) whole).pending
        = .access ⟨.reg, Reg.offset .inPtr, 32, .write (.lit 0xFFFFFFFF)⟩ :: [] := by decide

theorem witness_InLenAndOutPtrWritesAreClamped :
    (facing (regWriteAt 0x010 65) whole).pending = .access ⟨.reg, 0x010, 32, .write (.lit 65)⟩ :: []
      ∧ (facing (regWriteAt 0x018 65) whole).pending = .access ⟨.reg, 0x018, 32, .write (.lit 65)⟩ :: [] := by decide

theorem witness_StatusWordHasItsFields :
    (facing (regWriteAt 0x014 18) whole).pending = .access ⟨.reg, 0x014, 32, .write (.lit 18)⟩ :: []
      ∧ (facing (regWriteAt 0x010 0) whole).pending = .access ⟨.reg, 0x010, 32, .write (.lit 0)⟩ :: [] := by decide

theorem witness_BufferBytesReadBack :
    63 < State.reset.params.inCap.toNat ∧ 63 < State.reset.params.outCap.toNat
      ∧ (facing (byteAccess .inBuf 63 (.write (.lit ((0xFF : Byte).setWidth 32)))) State.reset).pending
        = byteAccess .inBuf 63 (.write (.lit ((0xFF : Byte).setWidth 32))) :: []
      ∧ (facing (byteAccess .outBuf 63 .read) State.reset).pending = byteAccess .outBuf 63 .read :: [] := by decide

theorem witness_FrameTableWindowShowsTheSelectedEntry :
    { whole with frameCount := 1, ft := [secretEntry] }.ftIndex.toNat < (1 : Word).toNat
      ∧ (1 : Word).toNat ≤ { whole with frameCount := 1, ftIndex := 1 }.ftIndex.toNat
      ∧ (Reg.ftCrc, 0x050) ∈ [(Reg.ftType, 0x044), (.ftLen, 0x048), (.ftDataOff, 0x04C), (.ftCrc, 0x050)]
      ∧ (facing (.access ⟨.reg, 0x050, 32, .read⟩) whole).pending = .access ⟨.reg, 0x050, 32, .read⟩ :: []
      ∧ (facing (regWriteAt 0x044 1) whole).pending = .access ⟨.reg, 0x044, 32, .write (.lit 1)⟩ :: [] := by decide

theorem witness_IdentityAndCapacitiesAreConstant :
    (facing (regWriteAt 0x068 9) whole).pending = .access ⟨.reg, 0x068, 32, .write (.lit 9)⟩ :: []
      ∧ after (step (facing (regWriteAt 0x068 9) whole)) (readReg · .capFrames) = some 4 := by decide

theorem witness_OutToInCopiesTheBytes :
    64 ≤ State.reset.params.inCap.toNat ∧ 64 ≤ State.reset.params.outCap.toNat := by decide

/-- The hypothesis of ResetLoadsTheResetValues, ResetKeepsBuffersAndTable and AbandonedCommandTouchesOnlyItsOwnOutput. -/
theorem witness_reset_pending :
    (facing .reset whole).pending = .reset :: [] ∧ (facing (.resetDuring 0x30) whole).pending = .resetDuring 0x30 :: [] := by
  decide

/-- The abandoned SIG_EMIT moves OUT_PTR's range 0 to 8, and the step after is the bus error. -/
theorem witness_AbandonedCommandTouchesOnlyItsOwnOutput :
    abandonedEnd 0x30 whole = 8 ∧ after (step (facing (.resetDuring 0x30) whole)) (fun t => (faultOf (step t), t.draws))
      = some (some .resetDuringCommand, 1) := by decide

/-- A run whose last event is such a reset, which its second clause takes in, ends in the fault. -/
theorem witness_run_ends_in_an_abandoned_command :
    .resetDuring 0x30 ∈ [cmdWrite 0x00, .resetDuring 0x30]
      ∧ faultOf (runProgram [cmdWrite 0x00, .resetDuring 0x30] whole) = some .resetDuringCommand
      ∧ after (runProgram [cmdWrite 0x00, .reset] whole) (·.status.anyErr) = some false := by decide

theorem witness_PowerOnStateHasTheInvariant : Config.params.ok = true := by decide

/-- The invariant holds after reset, and the step of a SIG_EMIT there answers a next state. -/
theorem witness_StepKeepsTheInvariant :
    State.reset.Inv ∧ after (step (State.reset.withFetchWord 32 0x30)) (·.outPtr) = some 8 := by
  refine ⟨⟨by decide, by decide, by decide, by decide, by decide, by decide, ?_, by decide, by decide, ?_, ?_⟩, by decide⟩
  · intro e he
    cases he
  · intro c hc
    cases hc
  · intro c hc
    cases hc

end Sys2Proof.Tests
end

section
/-! Proofs about the host's registers and STATUS (10_state.md): the register file as the host port reads and writes it. -/

namespace Sys2Proof.Machine

/-! ## The register map -/

/-- `regAt` finds a register at its own offset and nowhere else (10_state.md R22). -/
theorem regAt_eq_some_iff {off : Nat} {r : Reg} : regAt off = some r ↔ off = r.offset := by
  constructor
  · intro h
    unfold regAt at h
    split at h <;> cases h <;> rfl
  · rintro rfl
    exact regAt_offset r

/-- No register stands past 0x068, so the offsets from 0x06C on are reserved (10_state.md R52). -/
theorem regAt_reserved {off : Nat} (h : 0x06C ≤ off) : regAt off = none := by
  rw [Option.eq_none_iff_forall_ne_some]
  intro r hr
  have hmax : r.offset ≤ 0x068 := by cases r <;> decide
  have hoff := regAt_eq_some_iff.1 hr
  omega

/-! ## Which accesses are admitted (20_memory.md R61 to R63) -/

theorem accessFault_reg_eq_none_iff {p : Params} {off w : Nat} {op : HostOp} :
    accessFault p ⟨.reg, off, w, op⟩ = none ↔ w = 32 ∧ off % 4 = 0 ∧ off < 4096 := by
  simp only [accessFault]
  split_ifs <;> simp <;> omega

theorem accessFault_inBuf_eq_none_iff {p : Params} {off w : Nat} {op : HostOp} :
    accessFault p ⟨.inBuf, off, w, op⟩ = none ↔ w = 8 ∧ off < p.inCap.toNat := by
  simp only [accessFault]
  split_ifs <;> simp <;> omega

theorem accessFault_outBuf_eq_none_iff {p : Params} {off w : Nat} {op : HostOp} :
    accessFault p ⟨.outBuf, off, w, op⟩ = none ↔ w = 8 ∧ off < p.outCap.toNat := by
  simp only [accessFault]
  split_ifs <;> simp <;> omega

/-! ## Register reads and writes -/

/-- What the host still has to do is no part of what a register reads. -/
@[simp] theorem readReg_pending (s : State) (p : List HostEvent) (r : Reg) :
    readReg { s with pending := p } r = readReg s r := by
  cases r <;> rfl

/-- What the host still has to do is no part of the value it writes. -/
@[simp] theorem word_pending (s : State) (p : List HostEvent) (v : HostValue) :
    v.word { s with pending := p } = v.word s := by
  cases v <;> rfl

@[simp] theorem writeReg_status (r : Reg) (v : Word) (s : State) : (writeReg r v s).status = s.status := by
  cases r <;> rfl

@[simp] theorem writeReg_params (r : Reg) (v : Word) (s : State) : (writeReg r v s).params = s.params := by
  cases r <;> rfl

/-- The registers with access `R` in 10_state.md R22. -/
def readOnlyRegs : List Reg :=
  [.status, .typeFlags, .crcResult, .len, .dataOff, .storedCrc, .computedCrc, .frameCount, .ftType, .ftLen,
    .ftDataOff, .ftCrc, .errOff, .errFrame, .id, .capIn, .capOut, .capFrames]

/-- A read-only register ignores a write (10_state.md R54). -/
theorem writeReg_readOnly {r : Reg} (h : r ∈ readOnlyRegs) (v : Word) (s : State) : writeReg r v s = s := by
  unfold readOnlyRegs at h
  fin_cases h <;> rfl

/-! ## One step, for the register accesses -/

/-- A host write to a register other than CMD, by its offset. -/
theorem step_regWrite {s : State} {r : Reg} {v : HostValue} {rest : List HostEvent} (hr : r ≠ .cmd)
    (h : s.pending = .access ⟨.reg, r.offset, 32, .write v⟩ :: rest) :
    step s = .next (writeReg r (v.word s) { s with pending := rest }) := by
  rw [step_cons h]
  simp only [hostEvent, hostAccess, accessFault_reg, hostWrite, regAt_offset, word_pending]

/-- A host write to a read-only register changes nothing. -/
theorem step_readOnlyWrite {s : State} {r : Reg} {v : HostValue} {rest : List HostEvent} (hr : r ∈ readOnlyRegs)
    (h : s.pending = .access ⟨.reg, r.offset, 32, .write v⟩ :: rest) : step s = .next { s with pending := rest } := by
  have hcmd : r ≠ .cmd := by
    rintro rfl
    exact absurd hr (by decide)
  rw [step_regWrite hcmd h, writeReg_readOnly hr]

/-- A host read of a register puts its value into the host's log and changes nothing else. -/
theorem step_regRead {s : State} {r : Reg} {rest : List HostEvent}
    (h : s.pending = .access ⟨.reg, r.offset, 32, .read⟩ :: rest) :
    step s = .next { s with pending := rest, hostReads := readReg s r :: s.hostReads } := by
  rw [step_cons h]
  simp only [hostEvent, hostAccess, accessFault_reg, hostRead, regAt_offset, readReg_pending]

/-- A host write to a reserved offset changes nothing (10_state.md R52). -/
theorem step_reservedWrite {s : State} {off : Nat} {v : HostValue} {rest : List HostEvent} (hlo : 0x06C ≤ off)
    (hhi : off < 4096) (h4 : off % 4 = 0) (h : s.pending = .access ⟨.reg, off, 32, .write v⟩ :: rest) :
    step s = .next { s with pending := rest } := by
  rw [step_cons h]
  simp only [hostEvent, hostAccess, accessFault_reg_eq_none_iff.2 ⟨rfl, h4, hhi⟩, hostWrite, regAt_reserved hlo]

/-- A host read of a reserved offset returns 0 (10_state.md R52). -/
theorem step_reservedRead {s : State} {off : Nat} {rest : List HostEvent} (hlo : 0x06C ≤ off)
    (hhi : off < 4096) (h4 : off % 4 = 0) (h : s.pending = .access ⟨.reg, off, 32, .read⟩ :: rest) :
    step s = .next { s with pending := rest, hostReads := 0 :: s.hostReads } := by
  rw [step_cons h]
  simp only [hostEvent, hostAccess, accessFault_reg_eq_none_iff.2 ⟨rfl, h4, hhi⟩, hostRead, regAt_reserved hlo]

/-! ## The frame table window (10_state.md R47) -/

theorem ftWindow_below {s : State} (h : s.ftIndex.toNat < s.frameCount.toNat) (field : FrameEntry → Word) :
    ftWindow s field = field (ftEntry s s.ftIndex.toNat) := if_pos h

theorem ftWindow_past {s : State} (h : s.frameCount.toNat ≤ s.ftIndex.toNat) (field : FrameEntry → Word) :
    ftWindow s field = 0 := if_neg (Nat.not_lt.2 h)

/-- The registers of the frame table window, at their offsets (10_state.md R22). -/
theorem ftWindow_registers {r : Reg} {off : Nat}
    (h : (r, off) ∈ [(Reg.ftType, 0x044), (.ftLen, 0x048), (.ftDataOff, 0x04C), (.ftCrc, 0x050)]) :
    off = r.offset ∧ r ∈ readOnlyRegs := by
  fin_cases h <;> decide

end Sys2Proof.Machine

namespace Sys2Proof.Proofs

open Sys2Proof Sys2Proof.Machine

/-- Settles O53: the two cases of the window, and each of its registers read and written as any read-only register. -/
theorem frameTableWindowShowsTheSelectedEntry : Obligations.FrameTableWindowShowsTheSelectedEntry := by
  refine ⟨fun s h => ?_, fun s h => ?_, fun s r off rest hr => ?_⟩
  · exact ⟨ftWindow_below h _, ftWindow_below h _, ftWindow_below h _, ftWindow_below h _⟩
  · exact ⟨ftWindow_past h _, ftWindow_past h _, ftWindow_past h _, ftWindow_past h _⟩
  · obtain ⟨rfl, hro⟩ := ftWindow_registers hr
    exact ⟨step_regRead, fun v => step_readOnlyWrite hro⟩

/-- Settles O49: a register write of a read-only register, and the two accesses to an offset that holds none. -/
theorem readOnlyAndReservedWritesAreIgnored : Obligations.ReadOnlyAndReservedWritesAreIgnored := by
  refine ⟨fun s r v rest hr h => step_readOnlyWrite hr h, fun s off v rest hlo hhi h4 h => ?_,
    fun s off rest hlo hhi h4 h => ?_⟩
  · exact step_reservedWrite hlo (by omega) h4 h
  · exact step_reservedRead hlo (by omega) h4 h

end Sys2Proof.Proofs
end

section
/-! The STATUS word, bit by bit (10_state.md R24, R27). -/

namespace Sys2Proof.Machine

/-- The four flags of STATUS (10_state.md R24). -/
theorem statusWord_flags (s : State) :
    (statusWord s).getLsbD 0 = s.status.err ∧ (statusWord s).getLsbD 1 = s.status.eq
      ∧ (statusWord s).getLsbD 2 = eos s ∧ (statusWord s).getLsbD 3 = s.status.anyErr := by
  simp only [statusWord, BitVec.getLsbD_append]
  simp

/-- The wider fields of STATUS: each is what is left when the fields below it are cut off (10_state.md R24). -/
theorem statusWord_fields (s : State) :
    (statusWord s).extractLsb' 4 4 = 0 ∧ (statusWord s).extractLsb' 8 4 = s.status.errCode
      ∧ (statusWord s).extractLsb' 12 4 = s.status.errSub ∧ (statusWord s).extractLsb' 16 16 = 0 := by
  unfold statusWord
  refine ⟨?_, ?_, ?_, ?_⟩ <;> repeat rw [BitVec.extractLsb'_append_eq_of_le (by decide)]
  · exact BitVec.extractLsb'_append_eq_right
  · exact BitVec.extractLsb'_append_eq_right
  · exact BitVec.extractLsb'_append_eq_right
  · exact BitVec.extractLsb'_eq_self

/-- EOS, bit 2 of a read of STATUS, is computed at the read (10_state.md R27). -/
theorem readReg_status_eos (s : State) : (readReg s .status).getLsbD 2 = true ↔ s.inPtr = s.inLen := by
  obtain ⟨-, -, heos, -⟩ := statusWord_flags s
  rw [readReg, heos, eos, beq_iff_eq]

end Sys2Proof.Machine

namespace Sys2Proof.Proofs

open Sys2Proof Sys2Proof.Machine

/-- Settles O44: the fields of the word, and EOS as the comparison of what a write or a reset has just left. -/
theorem statusWordHasItsFields : Obligations.StatusWordHasItsFields := by
  refine ⟨fun s => ?_, fun s v rest h => ?_, fun s v rest h => ?_, fun p => (readReg_status_eos _).2 rfl⟩
  · obtain ⟨herr, heq, -, hany⟩ := statusWord_flags s
    exact ⟨herr, heq, readReg_status_eos s, hany, statusWord_fields s⟩
  · exact ⟨_, step_regWrite (r := .inPtr) (by decide) h, readReg_status_eos _⟩
  · refine ⟨_, step_regWrite (r := .inLen) (by decide) h, (readReg_status_eos _).trans ?_⟩
    rw [← BitVec.toNat_inj]
    exact Eq.congr_right (clamp_toNat v s.params.inCap)

end Sys2Proof.Proofs
end

section
/-! How a command ends (40_control.md R110, 60_exceptions.md R240): STATUS before its success writes, and what a command
keeps on both ends. -/

namespace Sys2Proof.Machine

/-- STATUS when a command that succeeds reaches its success writes: NOP has cleared ANYERR (40_control.md R115), TYPE_CMP
has written EQ (41_chunk_type.md R142), and no other command has written it. -/
def statusAtSuccess (i : Instr) (s : State) : Status :=
  match i with
  | .nop => { s.status with anyErr := false }
  | .typeCmp => { s.status with eq := s.typeReg == be32 (window s 4) }
  | _ => s.status

theorem statusAtSuccess_anyErr {i : Instr} (h : i ≠ .nop) (s : State) :
    (statusAtSuccess i s).anyErr = s.status.anyErr := by
  unfold statusAtSuccess
  split
  · exact absurd rfl h
  · rfl
  · rfl

theorem statusAtSuccess_eq {i : Instr} (h : i ≠ .typeCmp) (s : State) : (statusAtSuccess i s).eq = s.status.eq := by
  unfold statusAtSuccess
  split
  · rfl
  · exact absurd rfl h
  · rfl

/-- The outcomes of command `i` from `s`: the success writes on a state `u` or a raise on one, where `u` holds the
command's own writes. NOP does not fail. -/
inductive CommandEnds (i : Instr) (s : State) : Host.Outcome State Fault Refusal → Prop where
  | success (u : State) (run : RunKept s u) (status : u.status = statusAtSuccess i s) :
      CommandEnds i s (.next (complete u))
  | failure (e sub : ErrorKind) (u : State) (not_nop : i ≠ .nop) (run : RunKept s u) (status : u.status = s.status) :
      CommandEnds i s (.next (raise e sub u))

/-- A command that makes a check ends as one of the two branches does. -/
theorem CommandEnds.ite {i : Instr} {s : State} {c : Prop} [Decidable c] {a b : Host.Outcome State Fault Refusal}
    (ha : CommandEnds i s a) (hb : CommandEnds i s b) : CommandEnds i s (if c then a else b) := by
  split
  · exact ha
  · exact hb

theorem runKept_refl (s : State) : RunKept s s := ⟨rfl, rfl, rfl, rfl⟩

/-- Every command ends by success or by `raise`. -/
theorem exec_ends (i : Instr) (s : State) : CommandEnds i s (exec i s) := by
  have kept := runKept_refl s
  cases i with
  | nop => exact .success _ kept rfl
  | crcInit => exact .success _ kept rfl
  | crcFeed => exact .ite (.success _ kept rfl) (.failure _ _ _ (by decide) kept rfl)
  | crcFinal => exact .success _ kept rfl
  | crcCompute => exact .ite (.success _ kept rfl) (.failure _ _ _ (by decide) kept rfl)
  | typeFromBytes => exact .ite (.success _ kept rfl) (.failure _ _ _ (by decide) kept rfl)
  | typeFromString =>
    have hfail e : CommandEnds .typeFromString s (.next (raise e .none s)) := .failure _ _ _ (by decide) kept rfl
    exact .ite (.ite (.ite (.success _ kept rfl) (hfail _)) (hfail _)) (hfail _)
  | typeCmp => exact .ite (.success _ kept rfl) (.failure _ _ _ (by decide) kept rfl)
  | frameSerialize =>
    have hfail e : CommandEnds .frameSerialize s (.next (raise e .none s)) := .failure _ _ _ (by decide) kept rfl
    exact .ite (.ite (.success _ kept rfl) (hfail _)) (hfail _)
  | frameParse =>
    refine .ite ?_ (.failure _ _ _ (by decide) kept rfl)
    split
    · exact .failure _ _ _ (by decide) kept rfl
    · exact .failure _ _ _ (by decide) kept rfl
    · exact .success _ kept rfl
  | frameParseEmit =>
    refine .ite ?_ (.failure _ _ _ (by decide) kept rfl)
    split
    · exact .failure _ _ _ (by decide) kept rfl
    · exact .failure _ _ _ (by decide) kept rfl
    · exact .ite (.success _ kept rfl) (.failure _ _ _ (by decide) kept rfl)
  | sigEmit => exact .ite (.success _ kept rfl) (.failure _ _ _ (by decide) kept rfl)
  | sigCheck =>
    exact .ite (.ite (.success _ kept rfl) (.failure _ _ _ (by decide) kept rfl)) (.failure _ _ _ (by decide) kept rfl)
  | streamParse =>
    refine .ite (.ite ?_ (.failure _ _ _ (by decide) kept rfl)) (.failure _ _ _ (by decide) kept rfl)
    split
    · exact .failure _ _ _ (by decide) kept rfl
    · exact .failure _ _ _ (by decide) kept rfl
    · exact .failure _ _ _ (by decide) kept rfl
    · exact .success _ kept rfl

/-- No command changes the parameters or the host's side of the run. -/
theorem exec_runKept {i : Instr} {s t : State} (h : exec i s = .next t) : RunKept s t := by
  have hends := exec_ends i s
  rw [h] at hends
  cases hends with
  | success _ run _ => exact run
  | failure _ _ _ _ run _ => exact run

/-- STATUS after a command: the success writes, or the writes of a raise. -/
theorem exec_status {i : Instr} {s t : State} (h : exec i s = .next t) :
    t.status = { statusAtSuccess i s with err := false, errCode := 0, errSub := 0 }
      ∨ i ≠ .nop ∧ ∃ e sub : ErrorKind,
          t.status = { s.status with err := true, anyErr := true, errCode := e.code, errSub := sub.code } := by
  have hends := exec_ends i s
  rw [h] at hends
  cases hends with
  | success _ _ status => exact .inl (by rw [complete_status, status])
  | failure e sub _ not_nop _ status => exact .inr ⟨not_nop, e, sub, by rw [raise_status, status]⟩

/-! ## ANYERR (10_state.md R28) -/

theorem exec_failure_sets_anyErr {i : Instr} {s t : State} (h : exec i s = .next t) (he : t.status.err = true) :
    t.status.anyErr = true := by
  obtain hs | ⟨-, e, sub, hs⟩ := exec_status h
  · simp [hs] at he
  · rw [hs]

theorem exec_success_keeps_anyErr {i : Instr} {s t : State} (h : exec i s = .next t) (he : t.status.err = false)
    (hi : i ≠ .nop) : t.status.anyErr = s.status.anyErr := by
  obtain hs | ⟨-, e, sub, hs⟩ := exec_status h
  · rw [hs]
    exact statusAtSuccess_anyErr hi s
  · simp [hs] at he

theorem exec_nop_clears_anyErr {s t : State} (h : exec .nop s = .next t) : t.status.anyErr = false := by
  cases h
  rfl

/-- A command that clears ANYERR is NOP. -/
theorem nop_of_exec_clears_anyErr {i : Instr} {s t : State} (h : exec i s = .next t) (hs : s.status.anyErr = true)
    (ht : t.status.anyErr = false) : i = .nop := by
  by_contra hi
  cases he : t.status.err with
  | true => simp [exec_failure_sets_anyErr h he] at ht
  | false => simp [exec_success_keeps_anyErr h he hi, hs] at ht

/-! ## EQ (10_state.md R26) -/

/-- Only a TYPE_CMP that completes writes EQ. -/
theorem exec_keeps_eq {i : Instr} {s t : State} (h : exec i s = .next t) (hi : i ≠ .typeCmp ∨ t.status.err = true) :
    t.status.eq = s.status.eq := by
  obtain hs | ⟨-, e, sub, hs⟩ := exec_status h
  · have hcmp : i ≠ .typeCmp := hi.resolve_right (by simp [hs])
    rw [hs]
    exact statusAtSuccess_eq hcmp s
  · rw [hs]

/-- A command that changes EQ is a TYPE_CMP that completes. -/
theorem typeCmp_of_exec_changes_eq {i : Instr} {s t : State} (h : exec i s = .next t)
    (hne : t.status.eq ≠ s.status.eq) : i = .typeCmp ∧ t.status.err = false := by
  have hnot : ¬ (i ≠ .typeCmp ∨ t.status.err = true) := mt (exec_keeps_eq h) hne
  simpa using hnot

/-- Equality of the packed values is equality byte for byte (41_chunk_type.md R138). -/
theorem eq_be32_iff {v : Word} {bs : List Byte} (h : bs.length = 4) : v = be32 bs ↔ be32bytes v = bs := by
  constructor
  · rintro rfl
    exact be32bytes_be32 h
  · rintro rfl
    exact (be32_be32bytes v).symm

/-- A TYPE_CMP that completes leaves in EQ whether TYPE has the bytes of the window. -/
theorem exec_typeCmp_eq {s t : State} (h : exec .typeCmp s = .next t) (he : t.status.err = false) :
    t.status.eq = true ↔ be32bytes s.typeReg = window s 4 := by
  obtain hs | ⟨-, e, sub, hs⟩ := exec_status h
  · rw [hs, ← eq_be32_iff (window_length s 4)]
    exact beq_iff_eq
  · simp [hs] at he

end Sys2Proof.Machine
end

section
/-! What one step can do: the host access, the CMD write and the reset, each said once. -/

namespace Sys2Proof.Machine

/-- A CMD write runs the decoded command with CMD stored, or fails with ILLEGAL_COMMAND (40_control.md R110). -/
theorem issue_cases {w : Word} {s t : State} (h : issue w s = .next t) :
    (∃ i, decode w = .command i ∧ exec i { s with cmd := w } = .next t)
      ∨ (∀ i, decode w ≠ .command i) ∧ t = raise .illegalCommand .none { s with cmd := w } := by
  unfold issue at h
  split at h
  · next i hi => exact .inl ⟨i, hi, h⟩
  · next why hw =>
    cases h
    exact .inr ⟨by simp [hw], rfl⟩

theorem issue_runKept {w : Word} {s t : State} (h : issue w s = .next t) : RunKept s t := by
  obtain ⟨i, -, hi⟩ | ⟨-, rfl⟩ := issue_cases h
  · have hrun := exec_runKept hi
    exact hrun
  · exact runKept_refl s

/-- What an admitted host access does to a state (20_memory.md R61 to R63). -/
inductive AccessEffect (s : State) : HostAccess → State → Prop where
  /-- A read: the value goes to the host's log. -/
  | read (sp : Space) (off width : Nat) :
      AccessEffect s ⟨sp, off, width, .read⟩ { s with hostReads := hostRead s sp off :: s.hostReads }
  /-- A CMD write: the word is issued. -/
  | command (v : HostValue) {t : State} (issued : issue (v.word s) s = .next t) :
      AccessEffect s ⟨.reg, 0x000, 32, .write v⟩ t
  /-- A write of another register. -/
  | register (r : Reg) (v : HostValue) (not_cmd : r ≠ .cmd) :
      AccessEffect s ⟨.reg, r.offset, 32, .write v⟩ (writeReg r (v.word s) s)
  /-- A write to an offset without a register. -/
  | reserved (off : Nat) (v : HostValue) (no_reg : regAt off = none) : AccessEffect s ⟨.reg, off, 32, .write v⟩ s
  /-- A byte write to IN_BUF. -/
  | inBuf (off : Nat) (v : HostValue) (inside : off < s.params.inCap.toNat) :
      AccessEffect s ⟨.inBuf, off, 8, .write v⟩ { s with inBuf := s.inBuf.write off ((v.word s).setWidth 8) }
  /-- A byte write to OUT_BUF. -/
  | outBuf (off : Nat) (v : HostValue) (inside : off < s.params.outCap.toNat) :
      AccessEffect s ⟨.outBuf, off, 8, .write v⟩ { s with outBuf := s.outBuf.write off ((v.word s).setWidth 8) }

/-- A write to the register space that ends in a next state. -/
theorem hostWrite_reg_effect {off : Nat} {v : HostValue} {s t : State} (h : hostWrite (v.word s) s .reg off = .next t) :
    AccessEffect s ⟨.reg, off, 32, .write v⟩ t := by
  simp only [hostWrite] at h
  split at h
  · next hr =>
    obtain rfl : off = 0x000 := regAt_eq_some_iff.1 hr
    exact .command v h
  · next r hcmd hr =>
    obtain rfl := regAt_eq_some_iff.1 hr
    cases h
    exact .register r v hcmd
  · next hr =>
    cases h
    exact .reserved off v hr

/-- Every host access that ends in a next state has one of these effects. -/
theorem hostAccess_effect {a : HostAccess} {s t : State} (h : hostAccess a s = .next t) : AccessEffect s a t := by
  obtain ⟨sp, off, width, op⟩ := a
  unfold hostAccess at h
  split at h
  · cases h
  · next hadm =>
    cases op with
    | read =>
      cases h
      exact .read sp off width
    | write v =>
      cases sp with
      | reg =>
        obtain ⟨rfl, -, -⟩ := accessFault_reg_eq_none_iff.1 hadm
        exact hostWrite_reg_effect h
      | inBuf =>
        obtain ⟨rfl, hoff⟩ := accessFault_inBuf_eq_none_iff.1 hadm
        cases h
        exact .inBuf off v hoff
      | outBuf =>
        obtain ⟨rfl, hoff⟩ := accessFault_outBuf_eq_none_iff.1 hadm
        cases h
        exact .outBuf off v hoff

/-- What one step can do: stay idle, take a host access, reset, or reset during a command. -/
theorem step_cases {s t : State} (h : step s = .next t) :
    s.pending = [] ∧ t = s ∨ ∃ rest,
      (∃ a, s.pending = .access a :: rest ∧ AccessEffect { s with pending := rest } a t)
        ∨ s.pending = .reset :: rest ∧ t = assertReset { s with pending := rest }
        ∨ ∃ w, s.pending = .resetDuring w :: rest ∧ t = abandon w { s with pending := rest } := by
  cases hp : s.pending with
  | nil =>
    rw [step_nil hp] at h
    cases h
    exact .inl ⟨rfl, rfl⟩
  | cons e rest =>
    rw [step_cons hp] at h
    refine .inr ⟨rest, ?_⟩
    cases e with
    | access a => exact .inl ⟨a, rfl, hostAccess_effect h⟩
    | reset =>
      cases h
      exact .inr (.inl ⟨rfl, rfl⟩)
    | resetDuring w =>
      cases h
      exact .inr (.inr ⟨w, rfl, rfl⟩)
    | abandonedReply => cases h

/-- Among the host accesses only a CMD write changes STATUS. -/
theorem AccessEffect.status_kept_or_command {s t : State} {a : HostAccess} (h : AccessEffect s a t) :
    t.status = s.status ∨ ∃ v, a = ⟨.reg, 0x000, 32, .write v⟩ ∧ issue (v.word s) s = .next t := by
  cases h with
  | command v issued => exact .inr ⟨v, rfl, issued⟩
  | register r v _ => exact .inl (writeReg_status r _ s)
  | read => exact .inl rfl
  | reserved => exact .inl rfl
  | inBuf => exact .inl rfl
  | outBuf => exact .inl rfl

/-- The steps that can change STATUS: a reset, a reset during a command, and a CMD write. -/
theorem step_status_kept_or {s t : State} (h : step s = .next t) :
    t.status = s.status ∨ ∃ rest, s.pending = .reset :: rest ∨ (∃ w, s.pending = .resetDuring w :: rest)
      ∨ ∃ v, s.pending = .access ⟨.reg, 0x000, 32, .write v⟩ :: rest
          ∧ issue (v.word s) { s with pending := rest } = .next t := by
  obtain ⟨-, rfl⟩ | ⟨rest, ⟨a, hp, ha⟩ | ⟨hp, -⟩ | ⟨w, hp, -⟩⟩ := step_cases h
  · exact .inl rfl
  · obtain hs | ⟨v, rfl, hv⟩ := ha.status_kept_or_command
    · exact .inl hs
    · rw [word_pending] at hv
      exact .inr ⟨rest, .inr (.inr ⟨v, hp, hv⟩)⟩
  · exact .inr ⟨rest, .inl hp⟩
  · exact .inr ⟨rest, .inr (.inl ⟨w, hp⟩)⟩

/-- No host access changes the parameters. -/
theorem AccessEffect.params_kept {s t : State} {a : HostAccess} (h : AccessEffect s a t) : t.params = s.params := by
  cases h with
  | command v issued =>
    obtain ⟨hparams, -⟩ := issue_runKept issued
    exact hparams
  | register r v _ => exact writeReg_params r _ s
  | read => rfl
  | reserved => rfl
  | inBuf => rfl
  | outBuf => rfl

/-- No step changes the parameters (00_scope.md R5). -/
theorem step_params {s t : State} (h : step s = .next t) : t.params = s.params := by
  obtain ⟨-, rfl⟩ | ⟨rest, ⟨a, -, ha⟩ | ⟨-, rfl⟩ | ⟨w, -, rfl⟩⟩ := step_cases h
  · rfl
  · exact ha.params_kept
  · rfl
  · rfl

/-- The constant registers, at their offsets (10_state.md R22, R49, R51). -/
theorem constant_offsets {off : Nat} (h : off ∈ [0x05C, 0x060, 0x064, 0x068]) :
    ∃ r ∈ readOnlyRegs, off = r.offset := by
  fin_cases h
  · exact ⟨.id, by decide, rfl⟩
  · exact ⟨.capIn, by decide, rfl⟩
  · exact ⟨.capOut, by decide, rfl⟩
  · exact ⟨.capFrames, by decide, rfl⟩

end Sys2Proof.Machine

namespace Sys2Proof.Proofs

open Sys2Proof Sys2Proof.Machine

/-- Settles O54: the reads, the parameters over every step, and a write as to any read-only register. -/
theorem identityAndCapacitiesAreConstant : Obligations.IdentityAndCapacitiesAreConstant := by
  refine ⟨fun s => ⟨rfl, rfl, rfl, rfl⟩, fun s t h => step_params h, fun s off v rest hoff h => ?_⟩
  obtain ⟨r, hr, rfl⟩ := constant_offsets hoff
  exact step_readOnlyWrite hr h

/-- Settles O45: the two ends of a command, and that no step but a reset or a CMD write touches STATUS. -/
theorem anyErrClearedOnlyByNopAndReset : Obligations.AnyErrClearedOnlyByNopAndReset := by
  refine ⟨fun i s t h => ⟨exec_failure_sets_anyErr h, exec_success_keeps_anyErr h, ?_⟩, fun w s t hw h => ?_,
    fun s t h hs ht => ?_, fun s => rfl, fun p => rfl⟩
  · rintro rfl
    exact exec_nop_clears_anyErr h
  · obtain ⟨i, hi, -⟩ | ⟨-, rfl⟩ := issue_cases h
    · exact absurd hi (hw i)
    · rfl
  · obtain hkept | ⟨rest, hp | hp | ⟨v, hp, hv⟩⟩ := step_status_kept_or h
    · simp [hkept, hs] at ht
    · exact ⟨rest, .inl hp⟩
    · exact ⟨rest, .inr (.inl hp)⟩
    · obtain ⟨i, hd, hi⟩ | ⟨-, rfl⟩ := issue_cases hv
      · obtain rfl := nop_of_exec_clears_anyErr hi hs ht
        exact ⟨rest, .inr (.inr ⟨v, hp, hd⟩)⟩
      · cases ht

/-- Settles O46: what TYPE_CMP compares, that no other end of a command writes EQ, and which steps touch STATUS. -/
theorem eqWrittenOnlyByTypeCmp : Obligations.EqWrittenOnlyByTypeCmp := by
  refine ⟨fun s t h he => exec_typeCmp_eq h he, fun i s t h hi => exec_keeps_eq h hi, fun s t h hne => ?_,
    fun s => rfl, fun p => rfl⟩
  obtain hkept | ⟨rest, hp | hp | ⟨v, hp, hv⟩⟩ := step_status_kept_or h
  · exact absurd (congrArg Status.eq hkept) hne
  · exact ⟨rest, .inl hp⟩
  · exact ⟨rest, .inr (.inl hp)⟩
  · obtain ⟨i, hd, hi⟩ | ⟨-, rfl⟩ := issue_cases hv
    · obtain ⟨rfl, he⟩ := typeCmp_of_exec_changes_eq hi hne
      exact ⟨rest, .inr (.inr ⟨v, hp, hd, he⟩)⟩
    · exact absurd rfl hne

end Sys2Proof.Proofs
end

section
/-! Proofs about the host's accesses to the address spaces (20_memory.md): which are bus errors, and the buffer bytes. -/

namespace Sys2Proof.Machine

/-! ## Bus errors (20_memory.md R63) -/

/-- A host access is taken with the state it meets, but for what is pending. -/
theorem step_access {s : State} {a : HostAccess} {rest : List HostEvent} (h : s.pending = .access a :: rest) :
    step s = hostAccess a { s with pending := rest } := step_cons h

/-- The step of a host access is a fault just when the access is not admitted. -/
theorem step_access_fault_iff {s : State} {a : HostAccess} {rest : List HostEvent} (h : s.pending = .access a :: rest) :
    (∃ f, step s = .fault f) ↔ accessFault s.params a ≠ none := by
  rw [step_access h]
  obtain ⟨hadm, t, ht⟩ | ⟨f, hf, hfault⟩ := hostAccess_ends a { s with pending := rest }
  · simp [ht, hadm]
  · simp [hfault, hf]

/-- The step of a host access is never a refusal. -/
theorem step_access_ends {s : State} {a : HostAccess} {rest : List HostEvent} (h : s.pending = .access a :: rest) :
    (∃ t, step s = .next t) ∨ ∃ f, step s = .fault f := by
  rw [step_access h]
  obtain ⟨-, ht⟩ | ⟨f, -, hfault⟩ := hostAccess_ends a { s with pending := rest }
  · exact .inl ht
  · exact .inr ⟨f, hfault⟩

/-- The accesses that are not admitted: the three spaces of 20_memory.md R63, a REG offset lying inside the space. -/
theorem accessFault_ne_none_iff {p : Params} {a : HostAccess} (hoff : a.space = .reg → a.offset < 4096) :
    accessFault p a ≠ none ↔
      (a.space = .reg ∧ (a.width ≠ 32 ∨ a.offset % 4 ≠ 0))
        ∨ ((a.space = .inBuf ∨ a.space = .outBuf) ∧ a.width ≠ 8)
        ∨ (a.space = .inBuf ∧ p.inCap.toNat ≤ a.offset)
        ∨ (a.space = .outBuf ∧ p.outCap.toNat ≤ a.offset) := by
  obtain ⟨sp, off, width, op⟩ := a
  cases sp with
  | reg =>
    have hin : off < 4096 := hoff rfl
    rw [Ne, accessFault_reg_eq_none_iff]
    simp [hin, imp_iff_not_or]
  | inBuf =>
    rw [Ne, accessFault_inBuf_eq_none_iff]
    simp [imp_iff_not_or]
  | outBuf =>
    rw [Ne, accessFault_outBuf_eq_none_iff]
    simp [imp_iff_not_or]

/-! ## Buffer bytes (20_memory.md R62) -/

/-- No register shows a byte of IN_BUF. -/
theorem regsKept_inBuf (s : State) (p : List HostEvent) (m : Memory) :
    RegsKeptBut [] s { s with pending := p, inBuf := m } := by
  intro r _
  cases r <;> rfl

/-- No register shows a byte of OUT_BUF. -/
theorem regsKept_outBuf (s : State) (p : List HostEvent) (m : Memory) :
    RegsKeptBut [] s { s with pending := p, outBuf := m } := by
  intro r _
  cases r <;> rfl

/-- A byte write to IN_BUF stores the byte at its offset. -/
theorem step_inBufWrite {s : State} {k : Nat} {v : HostValue} {rest : List HostEvent} (hk : k < s.params.inCap.toNat)
    (h : s.pending = byteAccess .inBuf k (.write v) :: rest) :
    step s = .next { s with pending := rest, inBuf := s.inBuf.write k ((v.word s).setWidth 8) } := by
  rw [step_access h]
  simp only [hostAccess, accessFault_inBuf_eq_none_iff.2 ⟨rfl, hk⟩, hostWrite, word_pending]

/-- A byte write to OUT_BUF stores the byte at its offset. -/
theorem step_outBufWrite {s : State} {k : Nat} {v : HostValue} {rest : List HostEvent} (hk : k < s.params.outCap.toNat)
    (h : s.pending = byteAccess .outBuf k (.write v) :: rest) :
    step s = .next { s with pending := rest, outBuf := s.outBuf.write k ((v.word s).setWidth 8) } := by
  rw [step_access h]
  simp only [hostAccess, accessFault_outBuf_eq_none_iff.2 ⟨rfl, hk⟩, hostWrite, word_pending]

/-- A byte read of IN_BUF puts the byte into the host's log and changes nothing else. -/
theorem step_inBufRead {s : State} {k : Nat} {rest : List HostEvent} (hk : k < s.params.inCap.toNat)
    (h : s.pending = byteAccess .inBuf k .read :: rest) :
    step s = .next { s with pending := rest, hostReads := (inByte s.inBuf k).setWidth 32 :: s.hostReads } := by
  rw [step_access h]
  simp only [hostAccess, accessFault_inBuf_eq_none_iff.2 ⟨rfl, hk⟩, hostRead]

/-- A byte read of OUT_BUF puts the byte into the host's log and changes nothing else. -/
theorem step_outBufRead {s : State} {k : Nat} {rest : List HostEvent} (hk : k < s.params.outCap.toNat)
    (h : s.pending = byteAccess .outBuf k .read :: rest) :
    step s = .next { s with pending := rest, hostReads := (outByte s.outBuf k).setWidth 32 :: s.hostReads } := by
  rw [step_access h]
  simp only [hostAccess, accessFault_outBuf_eq_none_iff.2 ⟨rfl, hk⟩, hostRead]

/-- The word an 8-bit write carries holds its byte (30_encoding.md R97). -/
theorem setWidth_word_of_byte (s : State) (b : Byte) : ((HostValue.lit (b.setWidth 32)).word s).setWidth 8 = b :=
  BitVec.setWidth_setWidth_of_le b (by decide)

end Sys2Proof.Machine

namespace Sys2Proof.Proofs

open Sys2Proof Sys2Proof.Machine

/-- Settles O47: the step faults just when the access is not admitted, and R63's grounds are those of `accessFault`. -/
theorem notAdmittedAccessesFaultAndOnlyThose : Obligations.NotAdmittedAccessesFaultAndOnlyThose := by
  intro s a rest h hoff
  exact ⟨(step_access_fault_iff h).trans (accessFault_ne_none_iff hoff), step_access_ends h⟩

/-- Settles O52: one step for each of the four byte accesses, and the laws of a memory read after a write. -/
theorem bufferBytesReadBack : Obligations.BufferBytesReadBack := by
  refine ⟨fun s k b rest hk h => ⟨_, step_inBufWrite hk h, ?_, ?_, ?_, ?_, ?_⟩,
    fun s k b rest hk h => ⟨_, step_outBufWrite hk h, ?_, ?_, ?_, ?_, ?_⟩,
    fun s k rest hk h => step_inBufRead hk h, fun s k rest hk h => step_outBufRead hk h⟩
  · rw [setWidth_word_of_byte]
    exact inByte_write_same s.inBuf k b
  · exact fun a ha => inByte_write_other s.inBuf _ ha
  · exact fun a => rfl
  · exact regsKept_inBuf s rest _
  · exact fun i => rfl
  · rw [setWidth_word_of_byte]
    exact outByte_write_same s.outBuf k b
  · exact fun a ha => outByte_write_other s.outBuf _ ha
  · exact fun a => rfl
  · exact regsKept_outBuf s rest _
  · exact fun i => rfl

end Sys2Proof.Proofs
end

section
/-! The decoder, said once (30_encoding.md R93, R94): which words are commands, by the whole word and by the fields. -/

namespace Sys2Proof

/-! ## By the whole word (R93) -/

/-- With no key twice, looking a key up finds just the rows that are there. -/
theorem lookup_eq_some_iff_mem {α β : Type} [BEq α] [LawfulBEq α] {l : List (α × β)} (hl : (l.map Prod.fst).Nodup)
    {k : α} {v : β} : l.lookup k = some v ↔ (k, v) ∈ l := by
  rw [List.lookup_eq_some_iff]
  constructor
  · rintro ⟨l₁, l₂, rfl, -⟩
    exact List.mem_append_right l₁ List.mem_cons_self
  · intro h
    obtain ⟨l₁, l₂, rfl⟩ := List.append_of_mem h
    refine ⟨l₁, l₂, rfl, fun p hp => ?_⟩
    rw [List.map_append, List.nodup_append] at hl
    obtain ⟨-, -, hne⟩ := hl
    exact bne_iff_ne.2 (hne p.1 (List.mem_map_of_mem hp) k List.mem_cons_self).symm

/-- A word decodes to a command just when the pair is a row of R93's table. -/
theorem decode_eq_command_iff {w : Word} {i : Instr} : decode w = .command i ↔ (w, i) ∈ commandTable := by
  have hnodup : (commandTable.map Prod.fst).Nodup := by decide
  rw [← lookup_eq_some_iff_mem hnodup]
  unfold decode
  cases commandTable.lookup w with
  | some j => simp
  | none => simp

/-- The words that are commands are those of the table's column. -/
theorem decodes_iff_mem {w : Word} : (∃ i, decode w = .command i) ↔ w ∈ commandTable.map Prod.fst := by
  simp [decode_eq_command_iff]

/-! ## By the fields (R90, R94) -/

/-- A word is its three fields put together again (R90). -/
theorem fields_append (w : Word) :
    (CommandFields.ofWord w).rsv ++ BitVec.ofBool (CommandFields.ofWord w).f ++ (CommandFields.ofWord w).opc = w := by
  have hf : BitVec.ofBool (w.getLsbD 8) = w.extractLsb' 8 1 := by
    ext k hk
    obtain rfl : k = 0 := by omega
    simp
  have hhigh : w.extractLsb' 9 23 ++ w.extractLsb' 8 1 = w.extractLsb' 8 24 :=
    BitVec.extractLsb'_append_extractLsb'_eq_extractLsb' rfl
  have hword : w.extractLsb' 8 24 ++ w.extractLsb' 0 8 = w.extractLsb' 0 32 :=
    BitVec.extractLsb'_append_extractLsb'_eq_extractLsb' rfl
  calc w.extractLsb' 9 23 ++ BitVec.ofBool (w.getLsbD 8) ++ w.extractLsb' 0 8
      = w.extractLsb' 0 32 := by rw [hf, hhigh, hword]
    _ = w := BitVec.extractLsb'_eq_self

theorem wellFormed_iff (c : CommandFields) :
    c.wellFormed = true ↔ c.rsv = 0 ∧ c.opc ∈ assignedOpcodes ∧ (c.f = false ∨ c.opc = 0x21#8) := by
  simp [CommandFields.wellFormed, and_assoc]

/-- Well-formed fields spell a word of R93's table: the 13 opcodes with F clear, and 0x21 with F set. -/
theorem mem_commandTable_of_fields {opc : BitVec 8} {f : Bool} (ho : opc ∈ assignedOpcodes)
    (hf : f = false ∨ opc = 0x21#8) : (0#23 ++ BitVec.ofBool f ++ opc : Word) ∈ commandTable.map Prod.fst := by
  cases f with
  | false =>
    have hall : ∀ o ∈ assignedOpcodes, (0#23 ++ BitVec.ofBool false ++ o : Word) ∈ commandTable.map Prod.fst := by
      decide
    exact hall opc ho
  | true =>
    obtain rfl : opc = 0x21#8 := hf.resolve_left Bool.noConfusion
    decide

/-- The two forms of R94 agree: the word is one of the table's just when its fields are well formed. -/
theorem mem_commandTable_iff_legalWord {w : Word} : w ∈ commandTable.map Prod.fst ↔ legalWord w = true := by
  constructor
  · have hall : (commandTable.map Prod.fst).all legalWord = true := by decide
    exact List.all_eq_true.1 hall w
  · intro h
    obtain ⟨hrsv, hopc, hf⟩ := (wellFormed_iff _).1 h
    rw [← fields_append w, hrsv]
    exact mem_commandTable_of_fields hopc hf

/-- The assigned opcodes as the numbers R94 lists. -/
theorem mem_assignedOpcodes_iff {opc : BitVec 8} : opc ∈ assignedOpcodes ↔
    opc.toNat ∈ [0x00, 0x01, 0x02, 0x03, 0x04, 0x10, 0x11, 0x12, 0x20, 0x21, 0x30, 0x31, 0x32] :=
  (List.mem_map_of_injective BitVec.toNat_injective).symm

/-- The field form of R94: nothing in RSV, an assigned opcode, and F only on 0x21. -/
theorem decodes_iff_fields {w : Word} : (∃ i, decode w = .command i) ↔
    w.extractLsb' 9 23 = 0
      ∧ (w.extractLsb' 0 8).toNat ∈ [0x00, 0x01, 0x02, 0x03, 0x04, 0x10, 0x11, 0x12, 0x20, 0x21, 0x30, 0x31, 0x32]
      ∧ (w.getLsbD 8 = false ∨ w.extractLsb' 0 8 = 0x21#8) := by
  rw [decodes_iff_mem, mem_commandTable_iff_legalWord, ← mem_assignedOpcodes_iff]
  exact wellFormed_iff (CommandFields.ofWord w)

end Sys2Proof

namespace Sys2Proof.Machine

/-! ## The CMD write -/

/-- The step of a host's CMD write issues the word. -/
theorem step_cmdWrite {s : State} {w : Word} {rest : List HostEvent}
    (h : s.pending = .access ⟨.reg, 0x000, 32, .write (.lit w)⟩ :: rest) : step s = issue w { s with pending := rest } := by
  rw [step_access h, hostAccess_cmdWrite]

/-- An illegal word is stored in CMD and fails with ILLEGAL_COMMAND (30_encoding.md R95). -/
theorem issue_illegal {w : Word} (h : ∀ i, decode w ≠ .command i) (s : State) :
    issue w s = .next (raise .illegalCommand .none (writeReg .cmd w s)) := by
  unfold issue
  cases hd : decode w with
  | command i => exact absurd hd (h i)
  | illegal why => rfl

/-! ## What a failure writes and keeps (60_exceptions.md R240) -/

theorem raise_fails (e sub : ErrorKind) (s : State) : Fails e.code sub.code s (raise e sub s) :=
  ⟨rfl, rfl, rfl, rfl, rfl⟩

/-- `raise` itself writes STATUS alone. -/
theorem raise_keepsAllBut (e sub : ErrorKind) (s : State) : KeepsAllBut [.status] s (raise e sub s) := by
  refine ⟨fun r hr => ?_, fun _ => rfl, fun _ => rfl, fun _ => rfl, runKept_refl s⟩
  cases r with
  | status => exact absurd List.mem_cons_self hr
  | _ => rfl

/-- Storing the command word writes CMD alone (10_state.md R23). -/
theorem writeReg_cmd_keepsAllBut (w : Word) (s : State) : KeepsAllBut [.cmd] s (writeReg .cmd w s) := by
  refine ⟨fun r hr => ?_, fun _ => rfl, fun _ => rfl, fun _ => rfl, runKept_refl s⟩
  cases r with
  | cmd => exact absurd List.mem_cons_self hr
  | _ => rfl

/-- One write after another keeps all but what either names. -/
theorem KeepsAllBut.trans {rs rs' : List Reg} {s t u : State} (h : KeepsAllBut rs s t) (h' : KeepsAllBut rs' t u) :
    KeepsAllBut (rs ++ rs') s u := by
  obtain ⟨hregs, hin, hout, htable, hparams, hpending, hreads, hdraws⟩ := h
  obtain ⟨hregs', hin', hout', htable', hparams', hpending', hreads', hdraws'⟩ := h'
  refine ⟨fun r hr => ?_, fun a => (hin' a).trans (hin a), fun a => (hout' a).trans (hout a),
    fun i => (htable' i).trans (htable i), hparams'.trans hparams, hpending'.trans hpending, hreads'.trans hreads,
    hdraws'.trans hdraws⟩
  rw [List.mem_append, not_or] at hr
  obtain ⟨hrs, hrs'⟩ := hr
  exact (hregs' r hrs').trans (hregs r hrs)

end Sys2Proof.Machine

namespace Sys2Proof.Proofs

open Sys2Proof Sys2Proof.Machine

/-- Settles O2: the statement's rows are those of `commandTable`, where no word stands twice. -/
theorem legalWordsAreExactlyTheTable : Obligations.LegalWordsAreExactlyTheTable :=
  fun _ _ => decode_eq_command_iff

/-- Settles O3: the column of words, and the fields, which determine the word. -/
theorem legalWordsByFields : Obligations.LegalWordsByFields :=
  fun _ => ⟨decodes_iff_mem, decodes_iff_fields⟩

/-- Settles O7: each ground denies one condition of the field form, and the CMD write stores the word, then raises. -/
theorem illegalWordFailsAndChangesOnlyStatus : Obligations.IllegalWordFailsAndChangesOnlyStatus := by
  refine ⟨fun w hground i hi => ?_, fun s w rest hp hw => ?_⟩
  · obtain ⟨hrsv, hopc, hf⟩ := decodes_iff_fields.1 ⟨i, hi⟩
    obtain hbad | ⟨hset, hother⟩ | hbad := hground
    · exact hbad hopc
    · exact hf.elim (ne_true_of_eq_false · hset) hother
    · exact hbad hrsv
  · exact ⟨_, (step_cmdWrite hp).trans (issue_illegal hw _), rfl, raise_fails .illegalCommand .none _,
      (writeReg_cmd_keepsAllBut w _).trans (raise_keepsAllBut .illegalCommand .none _)⟩

end Sys2Proof.Proofs
end

section
/-! NOP (40_control.md R115): the word, and the one state it leads to. -/

namespace Sys2Proof

/-- The only word of R93's table with opcode 0 is NOP's, since F is admitted on 0x21 alone (40_control.md R115). -/
theorem eq_zero_of_decodes_of_opcode_zero {w : Word} {i : Instr} (h : decode w = .command i)
    (ho : w.extractLsb' 0 8 = 0) : w = 0 := by
  have hrows : ∀ row ∈ commandTable, row.1.extractLsb' 0 8 = 0 → row.1 = 0 := by decide
  exact hrows (w, i) (decode_eq_command_iff.1 h) ho

end Sys2Proof

namespace Sys2Proof.Machine

/-- NOP completes from every state: STATUS is cleared but for EQ, and nothing else is written. -/
theorem exec_nop (s : State) : exec .nop s = .next { s with status := { Status.reset with eq := s.status.eq } } := rfl

/-- Only a read of STATUS shows its stored fields. -/
theorem setStatus_keepsAllBut (st : Status) (s : State) : KeepsAllBut [.status] s { s with status := st } := by
  refine ⟨fun r hr => ?_, fun _ => rfl, fun _ => rfl, fun _ => rfl, runKept_refl s⟩
  cases r with
  | status => exact absurd List.mem_cons_self hr
  | _ => rfl

end Sys2Proof.Machine

namespace Sys2Proof.Proofs

open Sys2Proof Sys2Proof.Machine

/-- Settles O8: NOP replaces STATUS by its reset value, EQ apart; every other command sets ANYERR or keeps it. -/
theorem nopClearsTheErrorStatus : Obligations.NopClearsTheErrorStatus := by
  refine ⟨decode_eq_command_iff.2 List.mem_cons_self, fun s => ?completes, fun w ho hw i hi => ?opcodeZero,
    fun _ _ _ => nop_of_exec_clears_anyErr, fun p => ?afterReset⟩
  case completes => exact ⟨_, exec_nop s, rfl, rfl, rfl, rfl, rfl, setStatus_keepsAllBut _ s⟩
  case opcodeZero => exact hw (eq_zero_of_decodes_of_opcode_zero hi ho)
  case afterReset => exact exec_nop (State.resetWith p)

end Sys2Proof.Proofs
end

section
/-! The TYPE_FLAGS register bit by bit, and the bytes of TYPE as numbers (41_chunk_type.md R130 to R136). -/

namespace Sys2Proof.Machine

/-! ## The bytes of TYPE as numbers -/

theorem typeByte_toNat (t : Word) (i : Nat) : (typeByte t i).toNat = t.toNat / 2 ^ (24 - 8 * i) % 256 := by
  rw [typeByte, BitVec.extractLsb'_toNat, Nat.shiftRight_eq_div_pow]

theorem be32bytes_eq_typeBytes (t : Word) : be32bytes t = (List.range 4).map (typeByte t) := rfl

/-- `letter(b)` of R131 on the byte as a number. -/
theorem isLetter_iff (b : Byte) :
    isLetter b = true ↔ (0x41 ≤ b.toNat ∧ b.toNat ≤ 0x5A) ∨ (0x61 ≤ b.toNat ∧ b.toNat ≤ 0x7A) := by
  simp [isLetter]

/-- Bit 5 of a byte, the property bit of R132 to R135, as arithmetic on the byte's number. -/
theorem bitFive_set_iff (b : Byte) : b.getLsbD 5 = true ↔ b.toNat / 32 % 2 = 1 := by
  rw [← BitVec.testBit_toNat, Nat.testBit_eq_decide_div_mod_eq, decide_eq_true_eq]

theorem bitFive_clear_iff (b : Byte) : (!b.getLsbD 5) = true ↔ b.toNat / 32 % 2 = 0 := by
  rw [Bool.not_eq_true', ← Bool.not_eq_true, bitFive_set_iff, Nat.mod_two_not_eq_one]

/-! ## The flags -/

theorem typeAlpha_iff (t : Word) : typeAlpha t = true ↔ isLetter (typeByte t 0) = true
    ∧ isLetter (typeByte t 1) = true ∧ isLetter (typeByte t 2) = true ∧ isLetter (typeByte t 3) = true := by
  simp only [typeAlpha, Bool.and_eq_true, and_assoc]

theorem typeValid_iff (t : Word) : typeValid t = true ↔ typeAlpha t = true ∧ typeRsvValid t = true :=
  Bool.and_eq_true_iff

/-- Which flag stands at which bit of TYPE_FLAGS (10_state.md R37). -/
theorem typeFlags_bits (t : Word) :
    (typeFlags t).getLsbD 0 = typeAlpha t ∧ (typeFlags t).getLsbD 1 = typeCritical t
      ∧ (typeFlags t).getLsbD 2 = typePublic t ∧ (typeFlags t).getLsbD 3 = typeRsvValid t
      ∧ (typeFlags t).getLsbD 4 = typeSafeCopy t ∧ (typeFlags t).getLsbD 5 = typeValid t := by
  simp only [typeFlags, BitVec.getLsbD_append]
  simp

/-- Nothing stands above VALID (10_state.md R53). -/
theorem typeFlags_reserved (t : Word) : (typeFlags t).extractLsb' 6 26 = 0 := by
  unfold typeFlags
  repeat rw [BitVec.extractLsb'_append_eq_of_le (by decide)]
  exact BitVec.extractLsb'_eq_self

end Sys2Proof.Machine

namespace Sys2Proof.Proofs

open Sys2Proof Sys2Proof.Machine

/-- Settles O17: each bit is its flag, and each flag is a condition on the numbers the bytes of TYPE are. -/
theorem typeFlagsFollowTheTypeBytes : Obligations.TypeFlagsFollowTheTypeBytes := by
  intro s
  obtain ⟨halpha, hcritical, hpublic, hrsv, hsafe, hvalid⟩ := typeFlags_bits s.typeReg
  simp only [readReg, halpha, hcritical, hpublic, hrsv, hsafe, hvalid, ← typeByte_toNat, ← isLetter_iff]
  exact ⟨typeAlpha_iff _, bitFive_clear_iff _, bitFive_clear_iff _, bitFive_clear_iff _, bitFive_set_iff _,
    typeValid_iff _, typeFlags_reserved _⟩

end Sys2Proof.Proofs
end

section
/-! The commands of the type code validator (41_chunk_type.md R140 to R142): where each of their checks leads, and what
the two ends of a command write and keep. -/

namespace Sys2Proof.Machine

/-! ## The two ends of a command -/

/-- A command that ends in a raise from `s` itself fails with that error and changes STATUS alone (R240). -/
theorem fails_of_eq_raise {o : Host.Outcome State Fault Refusal} {e : ErrorKind} {s : State}
    (h : o = .next (raise e .none s)) : ∃ t, o = .next t ∧ Fails e.code 0 s t ∧ KeepsAllBut [.status] s t :=
  ⟨_, h, raise_fails e .none s, raise_keepsAllBut e .none s⟩

/-- The success writes on a state whose STATUS the command has not touched (40_control.md R110). -/
theorem complete_succeeds {s u : State} (h : u.status = s.status) : Succeeds s (complete u) := by
  rw [Succeeds, complete_status, h]
  exact ⟨rfl, rfl, rfl, rfl, rfl⟩

theorem complete_keepsAllBut (s : State) : KeepsAllBut [.status] s (complete s) := setStatus_keepsAllBut _ s

/-- A write to TYPE shows in TYPE and in TYPE_FLAGS, which is computed from it (10_state.md R36, R37). -/
theorem writeReg_type_keepsAllBut (v : Word) (s : State) : KeepsAllBut [.type, .typeFlags] s (writeReg .type v s) := by
  refine ⟨fun r hr => ?_, fun _ => rfl, fun _ => rfl, fun _ => rfl, runKept_refl s⟩
  cases r with
  | type => exact absurd List.mem_cons_self hr
  | typeFlags => exact absurd (List.mem_cons_of_mem _ List.mem_cons_self) hr
  | _ => rfl

/-! ## The bytes of the window -/

/-- What holds of each byte of the operand window, said by offset. -/
theorem forall_mem_window {s : State} {n : Nat} {P : Byte → Prop} :
    (∀ b ∈ window s n, P b) ↔ ∀ k < n, P (inByte s.inBuf (s.argOff.toNat + k)) := by
  simp [List.forall_mem_iff_forall_getElem, window]

/-- The type code of the 4-byte window, its first byte most significant (20_memory.md R69). -/
theorem be32_window_toNat (s : State) :
    (be32 (window s 4)).toNat = (inByte s.inBuf s.argOff.toNat).toNat * 2 ^ 24
      + (inByte s.inBuf (s.argOff.toNat + 1)).toNat * 2 ^ 16
      + (inByte s.inBuf (s.argOff.toNat + 2)).toNat * 2 ^ 8 + (inByte s.inBuf (s.argOff.toNat + 3)).toNat :=
  be32_toNat _ _ _ _

/-- The 4-byte window holds a type code just when each of its bytes is the number that the code's byte is (R138). -/
theorem be32bytes_eq_window_iff (v : Word) (s : State) : be32bytes v = window s 4 ↔
    ∀ k < 4, (inByte s.inBuf (s.argOff.toNat + k)).toNat = v.toNat / 2 ^ (24 - 8 * k) % 256 := by
  simp only [← typeByte_toNat, BitVec.toNat_inj, be32bytes_eq_typeBytes]
  rw [List.ext_getElem_iff]
  simp [window, eq_comm]

/-! ## TYPE_FROM_BYTES and TYPE_FROM_STRING -/

/-- What both loads of a type code from the window end in when they complete: TYPE is the code, and nothing else is
written but what shows it and STATUS. -/
theorem loadsType_of_eq_complete {o : Host.Outcome State Fault Refusal} {s : State}
    (h : o = .next (complete (writeReg .type (be32 (window s 4)) s))) :
    ∃ t, o = .next t
      ∧ t.typeReg.toNat = (inByte s.inBuf s.argOff.toNat).toNat * 2 ^ 24
          + (inByte s.inBuf (s.argOff.toNat + 1)).toNat * 2 ^ 16
          + (inByte s.inBuf (s.argOff.toNat + 2)).toNat * 2 ^ 8 + (inByte s.inBuf (s.argOff.toNat + 3)).toNat
      ∧ Succeeds s t ∧ KeepsAllBut [.type, .typeFlags, .status] s t :=
  ⟨_, h, be32_window_toNat s, complete_succeeds rfl,
    (writeReg_type_keepsAllBut _ s).trans (complete_keepsAllBut _)⟩

theorem exec_typeFromBytes_inside {s : State} (h : s.argOff.toNat + 4 ≤ s.inLen.toNat) :
    exec .typeFromBytes s = .next (complete (writeReg .type (be32 (window s 4)) s)) :=
  if_pos ((windowOk_iff s 4).2 h)

theorem exec_typeFromBytes_outside {s : State} (h : s.inLen.toNat < s.argOff.toNat + 4) :
    exec .typeFromBytes s = .next (raise .range .none s) :=
  if_neg (mt (windowOk_iff s 4).1 (Nat.not_le_of_lt h))

/-- The ASCII test of R141, byte for byte. -/
theorem ascii_window_iff (s : State) : (window s 4).all (fun b => b.toNat < 0x80) = true ↔
    ∀ k < 4, (inByte s.inBuf (s.argOff.toNat + k)).toNat < 0x80 := by
  simp only [List.all_eq_true, decide_eq_true_eq]
  exact forall_mem_window

theorem exec_typeFromString_ascii {s : State} (hwin : s.argOff.toNat + s.argLen.toNat ≤ s.inLen.toNat)
    (hlen : s.argLen = 4) (hascii : ∀ k < 4, (inByte s.inBuf (s.argOff.toNat + k)).toNat < 0x80) :
    exec .typeFromString s = .next (complete (writeReg .type (be32 (window s 4)) s)) :=
  (if_pos ((windowOk_iff s _).2 hwin)).trans
    ((if_pos (congrArg BitVec.toNat hlen)).trans (if_pos ((ascii_window_iff s).2 hascii)))

/-- The two grounds of INVALID_CHUNK_TYPE are the two tests that follow RANGE. -/
theorem exec_typeFromString_invalid {s : State} (hwin : s.argOff.toNat + s.argLen.toNat ≤ s.inLen.toNat)
    (hbad : s.argLen ≠ 4 ∨ ∃ k < 4, 0x80 ≤ (inByte s.inBuf (s.argOff.toNat + k)).toNat) :
    exec .typeFromString s = .next (raise .invalidChunkType .none s) := by
  refine (if_pos ((windowOk_iff s _).2 hwin)).trans ?_
  by_cases hlen : s.argLen = 4
  · obtain ⟨k, hk, hbyte⟩ := hbad.resolve_left (not_not_intro hlen)
    have hascii : ¬ ∀ k < 4, (inByte s.inBuf (s.argOff.toNat + k)).toNat < 0x80 :=
      fun h => Nat.not_lt_of_le hbyte (h k hk)
    exact (if_pos (congrArg BitVec.toNat hlen)).trans (if_neg (mt (ascii_window_iff s).1 hascii))
  · exact if_neg (mt BitVec.eq_of_toNat_eq hlen)

theorem exec_typeFromString_outside {s : State} (h : s.inLen.toNat < s.argOff.toNat + s.argLen.toNat) :
    exec .typeFromString s = .next (raise .range .none s) :=
  if_neg (mt (windowOk_iff s _).1 (Nat.not_le_of_lt h))

/-! ## TYPE_CMP -/

theorem exec_typeCmp_inside {s : State} (h : s.argOff.toNat + 4 ≤ s.inLen.toNat) :
    exec .typeCmp s = .next (complete { s with status := statusAtSuccess .typeCmp s }) :=
  if_pos ((windowOk_iff s 4).2 h)

theorem exec_typeCmp_outside {s : State} (h : s.inLen.toNat < s.argOff.toNat + 4) :
    exec .typeCmp s = .next (raise .range .none s) :=
  if_neg (mt (windowOk_iff s 4).1 (Nat.not_le_of_lt h))

end Sys2Proof.Machine

namespace Sys2Proof.Proofs

open Sys2Proof Sys2Proof.Machine

/-- Settles O18: the window check has two outcomes, a load of TYPE and RANGE. -/
theorem typeFromBytesLoadsTheWindow : Obligations.TypeFromBytesLoadsTheWindow :=
  ⟨decode_eq_command_iff.2 (by decide), fun _ h => loadsType_of_eq_complete (exec_typeFromBytes_inside h),
    fun _ h => fails_of_eq_raise (exec_typeFromBytes_outside h)⟩

/-- Settles O19: the three outcomes of the checks, in their order. -/
theorem typeFromStringTakesFourAsciiCharacters : Obligations.TypeFromStringTakesFourAsciiCharacters :=
  ⟨decode_eq_command_iff.2 (by decide),
    fun _ hwin hlen hascii => loadsType_of_eq_complete (exec_typeFromString_ascii hwin hlen hascii),
    fun _ hwin hbad => fails_of_eq_raise (exec_typeFromString_invalid hwin hbad),
    fun _ h => fails_of_eq_raise (exec_typeFromString_outside h)⟩

/-- Settles O20: a TYPE_CMP that completes replaces STATUS, with EQ the comparison of the packed values,
which is that of their bytes. -/
theorem typeCmpComparesByteForByte : Obligations.TypeCmpComparesByteForByte := by
  refine ⟨decode_eq_command_iff.2 (by decide), fun s h => ?_, fun _ h => fails_of_eq_raise (exec_typeCmp_outside h)⟩
  have hexec := exec_typeCmp_inside h
  exact ⟨_, hexec, (exec_typeCmp_eq hexec rfl).trans (be32bytes_eq_window_iff _ s), rfl, rfl, rfl, rfl,
    setStatus_keepsAllBut _ s⟩

end Sys2Proof.Proofs
end

section
/-! The checksum itself (42_crc.md R160 to R162, R170): the byte step as a plain repetition, and that no change of a
single byte goes unnoticed. -/

namespace Sys2Proof.Machine

/-! ## The byte step -/

/-- The last of the shifts may be taken outermost. -/
theorem crcShifts_succ_outer (n : Nat) (c : Word) : crcShifts (n + 1) c = crcShift (crcShifts n c) := by
  induction n generalizing c with
  | zero => rfl
  | succ n ih => exact ih (crcShift c)

theorem crcShifts_eq_repeat (n : Nat) (c : Word) : crcShifts n c = Nat.repeat crcShift n c := by
  induction n with
  | zero => rfl
  | succ n ih => exact (crcShifts_succ_outer n c).trans (congrArg crcShift ih)

/-- `crc_update` on a byte and more (42_crc.md R161). -/
theorem crcUpdate_cons (c : Word) (b : Byte) (rest : List Byte) :
    crcUpdate c (b :: rest) = crcUpdate (Nat.repeat crcShift 8 (c ^^^ b.setWidth 32)) rest :=
  congrArg (crcUpdate · rest) (crcShifts_eq_repeat 8 _)

/-- The check value of CRC-32/ISO-HDLC, the checksum of "123456789" (42_crc.md R160). -/
theorem crc32_checkValue : crc32 [0x31, 0x32, 0x33, 0x34, 0x35, 0x36, 0x37, 0x38, 0x39] = 0xCBF43926 := by
  decide +kernel

/-! ## One changed byte -/

/-- Two sequences that differ at most in one byte have one checksum only if that byte is the same: the byte step tells
the two bytes apart, and the bytes that follow keep the two registers apart. -/
theorem crc32_byte_injective {s t : List Byte} {a b : Byte} (h : crc32 (s ++ a :: t) = crc32 (s ++ b :: t)) : a = b := by
  unfold crc32 at h
  rw [BitVec.xor_left_inj, crcUpdate_append, crcUpdate_append] at h
  exact crcByte_right_injective (crcUpdate_left_injective h)

theorem crc32_modify_ne {bs : List Byte} {i : Nat} {f : Byte → Byte} (hi : i < bs.length) (hf : f bs[i] ≠ bs[i]) :
    crc32 (bs.modify i f) ≠ crc32 bs := by
  intro h
  have hbs : bs = bs.take i ++ bs[i] :: bs.drop (i + 1) := by simp
  rw [List.modify_eq_take_cons_drop hi] at h
  exact hf (crc32_byte_injective (h.trans (congrArg crc32 hbs)))

/-- Inverting a bit of a byte changes the byte. -/
theorem xor_twoPow_ne {b : Nat} (hb : b < 8) (x : Byte) : x ^^^ BitVec.twoPow 8 b ≠ x := by
  intro h
  have hbit : (x ^^^ BitVec.twoPow 8 b).getLsbD b = x.getLsbD b := congrArg (BitVec.getLsbD · b) h
  simp [hb] at hbit

end Sys2Proof.Machine

namespace Sys2Proof.Proofs

open Sys2Proof Sys2Proof.Machine

/-- Settles O15: the flip changes one byte, and the checksum tells any two values of one byte apart. -/
theorem singleBitFlipChangesCrc : Obligations.SingleBitFlipChangesCrc :=
  fun _ _ _ hi hb => crc32_modify_ne hi (xor_twoPow_ne hb _)

end Sys2Proof.Proofs
end

section
/-! The commands of the CRC generator (42_crc.md R165 to R168): what each leads to on both sides of the window check, and
what it writes and keeps. -/

namespace Sys2Proof.Machine

/-! ## The registers of the CRC generator -/

theorem writeReg_crcAcc_keepsAllBut (v : Word) (s : State) : KeepsAllBut [.crcAcc] s (writeReg .crcAcc v s) := by
  refine ⟨fun r hr => ?_, fun _ => rfl, fun _ => rfl, fun _ => rfl, runKept_refl s⟩
  cases r with
  | crcAcc => exact absurd List.mem_cons_self hr
  | _ => rfl

/-- Only a read of CRC_RESULT shows what a command writes there (10_state.md R39). -/
theorem setCrcResult_keepsAllBut (v : Word) (s : State) : KeepsAllBut [.crcResult] s { s with crcResult := v } := by
  refine ⟨fun r hr => ?_, fun _ => rfl, fun _ => rfl, fun _ => rfl, runKept_refl s⟩
  cases r with
  | crcResult => exact absurd List.mem_cons_self hr
  | _ => rfl

/-- What CRC_INIT and CRC_FEED end in when they complete: CRC_ACC is the new value, and nothing else is written but
STATUS. -/
theorem loadsCrcAcc_of_eq_complete {o : Host.Outcome State Fault Refusal} {v : Word} {s : State}
    (h : o = .next (complete (writeReg .crcAcc v s))) :
    ∃ t, o = .next t ∧ t.crcAcc = v ∧ Succeeds s t ∧ KeepsAllBut [.crcAcc, .status] s t :=
  ⟨_, h, rfl, complete_succeeds rfl, (writeReg_crcAcc_keepsAllBut v s).trans (complete_keepsAllBut _)⟩

/-! ## Where each command leads -/

theorem exec_crcInit (s : State) : exec .crcInit s = .next (complete (writeReg .crcAcc 0xFFFFFFFF s)) := rfl

theorem exec_crcFinal (s : State) :
    exec .crcFinal s = .next (complete { s with crcResult := s.crcAcc ^^^ 0xFFFFFFFF }) := rfl

theorem exec_crcFeed_inside {s : State} (h : s.argOff.toNat + s.argLen.toNat ≤ s.inLen.toNat) :
    exec .crcFeed s = .next (complete (writeReg .crcAcc (crcUpdate s.crcAcc (window s s.argLen.toNat)) s)) :=
  if_pos ((windowOk_iff s _).2 h)

theorem exec_crcFeed_outside {s : State} (h : s.inLen.toNat < s.argOff.toNat + s.argLen.toNat) :
    exec .crcFeed s = .next (raise .range .none s) :=
  if_neg (mt (windowOk_iff s _).1 (Nat.not_le_of_lt h))

/-- CRC_COMPUTE writes both registers: the register after the window, and the window's finished checksum. -/
theorem exec_crcCompute_inside {s : State} (h : s.argOff.toNat + s.argLen.toNat ≤ s.inLen.toNat) :
    exec .crcCompute s = .next (complete { writeReg .crcAcc (crcUpdate 0xFFFFFFFF (window s s.argLen.toNat)) s with
      crcResult := crc32 (window s s.argLen.toNat) }) :=
  if_pos ((windowOk_iff s _).2 h)

theorem exec_crcCompute_outside {s : State} (h : s.inLen.toNat < s.argOff.toNat + s.argLen.toNat) :
    exec .crcCompute s = .next (raise .range .none s) :=
  if_neg (mt (windowOk_iff s _).1 (Nat.not_le_of_lt h))

end Sys2Proof.Machine

namespace Sys2Proof.Proofs

open Sys2Proof Sys2Proof.Machine

/-- Settles O9: CRC_INIT is a load of CRC_ACC that no check precedes. -/
theorem crcInitLoadsTheInitialValue : Obligations.CrcInitLoadsTheInitialValue :=
  ⟨decode_eq_command_iff.2 (by decide), fun s => loadsCrcAcc_of_eq_complete (exec_crcInit s), fun _ => rfl⟩

/-- Settles O10: the byte step is `crcShift` eight times, and the window check has two outcomes, a load of CRC_ACC and
RANGE. -/
theorem crcFeedAddsTheWindow : Obligations.CrcFeedAddsTheWindow :=
  ⟨decode_eq_command_iff.2 (by decide), fun c b rest => ⟨rfl, crcUpdate_cons c b rest⟩,
    fun _ h => loadsCrcAcc_of_eq_complete (exec_crcFeed_inside h), fun _ h => fails_of_eq_raise (exec_crcFeed_outside h)⟩

/-- Settles O11: CRC_FINAL writes CRC_RESULT, then completes. -/
theorem crcFinalFinishesTheChecksum : Obligations.CrcFinalFinishesTheChecksum :=
  ⟨decode_eq_command_iff.2 (by decide), fun s => ⟨_, exec_crcFinal s, rfl, complete_succeeds rfl,
    (setCrcResult_keepsAllBut _ s).trans (complete_keepsAllBut _)⟩⟩

/-- Settles O12: past the window check both registers are written, the second with the checksum of R162. -/
theorem crcComputeChecksumsTheWindow : Obligations.CrcComputeChecksumsTheWindow := by
  refine ⟨decode_eq_command_iff.2 (by decide), fun _ => rfl, by decide, crc32_checkValue, fun s h => ?_,
    fun _ h => fails_of_eq_raise (exec_crcCompute_outside h)⟩
  exact ⟨_, exec_crcCompute_inside h, rfl, rfl, rfl, complete_succeeds rfl,
    ((writeReg_crcAcc_keepsAllBut _ s).trans (setCrcResult_keepsAllBut _ _)).trans (complete_keepsAllBut _)⟩

end Sys2Proof.Proofs
end

section
/-! The frame reader's third outcome (43_frame.md R180): when `frame_at` reports a frame that is cut short. -/

namespace Sys2Proof.Machine

/-- A frame is cut short exactly when its 12 bytes and its data do not end by IN_LEN: with fewer than 8 bytes left they
cannot, whatever the length field holds. -/
theorem frameAt_eof_iff {m : Memory} {inLen p : Nat} :
    frameAt m inLen p = .eof ↔ inLen < p + 12 + frameLen m p := by
  unfold frameAt
  split_ifs with hheader hbody hcrc
  · exact iff_of_true rfl (by omega)
  · exact iff_of_true rfl (by omega)
  · exact iff_of_false nofun (by omega)
  · exact iff_of_false nofun (by omega)

end Sys2Proof.Machine

namespace Sys2Proof.Proofs

open Sys2Proof Sys2Proof.Machine

/-- Settles O21: the two checks for bytes are one bound on where the frame ends, and the crc check tells a mismatch from
an OK frame. -/
theorem frameReaderFollowsItsChecks : Obligations.FrameReaderFollowsItsChecks := by
  intro m inLen p hp hl L t d st c
  have hL : frameLen m p = L := rfl
  refine ⟨fun _ => frameAt_eof_iff.2 (by omega), fun _ _ => frameAt_eof_iff.2 (by omega),
    fun _ _ hne => frameAt_mismatch_iff.2 ⟨by omega, hne, rfl, rfl⟩, fun _ _ heq => ?_⟩
  have hok := frameAt_ok_iff.2 ⟨show p + 12 + frameLen m p ≤ inLen by omega, heq, rfl, rfl⟩
  obtain ⟨hend, -, hoff, hlen⟩ := frameAt_ok_bounds hok hl
  exact ⟨_, hok, rfl, hlen, hoff, rfl, hend⟩

end Sys2Proof.Proofs
end

section
/-! A store to OUT_BUF (20_memory.md R68): where its bytes stand, where OUT_PTR ends, and what it keeps. -/

namespace Sys2Proof.Machine

theorem emit_outHolds (bs : List Byte) (s : State) : OutHolds (emit bs s) s.outPtr.toNat bs :=
  outByte_memWrite_inside s.outBuf s.outPtr.toNat bs

/-- Past the room check OUT_PTR moves by the exact number of bytes: it stays below OUT_CAP, which fits a register. -/
theorem emit_outPtr_toNat {bs : List Byte} {n : Nat} {s : State} (hn : bs.length = n)
    (hroom : s.outPtr.toNat + n ≤ s.params.outCap.toNat) : (emit bs s).outPtr.toNat = s.outPtr.toNat + n := by
  rw [emit_outPtr, hn]
  exact word_toNat (Nat.lt_of_le_of_lt hroom s.params.outCap.isLt)

theorem emit_keepsAllButStored {bs : List Byte} {n : Nat} (hn : bs.length = n) (s : State) :
    KeepsAllButStored [.outPtr] s.outPtr.toNat n s (emit bs s) := by
  subst hn
  refine ⟨fun r hr => ?_, fun _ => rfl, outByte_memWrite_outside s.outBuf _ bs, fun _ => rfl, runKept_refl s⟩
  cases r with
  | outPtr => exact absurd List.mem_cons_self hr
  | _ => rfl

/-- A store and then a write of registers keep all but the stored bytes and what either names. -/
theorem KeepsAllButStored.trans {rs rs' : List Reg} {lo n : Nat} {s t u : State} (h : KeepsAllButStored rs lo n s t)
    (h' : KeepsAllBut rs' t u) : KeepsAllButStored (rs ++ rs') lo n s u := by
  obtain ⟨hregs, hin, hout, htable, hparams, hpending, hreads, hdraws⟩ := h
  obtain ⟨hregs', hin', hout', htable', hparams', hpending', hreads', hdraws'⟩ := h'
  refine ⟨fun r hr => ?_, fun a => (hin' a).trans (hin a), fun a ha => (hout' a).trans (hout a ha),
    fun i => (htable' i).trans (htable i), hparams'.trans hparams, hpending'.trans hpending, hreads'.trans hreads,
    hdraws'.trans hdraws⟩
  rw [List.mem_append, not_or] at hr
  obtain ⟨hrs, hrs'⟩ := hr
  exact (hregs' r hrs').trans (hregs r hrs)

end Sys2Proof.Machine
end

section
/-! FRAME_SERIALIZE (43_frame.md R181): the three outcomes of its checks, and the bytes and registers it writes. -/

namespace Sys2Proof.Machine

/-! ## What it writes -/

/-- The frame built from the operand window: its length field is ARG_LEN itself. -/
theorem frameBytes_window (s : State) : frameBytes s.typeReg (window s s.argLen.toNat) =
    be32bytes s.argLen ++ be32bytes s.typeReg ++ window s s.argLen.toNat
      ++ be32bytes (crc32 (be32bytes s.typeReg ++ window s s.argLen.toNat)) := by
  rw [frameBytes, window_length, BitVec.ofNat_toNat, BitVec.setWidth_eq]

theorem frameBytes_window_length (s : State) :
    (frameBytes s.typeReg (window s s.argLen.toNat)).length = 12 + s.argLen.toNat := by
  rw [frameBytes_length, window_length]

/-- The registers of the frame unit that FRAME_SERIALIZE writes show in their own reads alone. -/
theorem setLenAndComputedCrc_keepsAllBut (n c : Word) (s : State) :
    KeepsAllBut [.len, .computedCrc] s { s with len := n, computedCrc := c } := by
  refine ⟨fun r hr => ?_, fun _ => rfl, fun _ => rfl, fun _ => rfl, runKept_refl s⟩
  cases r with
  | len | computedCrc => exact absurd (by decide) hr
  | _ => rfl

/-! ## Where its checks lead -/

theorem exec_frameSerialize_room {s : State} (hwin : s.argOff.toNat + s.argLen.toNat ≤ s.inLen.toNat)
    (hroom : s.outPtr.toNat + (12 + s.argLen.toNat) ≤ s.params.outCap.toNat) :
    exec .frameSerialize s = .next (complete { emit (frameBytes s.typeReg (window s s.argLen.toNat)) s with
      len := s.argLen, computedCrc := crc32 (be32bytes s.typeReg ++ window s s.argLen.toNat) }) :=
  (if_pos ((windowOk_iff s _).2 hwin)).trans (if_pos ((roomOk_iff s _).2 hroom))

theorem exec_frameSerialize_noRoom {s : State} (hwin : s.argOff.toNat + s.argLen.toNat ≤ s.inLen.toNat)
    (hroom : s.params.outCap.toNat < s.outPtr.toNat + (12 + s.argLen.toNat)) :
    exec .frameSerialize s = .next (raise .capacity .none s) :=
  (if_pos ((windowOk_iff s _).2 hwin)).trans (if_neg (mt (roomOk_iff s _).1 (Nat.not_le_of_lt hroom)))

theorem exec_frameSerialize_outside {s : State} (h : s.inLen.toNat < s.argOff.toNat + s.argLen.toNat) :
    exec .frameSerialize s = .next (raise .range .none s) :=
  if_neg (mt (windowOk_iff s _).1 (Nat.not_le_of_lt h))

end Sys2Proof.Machine

namespace Sys2Proof.Proofs

open Sys2Proof Sys2Proof.Machine

/-- Settles O24: with room the frame is stored, then LEN and COMPUTED_CRC are written; each failed check raises from the
state itself. -/
theorem frameSerializeWritesTheFrame : Obligations.FrameSerializeWritesTheFrame := by
  refine ⟨decode_eq_command_iff.2 (by decide), fun s hwin hroom => ?written, fun s hwin hroom => ?noRoom,
    fun _ h => fails_of_eq_raise (exec_frameSerialize_outside h)⟩
  case written =>
    rw [Nat.add_assoc] at hroom
    have hlen := frameBytes_window_length s
    refine ⟨_, exec_frameSerialize_room hwin hroom, ?bytes, ?outPtr, rfl, rfl, complete_succeeds rfl,
      ((emit_keepsAllButStored hlen s).trans (setLenAndComputedCrc_keepsAllBut _ _ _)).trans (complete_keepsAllBut _)⟩
    case bytes => exact frameBytes_window s ▸ emit_outHolds _ s
    case outPtr => exact (emit_outPtr_toNat hlen hroom).trans (Nat.add_assoc _ _ _).symm
  case noRoom =>
    rw [Nat.add_assoc] at hroom
    exact fails_of_eq_raise (exec_frameSerialize_noRoom hwin hroom)

end Sys2Proof.Proofs
end

section
/-! FRAME_PARSE (43_frame.md R183): where each answer of the frame reader leads, and what it writes and keeps. -/

namespace Sys2Proof.Machine

/-! ## What it writes -/

theorem setErrOff_keepsAllBut (v : Word) (s : State) : KeepsAllBut [.errOff] s { s with errOff := v } := by
  refine ⟨fun r hr => ?_, fun _ => rfl, fun _ => rfl, fun _ => rfl, runKept_refl s⟩
  cases r with
  | errOff => exact absurd List.mem_cons_self hr
  | _ => rfl

theorem setFrameCrcs_keepsAllBut (st c : Word) (s : State) :
    KeepsAllBut [.storedCrc, .computedCrc] s { s with storedCrc := st, computedCrc := c } := by
  refine ⟨fun r hr => ?_, fun _ => rfl, fun _ => rfl, fun _ => rfl, runKept_refl s⟩
  cases r with
  | storedCrc | computedCrc => exact absurd (by decide) hr
  | _ => rfl

/-- A successful parse shows in the registers of the frame, in TYPE_FLAGS, which is computed from TYPE, and in STATUS: in
its success writes and in EOS, which is computed from IN_PTR (10_state.md R27, R37). -/
theorem complete_loadFrame_keepsAllBut (e : FrameEntry) (next : Nat) (s : State) :
    KeepsAllBut [.type, .typeFlags, .len, .dataOff, .storedCrc, .computedCrc, .inPtr, .status] s
      (complete (loadFrame e next s)) := by
  refine ⟨fun r hr => ?_, fun _ => rfl, fun _ => rfl, fun _ => rfl, runKept_refl s⟩
  cases r with
  | type | typeFlags | len | dataOff | storedCrc | computedCrc | inPtr | status => exact absurd (by decide) hr
  | _ => rfl

/-- The new IN_PTR is the exact end of the frame, which lies below IN_LEN and so fits the register. -/
theorem ofNat_frameEnd_toNat {s : State} {e : FrameEntry} {next : Nat}
    (h : frameAt s.inBuf s.inLen.toNat s.inPtr.toNat = .ok e next) : (BitVec.ofNat 32 next).toNat = next := by
  obtain ⟨hend, -, -, -⟩ := frameAt_ok_bounds h s.inLen.isLt
  exact word_toNat (Nat.lt_of_le_of_lt hend s.inLen.isLt)

/-- What a command ends in that raises after it has written the position of the frame to ERR_OFF. -/
theorem failsAtFrame_of_eq_raise {o : Host.Outcome State Fault Refusal} {k : ErrorKind} {s : State}
    (h : o = .next (raise k .none { s with errOff := s.inPtr })) :
    ∃ t, o = .next t ∧ t.errOff = s.inPtr ∧ Fails k.code 0 s t ∧ KeepsAllBut [.errOff, .status] s t :=
  ⟨_, h, rfl, raise_fails k .none { s with errOff := s.inPtr },
    (setErrOff_keepsAllBut _ s).trans (raise_keepsAllBut k .none _)⟩

/-! ## Where the frame reader's answers lead -/

theorem exec_frameParse_ok {s : State} {e : FrameEntry} {next : Nat} (hp : s.inPtr.toNat ≤ s.inLen.toNat)
    (h : frameAt s.inBuf s.inLen.toNat s.inPtr.toNat = .ok e next) :
    exec .frameParse s = .next (complete (loadFrame e next s)) := by
  simp only [exec, execFrameParse, (parseOk_iff s).2 hp, h, if_true]

theorem exec_frameParse_mismatch {s : State} {st c : Word} (hp : s.inPtr.toNat ≤ s.inLen.toNat)
    (h : frameAt s.inBuf s.inLen.toNat s.inPtr.toNat = .mismatch st c) :
    exec .frameParse s =
      .next (raise .crcMismatch .none { s with errOff := s.inPtr, storedCrc := st, computedCrc := c }) := by
  simp only [exec, execFrameParse, (parseOk_iff s).2 hp, h, if_true]

theorem exec_frameParse_eof {s : State} (hp : s.inPtr.toNat ≤ s.inLen.toNat)
    (h : frameAt s.inBuf s.inLen.toNat s.inPtr.toNat = .eof) :
    exec .frameParse s = .next (raise .unexpectedEof .none { s with errOff := s.inPtr }) := by
  simp only [exec, execFrameParse, (parseOk_iff s).2 hp, h, if_true]

theorem exec_frameParse_outside {s : State} (h : s.inLen.toNat < s.inPtr.toNat) :
    exec .frameParse s = .next (raise .range .none s) :=
  if_neg (mt (parseOk_iff s).1 (Nat.not_le_of_lt h))

end Sys2Proof.Machine

namespace Sys2Proof.Proofs

open Sys2Proof Sys2Proof.Machine

/-- Settles O25: one outcome for each answer of the frame reader, and RANGE before it is asked. -/
theorem frameParseSplitsOneFrame : Obligations.FrameParseSplitsOneFrame := by
  refine ⟨decode_eq_command_iff.2 (by decide), fun s e next hp h => ?ok, fun s st c hp h => ?mismatch,
    fun _ hp h => failsAtFrame_of_eq_raise (exec_frameParse_eof hp h),
    fun _ h => fails_of_eq_raise (exec_frameParse_outside h)⟩
  case ok =>
    exact ⟨_, exec_frameParse_ok hp h, rfl, rfl, rfl, rfl, rfl, ofNat_frameEnd_toNat h, complete_succeeds rfl,
      complete_loadFrame_keepsAllBut e next s⟩
  case mismatch =>
    exact ⟨_, exec_frameParse_mismatch hp h, rfl, rfl, rfl,
      raise_fails .crcMismatch .none { s with errOff := s.inPtr },
      ((setErrOff_keepsAllBut s.inPtr s).trans (setFrameCrcs_keepsAllBut st c _)).trans
        (raise_keepsAllBut .crcMismatch .none _)⟩

end Sys2Proof.Proofs
end

section
/-! FRAME_PARSE_EMIT (43_frame.md R184): it differs from FRAME_PARSE only where the frame reader answers OK. -/

namespace Sys2Proof.Machine

/-- A frame that is not OK is not copied: the command ends as FRAME_PARSE does. -/
theorem exec_frameParseEmit_eq_frameParse {s : State}
    (h : s.inPtr.toNat ≤ s.inLen.toNat → ∀ e next, frameAt s.inBuf s.inLen.toNat s.inPtr.toNat ≠ .ok e next) :
    exec .frameParseEmit s = exec .frameParse s := by
  simp only [exec, execFrameParseEmit, execFrameParse]
  split
  · rename_i hp
    cases hf : frameAt s.inBuf s.inLen.toNat s.inPtr.toNat with
    | eof => rfl
    | mismatch st c => rfl
    | ok e next => exact absurd hf (h ((parseOk_iff s).1 hp) e next)
  · rfl

theorem exec_frameParseEmit_room {s : State} {e : FrameEntry} {next : Nat} (hp : s.inPtr.toNat ≤ s.inLen.toNat)
    (h : frameAt s.inBuf s.inLen.toNat s.inPtr.toNat = .ok e next)
    (hroom : s.outPtr.toNat + e.len.toNat ≤ s.params.outCap.toNat) :
    exec .frameParseEmit s =
      .next (complete (loadFrame e next (emit (memRead s.inBuf e.dataOff.toNat e.len.toNat) s))) := by
  simp only [exec, execFrameParseEmit, (parseOk_iff s).2 hp, h, (roomOk_iff s _).2 hroom, if_true]

theorem exec_frameParseEmit_noRoom {s : State} {e : FrameEntry} {next : Nat} (hp : s.inPtr.toNat ≤ s.inLen.toNat)
    (h : frameAt s.inBuf s.inLen.toNat s.inPtr.toNat = .ok e next)
    (hroom : s.params.outCap.toNat < s.outPtr.toNat + e.len.toNat) :
    exec .frameParseEmit s = .next (raise .capacity .none { s with errOff := s.inPtr }) := by
  simp only [exec, execFrameParseEmit, (parseOk_iff s).2 hp, h, if_true]
  exact if_neg (mt (roomOk_iff s _).1 (Nat.not_le_of_lt hroom))

/-- The payload copied to OUT_BUF, byte for byte: what stands at OUT_PTR is what IN_BUF holds at the data offset. -/
theorem outByte_emit_memRead {s : State} {a n k : Nat} (hk : k < n) :
    outByte (emit (memRead s.inBuf a n) s).outBuf (s.outPtr.toNat + k) = inByte s.inBuf (a + k) := by
  have hlen : k < (memRead s.inBuf a n).length := by rwa [memRead_length]
  exact (emit_outHolds _ s k hlen).trans (memRead_getElem _ _ _ _ hlen)

end Sys2Proof.Machine

namespace Sys2Proof.Proofs

open Sys2Proof Sys2Proof.Machine

/-- Settles O26: the two sides of the room check for an OK frame; every other path is one of FRAME_PARSE's. -/
theorem frameParseEmitCopiesThePayload : Obligations.FrameParseEmitCopiesThePayload := by
  obtain ⟨-, -, hmismatch, heof, hrange⟩ := frameParseSplitsOneFrame
  refine ⟨decode_eq_command_iff.2 (by decide), fun s e next hp h hroom => ?copied,
    fun _ _ _ hp h hroom => failsAtFrame_of_eq_raise (exec_frameParseEmit_noRoom hp h hroom),
    fun s st c hp h => ?mismatch, fun s hp h => ?eof, fun s h => ?range⟩
  case copied =>
    have hlen := memRead_length s.inBuf e.dataOff.toNat e.len.toNat
    exact ⟨_, exec_frameParseEmit_room hp h hroom, fun _ hk => outByte_emit_memRead hk, emit_outPtr_toNat hlen hroom,
      rfl, rfl, rfl, rfl, rfl, ofNat_frameEnd_toNat h, complete_succeeds rfl,
      (emit_keepsAllButStored hlen s).trans (complete_loadFrame_keepsAllBut e next _)⟩
  case mismatch =>
    rw [exec_frameParseEmit_eq_frameParse (by simp [h])]
    exact hmismatch s st c hp h
  case eof =>
    rw [exec_frameParseEmit_eq_frameParse (by simp [h])]
    exact heof s hp h
  case range =>
    rw [exec_frameParseEmit_eq_frameParse (fun hp => absurd hp (Nat.not_le_of_lt h))]
    exact hrange s h

end Sys2Proof.Proofs
end

section
/-! SIG_EMIT (44_stream.md R211): the two sides of its room check. -/

namespace Sys2Proof.Machine

theorem exec_sigEmit_room {s : State} (h : s.outPtr.toNat + 8 ≤ s.params.outCap.toNat) :
    exec .sigEmit s = .next (complete (emit sig s)) :=
  if_pos ((roomOk_iff s 8).2 h)

theorem exec_sigEmit_noRoom {s : State} (h : s.params.outCap.toNat < s.outPtr.toNat + 8) :
    exec .sigEmit s = .next (raise .capacity .none s) :=
  if_neg (mt (roomOk_iff s 8).1 (Nat.not_le_of_lt h))

end Sys2Proof.Machine

namespace Sys2Proof.Proofs

open Sys2Proof Sys2Proof.Machine

/-- Settles O30: with room the command is one store of the signature and the success writes; without, a raise from the
state itself. -/
theorem sigEmitWritesTheSignature : Obligations.SigEmitWritesTheSignature := by
  refine ⟨decode_eq_command_iff.2 (by decide), fun s hroom => ?_, fun _ h => fails_of_eq_raise (exec_sigEmit_noRoom h)⟩
  exact ⟨_, exec_sigEmit_room hroom, emit_outHolds sig s, emit_outPtr_toNat sig_length hroom, complete_succeeds rfl,
    (emit_keepsAllButStored sig_length s).trans (complete_keepsAllBut _)⟩

end Sys2Proof.Proofs
end

section
/-! SIG_CHECK (44_stream.md R212): where its two checks lead, and what stepping over the signature keeps. -/

namespace Sys2Proof.Machine

/-- A success that moves IN_PTR shows in IN_PTR and in STATUS: in its success writes and in EOS, which is computed from
IN_PTR (10_state.md R27). -/
theorem complete_setInPtr_keepsAllBut (v : Word) (s : State) :
    KeepsAllBut [.inPtr, .status] s (complete { s with inPtr := v }) := by
  refine ⟨fun r hr => ?_, fun _ => rfl, fun _ => rfl, fun _ => rfl, runKept_refl s⟩
  cases r with
  | inPtr | status => exact absurd (by decide) hr
  | _ => rfl

theorem exec_sigCheck_signature {s : State} (h : SigAt s s.inPtr.toNat) :
    exec .sigCheck s = .next (complete { s with inPtr := BitVec.ofNat 32 (s.inPtr.toNat + 8) }) :=
  have hp : s.inPtr.toNat ≤ s.inLen.toNat := Nat.le_of_add_right_le h.1
  (if_pos ((parseOk_iff s).2 hp)).trans (if_pos ((sigAtPtr_iff s).2 h))

theorem exec_sigCheck_noSignature {s : State} (hp : s.inPtr.toNat ≤ s.inLen.toNat) (h : ¬ SigAt s s.inPtr.toNat) :
    exec .sigCheck s = .next (raise .invalidSignature .none { s with errOff := s.inPtr }) :=
  (if_pos ((parseOk_iff s).2 hp)).trans (if_neg (mt (sigAtPtr_iff s).1 h))

theorem exec_sigCheck_outside {s : State} (h : s.inLen.toNat < s.inPtr.toNat) :
    exec .sigCheck s = .next (raise .range .none s) :=
  if_neg (mt (parseOk_iff s).1 (Nat.not_le_of_lt h))

/-- Past the signature IN_PTR is exact: the signature ends at or below IN_LEN, which fits a register. -/
theorem ofNat_signatureEnd_toNat {s : State} (h : SigAt s s.inPtr.toNat) :
    (BitVec.ofNat 32 (s.inPtr.toNat + 8)).toNat = s.inPtr.toNat + 8 :=
  word_toNat (Nat.lt_of_le_of_lt h.1 s.inLen.isLt)

/-- The signature is absent when it is cut short by IN_LEN or when its bytes differ (44_stream.md R212). -/
theorem not_sigAt_iff {s : State} {p : Nat} : ¬ SigAt s p ↔ s.inLen.toNat < p + 8 ∨ memRead s.inBuf p 8 ≠ sig := by
  rw [SigAt, not_and_or, Nat.not_le]

end Sys2Proof.Machine

namespace Sys2Proof.Proofs

open Sys2Proof Sys2Proof.Machine

/-- Settles O31: one outcome for a signature at IN_PTR, one for its absence, and RANGE before it is looked for. -/
theorem sigCheckStepsOverTheSignature : Obligations.SigCheckStepsOverTheSignature := by
  refine ⟨decode_eq_command_iff.2 (by decide), fun s hin hbytes => ?_,
    fun _ hp h => failsAtFrame_of_eq_raise (exec_sigCheck_noSignature hp (not_sigAt_iff.2 h)),
    fun _ h => fails_of_eq_raise (exec_sigCheck_outside h)⟩
  have hsig : SigAt s s.inPtr.toNat := ⟨hin, hbytes⟩
  exact ⟨_, exec_sigCheck_signature hsig, ofNat_signatureEnd_toNat hsig, complete_succeeds rfl,
    complete_setInPtr_keepsAllBut _ s⟩

end Sys2Proof.Proofs
end

section
/-! The failing paths of every command (60_exceptions.md R230, R240): which error each raises, and on which diagnostic
writes. -/

namespace Sys2Proof.Machine

/-! ## What the diagnostic writes show in -/

/-- Naming more registers claims less. -/
theorem KeepsAllBut.regsKeptBut {rs rs' : List Reg} {s t : State} (h : KeepsAllBut rs s t) (hrs : rs ⊆ rs') :
    RegsKeptBut rs' s t := by
  obtain ⟨hregs, -⟩ := h
  exact fun r hr => hregs r (fun hmem => hr (hrs hmem))

/-- With FRAME_COUNT 0 no entry is selected (10_state.md R47). -/
theorem readReg_ftWindow_of_frameCount_eq_zero {t : State} (h : t.frameCount = 0) {r : Reg}
    (hr : r ∈ [Reg.ftType, .ftLen, .ftDataOff, .ftCrc]) : readReg t r = 0 := by
  have hpast : t.frameCount.toNat ≤ t.ftIndex.toNat := by simp [h]
  fin_cases hr <;> exact ftWindow_past hpast _

/-- The writes of a stopped stream parse show in their own registers and, through FRAME_COUNT, in the frame table window
(10_state.md R47). -/
theorem stopStream_keepsAllBut (q k : Nat) (s : State) :
    KeepsAllBut [.errOff, .errFrame, .frameCount, .ftType, .ftLen, .ftDataOff, .ftCrc] s (stopStream q k s) := by
  refine ⟨fun r hr => ?_, fun _ => rfl, fun _ => rfl, fun _ => rfl, runKept_refl s⟩
  cases r with
  | errOff | errFrame | frameCount | ftType | ftLen | ftDataOff | ftCrc => exact absurd (by decide) hr
  | _ => rfl

/-! ## The paths -/

/-- A path on which command `i` fails from `s`: it raises `e(sub)` on the state `u`, which is `s` with the path's
diagnostic writes. -/
inductive FailurePath (i : Instr) (s : State) : ErrorKind → ErrorKind → State → Prop where
  | badOperand (e : ErrorKind) (kind : e = .invalidChunkType ∨ e = .range) : FailurePath i s e .none s
  | noSignature (cmd : i = .sigCheck) : FailurePath i s .invalidSignature .none { s with errOff := s.inPtr }
  | frameCut : FailurePath i s .unexpectedEof .none { s with errOff := s.inPtr }
  | frameCrc (st c : Word) :
      FailurePath i s .crcMismatch .none { s with errOff := s.inPtr, storedCrc := st, computedCrc := c }
  | noRoom (cmd : i = .frameSerialize ∨ i = .sigEmit) : FailurePath i s .capacity .none s
  | noRoomForPayload (cmd : i = .frameParseEmit) : FailurePath i s .capacity .none { s with errOff := s.inPtr }
  | streamNoSignature (cmd : i = .streamParse) :
      FailurePath i s .invalidSignature .none (stopStream s.inPtr.toNat 0 s)
  | streamFull (q k : Nat) (cmd : i = .streamParse) : FailurePath i s .capacity .none (stopStream q k s)
  | streamCut (q k : Nat) (cmd : i = .streamParse) :
      FailurePath i s .malformedChunkStream .unexpectedEof (stopStream q k s)
  | streamCrc (q k : Nat) (st c : Word) (cmd : i = .streamParse) :
      FailurePath i s .malformedChunkStream .crcMismatch { stopStream q k s with storedCrc := st, computedCrc := c }

/-- No diagnostic write reaches a buffer or the frame table. -/
theorem FailurePath.keepsMemories {i : Instr} {s u : State} {e sub : ErrorKind} (h : FailurePath i s e sub u) :
    InKept s u ∧ OutKept s u ∧ TableKept s u := by
  cases h <;> exact ⟨fun _ => rfl, fun _ => rfl, fun _ => rfl⟩

/-- The outcomes of command `i` from `s`: the success writes, or a raise at the end of one of the failing paths. -/
inductive EndsOnPath (i : Instr) (s : State) : Host.Outcome State Fault Refusal → Prop where
  | success (u : State) : EndsOnPath i s (.next (complete u))
  | failure {e sub : ErrorKind} {u : State} (path : FailurePath i s e sub u) : EndsOnPath i s (.next (raise e sub u))

/-- A command that makes a check ends as one of the two branches does. -/
theorem EndsOnPath.ite {i : Instr} {s : State} {c : Prop} [Decidable c] {a b : Host.Outcome State Fault Refusal}
    (ha : EndsOnPath i s a) (hb : EndsOnPath i s b) : EndsOnPath i s (if c then a else b) := by
  split
  · exact ha
  · exact hb

theorem exec_endsOnPath (i : Instr) (s : State) : EndsOnPath i s (exec i s) := by
  have hrange : EndsOnPath i s (.next (raise .range .none s)) := .failure (.badOperand _ (.inr rfl))
  have hcut : EndsOnPath i s (.next (raise .unexpectedEof .none { s with errOff := s.inPtr })) := .failure .frameCut
  have hcrc st c : EndsOnPath i s
      (.next (raise .crcMismatch .none { s with errOff := s.inPtr, storedCrc := st, computedCrc := c })) :=
    .failure (.frameCrc st c)
  cases i with
  | nop | crcInit | crcFinal => exact .success _
  | crcFeed | crcCompute | typeFromBytes | typeCmp => exact .ite (.success _) hrange
  | typeFromString =>
    have htype : EndsOnPath .typeFromString s (.next (raise .invalidChunkType .none s)) :=
      .failure (.badOperand _ (.inl rfl))
    exact .ite (.ite (.ite (.success _) htype) htype) hrange
  | frameSerialize => exact .ite (.ite (.success _) (.failure (.noRoom (.inl rfl)))) hrange
  | frameParse =>
    refine .ite ?_ hrange
    split
    · exact hcut
    · exact hcrc _ _
    · exact .success _
  | frameParseEmit =>
    refine .ite ?_ hrange
    split
    · exact hcut
    · exact hcrc _ _
    · exact .ite (.success _) (.failure (.noRoomForPayload rfl))
  | sigEmit => exact .ite (.success _) (.failure (.noRoom (.inr rfl)))
  | sigCheck => exact .ite (.ite (.success _) (.failure (.noSignature rfl))) hrange
  | streamParse =>
    refine .ite (.ite ?_ (.failure (.streamNoSignature rfl))) hrange
    split
    · exact .failure (.streamCut _ _ rfl)
    · exact .failure (.streamCrc _ _ _ _ rfl)
    · exact .failure (.streamFull _ _ rfl)
    · exact .success _

/-- Every command ends by its success writes or at the end of a failing path. -/
theorem exec_completes_or_fails (i : Instr) (s : State) : (∃ u, exec i s = .next (complete u))
    ∨ ∃ e sub u, FailurePath i s e sub u ∧ exec i s = .next (raise e sub u) := by
  have hends := exec_endsOnPath i s
  generalize exec i s = o at hends ⊢
  cases hends with
  | success u => exact .inl ⟨u, rfl⟩
  | failure path => exact .inr ⟨_, _, _, path, rfl⟩

end Sys2Proof.Machine

namespace Sys2Proof.Proofs

open Sys2Proof Sys2Proof.Machine

/-- Settles O36: `raise` writes STATUS alone, so what a failure writes besides is what its path wrote before. -/
theorem failureWritesOnlyStatusAndDiagnostics : Obligations.FailureWritesOnlyStatusAndDiagnostics := by
  refine ⟨fun i s => ?command, fun w s hw => ?illegalWord⟩
  case illegalWord =>
    exact ⟨_, issue_illegal hw s, raise_fails .illegalCommand .none _,
      (writeReg_cmd_keepsAllBut w s).trans (raise_keepsAllBut .illegalCommand .none _)⟩
  case command =>
    obtain ⟨u, hu⟩ | ⟨e, sub, u, path, hu⟩ := exec_completes_or_fails i s
    · exact ⟨_, hu, .inl ⟨rfl, rfl, rfl⟩⟩
    obtain ⟨hin, hout, htable⟩ := path.keepsMemories
    have hregs {rs rs'} (hdiag : KeepsAllBut rs s u) (hrs : rs ++ [.status] ⊆ rs') :
        RegsKeptBut rs' s (raise e sub u) := (hdiag.trans (raise_keepsAllBut e sub u)).regsKeptBut hrs
    refine ⟨_, hu, .inr ⟨rfl, rfl, exec_keeps_eq hu (.inr rfl), hin, hout, exec_runKept hu, fun _ => htable,
      fun h0 _ => readReg_ftWindow_of_frameCount_eq_zero h0, ?_⟩⟩
    cases path with
    | badOperand e kind =>
      exact .inl ⟨kind.imp (congrArg ErrorKind.code) (congrArg ErrorKind.code), rfl,
        (raise_keepsAllBut e .none s).regsKeptBut (List.Subset.refl _)⟩
    | noSignature cmd => exact .inr <| .inl ⟨rfl, rfl, cmd, hregs (setErrOff_keepsAllBut _ s) (by decide)⟩
    | frameCut => exact .inr <| .inr <| .inl ⟨rfl, rfl, hregs (setErrOff_keepsAllBut _ s) (by decide)⟩
    | frameCrc st c =>
      have hdiag := (setErrOff_keepsAllBut s.inPtr s).trans (setFrameCrcs_keepsAllBut st c _)
      exact .inr <| .inr <| .inr <| .inl ⟨rfl, rfl, hregs hdiag (by decide)⟩
    | noRoom cmd =>
      exact .inr <| .inr <| .inr <| .inr <| .inl ⟨rfl, rfl, cmd,
        (raise_keepsAllBut .capacity .none s).regsKeptBut (List.Subset.refl _)⟩
    | noRoomForPayload cmd =>
      exact .inr <| .inr <| .inr <| .inr <| .inr <| .inl ⟨rfl, rfl, cmd,
        hregs (setErrOff_keepsAllBut _ s) (by decide)⟩
    | streamNoSignature cmd =>
      exact .inr <| .inr <| .inr <| .inr <| .inr <| .inr <| .inl ⟨cmd, rfl, .inl ⟨.inl ⟨rfl, rfl⟩, rfl⟩,
        hregs (stopStream_keepsAllBut _ _ s) (by decide)⟩
    | streamFull q k cmd =>
      exact .inr <| .inr <| .inr <| .inr <| .inr <| .inr <| .inl ⟨cmd, rfl, .inl ⟨.inr rfl, rfl⟩,
        hregs (stopStream_keepsAllBut _ _ s) (by decide)⟩
    | streamCut q k cmd =>
      exact .inr <| .inr <| .inr <| .inr <| .inr <| .inr <| .inl ⟨cmd, rfl, .inr ⟨rfl, rfl⟩,
        hregs (stopStream_keepsAllBut _ _ s) (by decide)⟩
    | streamCrc q k st c cmd =>
      have hdiag := (stopStream_keepsAllBut q k s).trans (setFrameCrcs_keepsAllBut st c _)
      exact .inr <| .inr <| .inr <| .inr <| .inr <| .inr <| .inr ⟨cmd, rfl, rfl, rfl, hregs hdiag (by decide)⟩

end Sys2Proof.Proofs
end

section
/-! What the registers read after a reset (70_reset_and_hazards.md R260): the reset column of 10_state.md R22. -/

namespace Sys2Proof.Machine

/-- The reset value of each register, with parameters `p` (10_state.md R22). EOS is set, as IN_PTR and IN_LEN are both 0
(R27), and so are the three type flags a zero bit stands for (R131 to R136). -/
def resetValue (p : Params) : Reg → Word
  | .status => 0x00000004
  | .typeFlags => 0x0000000E
  | .crcAcc => 0xFFFFFFFF
  | .id => 0x504E4701
  | .capIn => p.inCap
  | .capOut => p.outCap
  | .capFrames => p.maxFrames
  | _ => 0

theorem statusWord_resetWith (p : Params) : statusWord (State.resetWith p) = 0x00000004 := by
  have heos : eos (State.resetWith p) = true := beq_self_eq_true 0
  have hstatus : (State.resetWith p).status = Status.reset := rfl
  rw [statusWord, heos, hstatus]
  decide

theorem typeFlags_zero : typeFlags 0 = 0x0000000E := by decide

theorem readReg_resetWith (p : Params) (r : Reg) : readReg (State.resetWith p) r = resetValue p r := by
  cases r with
  | status => exact statusWord_resetWith p
  | typeFlags => exact typeFlags_zero
  | ftType | ftLen | ftDataOff | ftCrc => exact readReg_ftWindow_of_frameCount_eq_zero rfl (by decide)
  | _ => rfl

/-- A later reset shows in the registers as power-on does: the frame table it leaves in place is not seen, since
FRAME_COUNT is 0 after it (R261). -/
theorem readReg_assertReset (s : State) (r : Reg) :
    readReg (assertReset s) r = readReg (State.resetWith s.params) r := by
  cases r with
  | ftType | ftLen | ftDataOff | ftCrc =>
    rw [readReg_resetWith]
    exact readReg_ftWindow_of_frameCount_eq_zero rfl (by decide)
  | _ => rfl

theorem step_reset {s : State} {rest : List HostEvent} (h : s.pending = .reset :: rest) :
    step s = .next (assertReset { s with pending := rest }) := step_cons h

end Sys2Proof.Machine

namespace Sys2Proof.Proofs

open Sys2Proof Sys2Proof.Machine

/-- Settles O56: both resets leave each register at its `resetValue`, and the statement's values are that table's. -/
theorem resetLoadsTheResetValues : Obligations.ResetLoadsTheResetValues := by
  unfold Obligations.ResetLoadsTheResetValues
  intro loaded
  have hloaded : ∀ (p : Params) (t : State), (∀ r, readReg t r = resetValue p r) → loaded p t := by
    intro p t h
    refine ⟨fun r hr => ?_, h .crcAcc, h .status, h .typeFlags, h .id, h .capIn, h .capOut, h .capFrames⟩
    rw [h r]
    fin_cases hr <;> rfl
  refine ⟨fun p => hloaded p _ (readReg_resetWith p), fun s rest h => ?_⟩
  have hreset (r : Reg) : readReg (assertReset { s with pending := rest }) r = resetValue s.params r :=
    (readReg_assertReset _ r).trans (readReg_resetWith _ r)
  exact ⟨_, step_reset h, hloaded s.params _ hreset, rfl⟩

end Sys2Proof.Proofs
end

section
/-! The encoder against the decoder (30_encoding.md R90, R93): R93's table holds each command once, in the row of the
word its fields spell. -/

namespace Sys2Proof

theorem encode_mem_commandTable (i : Instr) : (encode i, i) ∈ commandTable := by
  cases i <;> decide

theorem decode_encode (i : Instr) : decode (encode i) = .command i :=
  decode_eq_command_iff.2 (encode_mem_commandTable i)

theorem encode_of_mem_commandTable : ∀ row ∈ commandTable, encode row.2 = row.1 := by decide

theorem encode_of_decode {w : Word} {i : Instr} (h : decode w = .command i) : encode i = w :=
  encode_of_mem_commandTable (w, i) (decode_eq_command_iff.1 h)

end Sys2Proof

namespace Sys2Proof.Proofs

open Sys2Proof Sys2Proof.Machine

/-- Settles O4: the rows of the table are the encodings, so a word outside it is the encoding of none. -/
theorem decodeEncodeAgree : Obligations.DecodeEncodeAgree := by
  refine ⟨fun i _ => decode_encode i, fun w => ?_⟩
  cases hw : decode w with
  | command i => exact encode_of_decode hw
  | illegal why =>
    rintro i rfl
    rw [decode_encode] at hw
    cases hw

/-- Settles O1: four rows of the table, and an illegal word with no RSV bit set and an assigned opcode. -/
theorem sampleWordsDecode : Obligations.SampleWordsDecode := by
  refine ⟨?_, ?_, ?_, ?_, rfl⟩ <;> exact decode_eq_command_iff.2 (by decide)

end Sys2Proof.Proofs
end

section
/-! STREAM_PARSE (44_stream.md R213): where its checks and the ends of its frame loop lead. -/

namespace Sys2Proof.Machine

theorem exec_streamParse_outside {s : State} (h : s.inLen.toNat < s.inPtr.toNat) :
    exec .streamParse s = .next (raise .range .none s) :=
  if_neg (mt (parseOk_iff s).1 (Nat.not_le_of_lt h))

theorem exec_streamParse_noSignature {s : State} (hp : s.inPtr.toNat ≤ s.inLen.toNat) (h : ¬ SigAt s s.inPtr.toNat) :
    exec .streamParse s = .next (raise .invalidSignature .none (stopStream s.inPtr.toNat 0 s)) :=
  (if_pos ((parseOk_iff s).2 hp)).trans (if_neg (mt (sigAtPtr_iff s).1 h))

/-- The two checks before the frame loop pass where the signature stands at IN_PTR. -/
theorem streamChecks_of_sigAt {s : State} (h : SigAt s s.inPtr.toNat) : parseOk s = true ∧ sigAtPtr s = true :=
  ⟨(parseOk_iff s).2 (Nat.le_of_add_right_le h.1), (sigAtPtr_iff s).2 h⟩

theorem exec_streamParse_done {s : State} {es : List FrameEntry} (hs : SigAt s s.inPtr.toNat)
    (h : streamFrames s = .done es) : exec .streamParse s = .next (complete { s with
      ft := storeFrames es s.ft, frameCount := BitVec.ofNat 32 es.length, inPtr := s.inLen }) := by
  obtain ⟨hp, hsig⟩ := streamChecks_of_sigAt hs
  simp only [exec, execStreamParse, hp, hsig, h, if_true]

theorem exec_streamParse_eof {s : State} {q k : Nat} (hs : SigAt s s.inPtr.toNat) (h : streamFrames s = .eof q k) :
    exec .streamParse s = .next (raise .malformedChunkStream .unexpectedEof (stopStream q k s)) := by
  obtain ⟨hp, hsig⟩ := streamChecks_of_sigAt hs
  simp only [exec, execStreamParse, hp, hsig, h, if_true]

theorem exec_streamParse_mismatch {s : State} {q k : Nat} {st c : Word} (hs : SigAt s s.inPtr.toNat)
    (h : streamFrames s = .mismatch q k st c) : exec .streamParse s = .next
      (raise .malformedChunkStream .crcMismatch { stopStream q k s with storedCrc := st, computedCrc := c }) := by
  obtain ⟨hp, hsig⟩ := streamChecks_of_sigAt hs
  simp only [exec, execStreamParse, hp, hsig, h, if_true]

theorem exec_streamParse_full {s : State} {q k : Nat} (hs : SigAt s s.inPtr.toNat) (h : streamFrames s = .full q k) :
    exec .streamParse s = .next (raise .capacity .none (stopStream q k s)) := by
  obtain ⟨hp, hsig⟩ := streamChecks_of_sigAt hs
  simp only [exec, execStreamParse, hp, hsig, h, if_true]

end Sys2Proof.Machine
end

section
/-! The succeeding paths of every command: what each has found, and what it has written before its success writes. With
`FailurePath` they are all a command can do. -/

namespace Sys2Proof.Machine

/-- A path on which command `i` succeeds from `s`: what its checks have found, and the state `u` its success writes are
made on. -/
inductive SuccessPath (s : State) : Instr → State → Prop where
  | nop : SuccessPath s .nop { s with status := { s.status with anyErr := false } }
  | crcInit : SuccessPath s .crcInit (writeReg .crcAcc crcInitial s)
  | crcFeed (inside : s.argOff.toNat + s.argLen.toNat ≤ s.inLen.toNat) :
      SuccessPath s .crcFeed (writeReg .crcAcc (crcUpdate s.crcAcc (window s s.argLen.toNat)) s)
  | crcFinal : SuccessPath s .crcFinal { s with crcResult := s.crcAcc ^^^ 0xFFFFFFFF }
  | crcCompute (inside : s.argOff.toNat + s.argLen.toNat ≤ s.inLen.toNat) :
      SuccessPath s .crcCompute { writeReg .crcAcc (crcUpdate crcInitial (window s s.argLen.toNat)) s with
        crcResult := crc32 (window s s.argLen.toNat) }
  | typeFromBytes (inside : s.argOff.toNat + 4 ≤ s.inLen.toNat) :
      SuccessPath s .typeFromBytes (writeReg .type (be32 (window s 4)) s)
  | typeFromString (inside : s.argOff.toNat + s.argLen.toNat ≤ s.inLen.toNat) (four : s.argLen.toNat = 4)
      (ascii : (window s 4).all (fun b => b.toNat < 0x80) = true) :
      SuccessPath s .typeFromString (writeReg .type (be32 (window s 4)) s)
  | typeCmp (inside : s.argOff.toNat + 4 ≤ s.inLen.toNat) :
      SuccessPath s .typeCmp { s with status := statusAtSuccess .typeCmp s }
  | frameSerialize (inside : s.argOff.toNat + s.argLen.toNat ≤ s.inLen.toNat)
      (room : s.outPtr.toNat + (12 + s.argLen.toNat) ≤ s.params.outCap.toNat) :
      SuccessPath s .frameSerialize { emit (frameBytes s.typeReg (window s s.argLen.toNat)) s with
        len := s.argLen, computedCrc := crc32 (be32bytes s.typeReg ++ window s s.argLen.toNat) }
  | frameParse {e : FrameEntry} {next : Nat} (inside : s.inPtr.toNat ≤ s.inLen.toNat)
      (frame : frameAt s.inBuf s.inLen.toNat s.inPtr.toNat = .ok e next) :
      SuccessPath s .frameParse (loadFrame e next s)
  | frameParseEmit {e : FrameEntry} {next : Nat} (inside : s.inPtr.toNat ≤ s.inLen.toNat)
      (frame : frameAt s.inBuf s.inLen.toNat s.inPtr.toNat = .ok e next)
      (room : s.outPtr.toNat + e.len.toNat ≤ s.params.outCap.toNat) :
      SuccessPath s .frameParseEmit (loadFrame e next (emit (memRead s.inBuf e.dataOff.toNat e.len.toNat) s))
  | sigEmit (room : s.outPtr.toNat + 8 ≤ s.params.outCap.toNat) : SuccessPath s .sigEmit (emit sig s)
  | sigCheck (signature : SigAt s s.inPtr.toNat) :
      SuccessPath s .sigCheck { s with inPtr := BitVec.ofNat 32 (s.inPtr.toNat + 8) }
  | streamParse {es : List FrameEntry} (stream : WellFormedStream s s.inPtr.toNat es)
      (fits : es.length ≤ s.params.maxFrames.toNat) :
      SuccessPath s .streamParse
        { s with ft := storeFrames es s.ft, frameCount := BitVec.ofNat 32 es.length, inPtr := s.inLen }

/-- The outcomes of command `i` from `s`: the success writes at the end of a succeeding path, or a raise. -/
inductive SucceedsOnPath (s : State) (i : Instr) : Host.Outcome State Fault Refusal → Prop where
  | success {u : State} (path : SuccessPath s i u) : SucceedsOnPath s i (.next (complete u))
  | failure (e sub : ErrorKind) (u : State) : SucceedsOnPath s i (.next (raise e sub u))

/-- Past a check that holds, a command goes on with what the check has found; else it raises. -/
theorem SucceedsOnPath.check {s : State} {i : Instr} {c : Prop} [Decidable c] {a : Host.Outcome State Fault Refusal}
    {e sub : ErrorKind} {u : State} (ha : c → SucceedsOnPath s i a) :
    SucceedsOnPath s i (if c then a else .next (raise e sub u)) := by
  split
  · next hc => exact ha hc
  · exact .failure e sub u

theorem exec_succeedsOnPath (i : Instr) (s : State) : SucceedsOnPath s i (exec i s) := by
  cases i with
  | nop => exact .success .nop
  | crcInit => exact .success .crcInit
  | crcFeed => exact .check fun h => .success (.crcFeed ((windowOk_iff s _).1 h))
  | crcFinal => exact .success .crcFinal
  | crcCompute => exact .check fun h => .success (.crcCompute ((windowOk_iff s _).1 h))
  | typeFromBytes => exact .check fun h => .success (.typeFromBytes ((windowOk_iff s _).1 h))
  | typeFromString =>
    exact .check fun h => .check fun hfour => .check fun hascii =>
      .success (.typeFromString ((windowOk_iff s _).1 h) hfour hascii)
  | typeCmp => exact .check fun h => .success (.typeCmp ((windowOk_iff s _).1 h))
  | frameSerialize =>
    exact .check fun h => .check fun hroom =>
      .success (.frameSerialize ((windowOk_iff s _).1 h) ((roomOk_iff s _).1 hroom))
  | frameParse =>
    refine .check fun h => ?_
    split
    · exact .failure _ _ _
    · exact .failure _ _ _
    · next hframe => exact .success (.frameParse ((parseOk_iff s).1 h) hframe)
  | frameParseEmit =>
    refine .check fun h => ?_
    split
    · exact .failure _ _ _
    · exact .failure _ _ _
    · next hframe =>
      exact .check fun hroom => .success (.frameParseEmit ((parseOk_iff s).1 h) hframe ((roomOk_iff s _).1 hroom))
  | sigEmit => exact .check fun h => .success (.sigEmit ((roomOk_iff s _).1 h))
  | sigCheck => exact .check fun _ => .check fun h => .success (.sigCheck ((sigAtPtr_iff s).1 h))
  | streamParse =>
    refine .check fun hp => .check fun hsig => ?_
    split
    · exact .failure _ _ _
    · exact .failure _ _ _
    · exact .failure _ _ _
    · next hdone =>
      have hexec := exec_streamParse_done ((sigAtPtr_iff s).1 hsig) hdone
      obtain ⟨es, hstream, hfits, heq⟩ := streamParse_success hexec rfl
      exact heq ▸ .success (.streamParse hstream hfits)

/-- Every command ends by its success writes at the end of a succeeding path, or by a raise at the end of a failing
one. -/
theorem exec_path {i : Instr} {s t : State} (h : exec i s = .next t) :
    (∃ u, SuccessPath s i u ∧ t = complete u) ∨ ∃ e sub u, FailurePath i s e sub u ∧ t = raise e sub u := by
  have hends := exec_succeedsOnPath i s
  rw [h] at hends
  cases hends with
  | success path => exact .inl ⟨_, path, rfl⟩
  | failure e sub u =>
    obtain ⟨v, hv⟩ | ⟨e', sub', v, path, hv⟩ := exec_completes_or_fails i s
    · have hraise : raise e sub u = complete v := Host.Outcome.next.inj (h.symm.trans hv)
      exact absurd (congrArg (·.status.err) hraise) Bool.noConfusion
    · exact .inr ⟨e', sub', v, path, Host.Outcome.next.inj (h.symm.trans hv)⟩

end Sys2Proof.Machine
end

section
/-! The invariant (10_state.md R29 to R35, R44, R45): the parts of the state it speaks of, and what each of their writes
keeps of it. -/

namespace Sys2Proof.Machine

/-! ## What the invariant reads -/

/-- The parts of the state that the invariant speaks of, STATUS apart. -/
def State.stores (s : State) : Params × Word × Word × Word × List FrameEntry × Memory × Memory :=
  (s.params, s.inLen, s.outPtr, s.frameCount, s.ft, s.inBuf, s.outBuf)

/-- A state with a legal STATUS and the stores of one with the invariant has it too. -/
theorem State.Inv.of_stores_eq {s t : State} (h : s.Inv) (hlegal : t.status.legal = true) (heq : t.stores = s.stores) :
    t.Inv := by
  simp only [State.stores, Prod.mk.injEq] at heq
  obtain ⟨hparams, hinLen, houtPtr, hcount, hft, hin, hout⟩ := heq
  constructor
  case status_legal => exact hlegal
  all_goals simp only [hparams, hinLen, houtPtr, hcount, hft, hin, hout]
  · exact h.params_ok
  · exact h.inLen_le_cap
  · exact h.outPtr_le_cap
  · exact h.frames_written
  · exact h.table_fits
  · exact h.frames_inside
  · exact h.inBuf_canonical
  · exact h.outBuf_canonical
  · exact h.inBuf_within_cap
  · exact h.outBuf_within_cap

/-! ## STATUS (10_state.md R25, R28 to R30) -/

theorem complete_status_legal (s : State) : (complete s).status.legal = true := rfl

/-- The pairs of code and subcode that the failing paths raise are those of 60_exceptions.md R230 and R231. -/
theorem FailurePath.raise_status_legal {i : Instr} {s u : State} {e sub : ErrorKind} (h : FailurePath i s e sub u) :
    (raise e sub u).status.legal = true := by
  cases h with
  | badOperand e kind => obtain rfl | rfl := kind <;> rfl
  | _ => rfl

/-! ## The writes of the stores -/

/-- The success writes keep the invariant, whatever STATUS they are made on. -/
theorem State.Inv.complete {s u : State} (h : s.Inv) (heq : u.stores = s.stores) : (complete u).Inv :=
  h.of_stores_eq (complete_status_legal u) heq

/-- Past the room check a store to OUT_BUF keeps the invariant. -/
theorem State.Inv.emit {s : State} {bs : List Byte} {n : Nat} (h : s.Inv) (hn : bs.length = n)
    (hroom : s.outPtr.toNat + n ≤ s.params.outCap.toNat) : (emit bs s).Inv where
  params_ok := h.params_ok
  status_legal := h.status_legal
  inLen_le_cap := h.inLen_le_cap
  outPtr_le_cap := (emit_outPtr_toNat hn hroom).trans_le hroom
  frames_written := h.frames_written
  table_fits := h.table_fits
  frames_inside := h.frames_inside
  inBuf_canonical := h.inBuf_canonical
  outBuf_canonical := wf_memWrite _ bs h.outBuf_canonical
  inBuf_within_cap := h.inBuf_within_cap
  outBuf_within_cap := memWrite_below h.outBuf_within_cap (hn.symm ▸ hroom)

/-- The stored frames are the parsed ones and later entries of the old table. -/
theorem mem_storeFrames {es ft : List FrameEntry} {e : FrameEntry} (h : e ∈ storeFrames es ft) : e ∈ es ∨ e ∈ ft :=
  (List.mem_append.1 h).imp_right List.mem_of_mem_drop

theorem storeFrames_length (es ft : List FrameEntry) : (storeFrames es ft).length = max es.length ft.length := by
  simp only [storeFrames, List.length_append, List.length_drop]
  omega

/-- The frames of a well-formed stream that fits the table may be stored in it. -/
theorem State.Inv.storeFrames {s : State} {es : List FrameEntry} (h : s.Inv)
    (hstream : WellFormedStream s s.inPtr.toNat es) (hfits : es.length ≤ s.params.maxFrames.toNat) :
    { s with ft := storeFrames es s.ft, frameCount := BitVec.ofNat 32 es.length, inPtr := s.inLen }.Inv where
  params_ok := h.params_ok
  status_legal := h.status_legal
  inLen_le_cap := h.inLen_le_cap
  outPtr_le_cap := h.outPtr_le_cap
  frames_written := by
    rw [storeFrames_length, BitVec.toNat_ofNat]
    exact (Nat.mod_le _ _).trans (Nat.le_max_left _ _)
  table_fits := (storeFrames_length es s.ft).trans_le (Nat.max_le.2 ⟨hfits, h.table_fits⟩)
  frames_inside := fun e he => (mem_storeFrames he).elim
    (fun hes => (frameChain_inside hes hstream.2).trans h.inLen_le_cap) (h.frames_inside e)
  inBuf_canonical := h.inBuf_canonical
  outBuf_canonical := h.outBuf_canonical
  inBuf_within_cap := h.inBuf_within_cap
  outBuf_within_cap := h.outBuf_within_cap

/-- FRAME_COUNT may go to 0, and STATUS to any legal value. -/
theorem State.Inv.hideFrames {s t : State} (h : s.Inv) (hlegal : t.status.legal = true)
    (heq : t.stores = { s with frameCount := 0 }.stores) : t.Inv := by
  have hzero : { s with frameCount := 0 }.Inv := { h with frames_written := Nat.zero_le _ }
  exact hzero.of_stores_eq hlegal heq

/-! ## Commands -/

theorem SuccessPath.keepsInv {s u : State} {i : Instr} (h : SuccessPath s i u) (hs : s.Inv) : (complete u).Inv := by
  cases h with
  | frameSerialize _ room => exact (hs.emit (frameBytes_window_length s) room).complete rfl
  | frameParseEmit _ _ room => exact (hs.emit (memRead_length _ _ _) room).complete rfl
  | sigEmit room => exact (hs.emit sig_length room).complete rfl
  | streamParse stream fits => exact (hs.storeFrames stream fits).complete rfl
  | _ => exact hs.complete rfl

theorem FailurePath.keepsInv {i : Instr} {s u : State} {e sub : ErrorKind} (h : FailurePath i s e sub u) (hs : s.Inv) :
    (raise e sub u).Inv := by
  have hlegal := h.raise_status_legal
  cases h with
  | streamNoSignature | streamFull | streamCut | streamCrc => exact hs.hideFrames hlegal rfl
  | _ => exact hs.of_stores_eq hlegal rfl

theorem exec_keepsInv {i : Instr} {s t : State} (h : exec i s = .next t) (hs : s.Inv) : t.Inv := by
  obtain ⟨u, path, rfl⟩ | ⟨e, sub, u, path, rfl⟩ := exec_path h
  · exact path.keepsInv hs
  · exact path.keepsInv hs

theorem issue_keepsInv {w : Word} {s t : State} (h : issue w s = .next t) (hs : s.Inv) : t.Inv := by
  have hcmd : { s with cmd := w }.Inv := hs.of_stores_eq hs.status_legal rfl
  obtain ⟨i, -, hi⟩ | ⟨-, rfl⟩ := issue_cases h
  · exact exec_keepsInv hi hcmd
  · exact hcmd.of_stores_eq rfl rfl

/-! ## Steps -/

theorem clamp_le (v cap : Word) : (clamp v cap).toNat ≤ cap.toNat :=
  (clamp_toNat v cap).trans_le (Nat.min_le_right _ _)

theorem writeReg_keepsInv {s : State} (r : Reg) (v : Word) (hs : s.Inv) : (writeReg r v s).Inv := by
  cases r with
  | inLen => exact { hs with inLen_le_cap := clamp_le v s.params.inCap }
  | outPtr => exact { hs with outPtr_le_cap := clamp_le v s.params.outCap }
  | _ => exact hs.of_stores_eq hs.status_legal rfl

/-- A byte written below a bound keeps a memory below it. -/
theorem write_below {m : Memory} {a cap : Nat} {v : Byte} (h : ∀ c ∈ m, c.1 < cap) (ha : a < cap) :
    ∀ c ∈ m.write a v, c.1 < cap :=
  memWrite_below (bs := [v]) h ha

theorem AccessEffect.keepsInv {s t : State} {a : HostAccess} (h : AccessEffect s a t) (hs : s.Inv) : t.Inv := by
  cases h with
  | read => exact hs.of_stores_eq hs.status_legal rfl
  | command v issued => exact issue_keepsInv issued hs
  | register r v _ => exact writeReg_keepsInv r _ hs
  | reserved => exact hs
  | inBuf off v inside =>
    exact { hs with
      inBuf_canonical := wf_write _ _ hs.inBuf_canonical
      inBuf_within_cap := write_below hs.inBuf_within_cap inside }
  | outBuf off v inside =>
    exact { hs with
      outBuf_canonical := wf_write _ _ hs.outBuf_canonical
      outBuf_within_cap := write_below hs.outBuf_within_cap inside }

/-- A reset sets IN_LEN, OUT_PTR and FRAME_COUNT to 0 and leaves the buffers and the table. -/
theorem assertReset_keepsInv {s : State} (hs : s.Inv) : (assertReset s).Inv :=
  { hs with
    status_legal := rfl, inLen_le_cap := Nat.zero_le _, outPtr_le_cap := Nat.zero_le _
    frames_written := Nat.zero_le _ }

/-- The output of an abandoned command ends inside OUT_BUF, as the completed command's does. -/
theorem abandonedEnd_le_cap {s : State} (w : Word) (hs : s.Inv) : abandonedEnd w s ≤ s.params.outCap.toNat := by
  obtain hend | ⟨i, u, -, hu, hend⟩ := abandonedEnd_cases w s
  · exact hend.trans_le hs.outPtr_le_cap
  · obtain ⟨hparams, -⟩ := exec_runKept hu
    exact hend.trans_le (hparams ▸ (exec_keepsInv hu hs).outPtr_le_cap)

theorem abandon_keepsInv {s : State} (w : Word) (hs : s.Inv) : (abandon w s).Inv :=
  { assertReset_keepsInv hs with
    outBuf_canonical := wf_memWrite _ _ hs.outBuf_canonical
    outBuf_within_cap := by
      have hend := abandonedEnd_le_cap w hs
      have hptr := hs.outPtr_le_cap
      refine memWrite_below hs.outBuf_within_cap ?_
      rw [abandonedBytes_length]
      show s.outPtr.toNat + (abandonedEnd w s - s.outPtr.toNat) ≤ s.params.outCap.toNat
      omega }

end Sys2Proof.Machine

namespace Sys2Proof.Proofs

open Sys2Proof Sys2Proof.Machine

/-- Settles O60: an idle step, a host access, a reset and a reset during a command each keep the invariant. -/
theorem stepKeepsTheInvariant : Obligations.StepKeepsTheInvariant := by
  intro s t hs h
  have htaken (rest : List HostEvent) : { s with pending := rest }.Inv := hs.of_stores_eq hs.status_legal rfl
  obtain ⟨-, rfl⟩ | ⟨rest, ⟨a, -, ha⟩ | ⟨-, rfl⟩ | ⟨w, -, rfl⟩⟩ := step_cases h
  · exact hs
  · exact ha.keepsInv (htaken rest)
  · exact assertReset_keepsInv (htaken rest)
  · exact abandon_keepsInv w (htaken rest)

/-- Settles O59: nothing is written yet, and every register the invariant bounds is 0. -/
theorem powerOnStateHasTheInvariant : Obligations.PowerOnStateHasTheInvariant := fun _ hp =>
  { params_ok := hp, status_legal := rfl
    inLen_le_cap := Nat.zero_le _, outPtr_le_cap := Nat.zero_le _
    frames_written := Nat.zero_le _, table_fits := Nat.zero_le _
    frames_inside := fun _ he => absurd he List.not_mem_nil
    inBuf_canonical := rfl, outBuf_canonical := rfl
    inBuf_within_cap := fun _ hc => absurd hc List.not_mem_nil
    outBuf_within_cap := fun _ hc => absurd hc List.not_mem_nil }

end Sys2Proof.Proofs
end

section
/-! What every command leaves alone: the host's registers and IN_BUF, the registers of the CRC generator, and OUT_BUF
but for a whole output (10_state.md R23, R31 to R33, R38, R39, R46; 20_memory.md R64, R68). -/

namespace Sys2Proof.Machine

/-! ## The host's registers and IN_BUF -/

/-- No command writes what is the host's to write. -/
theorem exec_keeps_hostWritten {i : Instr} {s t : State} (h : exec i s = .next t) :
    t.cmd = s.cmd ∧ t.argOff = s.argOff ∧ t.argLen = s.argLen ∧ t.inLen = s.inLen ∧ t.ftIndex = s.ftIndex
      ∧ t.inBuf = s.inBuf := by
  obtain ⟨u, path, rfl⟩ | ⟨e, sub, u, path, rfl⟩ := exec_path h <;> cases path <;> exact ⟨rfl, rfl, rfl, rfl, rfl, rfl⟩

/-! ## CRC_ACC and CRC_RESULT -/

theorem exec_keeps_crcAcc {i : Instr} {s t : State} (h : exec i s = .next t) (hinit : i ≠ .crcInit)
    (hfeed : i ≠ .crcFeed) (hcompute : i ≠ .crcCompute) : t.crcAcc = s.crcAcc := by
  obtain ⟨u, path, rfl⟩ | ⟨e, sub, u, path, rfl⟩ := exec_path h
  · cases path with
    | crcInit => exact absurd rfl hinit
    | crcFeed => exact absurd rfl hfeed
    | crcCompute => exact absurd rfl hcompute
    | _ => rfl
  · cases path <;> rfl

theorem exec_keeps_crcResult {i : Instr} {s t : State} (h : exec i s = .next t) (hfinal : i ≠ .crcFinal)
    (hcompute : i ≠ .crcCompute) : t.crcResult = s.crcResult := by
  obtain ⟨u, path, rfl⟩ | ⟨e, sub, u, path, rfl⟩ := exec_path h
  · cases path with
    | crcFinal => exact absurd rfl hfinal
    | crcCompute => exact absurd rfl hcompute
    | _ => rfl
  · cases path <;> rfl

/-! ## OUT_BUF -/

/-- `t` has the bytes `bs` at the OUT_PTR of `s`, inside OUT_CAP, its own OUT_PTR past them, and every other byte of
OUT_BUF as it was. -/
def WritesOutput (bs : List Byte) (s t : State) : Prop :=
  t.outPtr.toNat = s.outPtr.toNat + bs.length ∧ t.outPtr.toNat ≤ s.params.outCap.toNat
    ∧ OutHolds t s.outPtr.toNat bs ∧ OutKeptOutside s.outPtr.toNat bs.length s t

theorem emit_writesOutput {bs : List Byte} {n : Nat} {s : State} (hn : bs.length = n)
    (hroom : s.outPtr.toNat + n ≤ s.params.outCap.toNat) : WritesOutput bs s (emit bs s) := by
  subst hn
  have hptr := emit_outPtr_toNat rfl hroom
  obtain ⟨-, -, hout, -⟩ := emit_keepsAllButStored rfl s
  exact ⟨hptr, hptr.trans_le hroom, emit_outHolds bs s, hout⟩

/-- The output of each command that writes OUT_BUF, from the registers it starts from and those it leaves. -/
theorem exec_success_writesOutput {i : Instr} {s t : State} (h : exec i s = .next t) (he : t.status.err = false)
    (hi : i = .frameSerialize ∨ i = .frameParseEmit ∨ i = .sigEmit) : ∃ bs : List Byte,
      (i = .frameSerialize → bs = be32bytes s.argLen ++ be32bytes s.typeReg
        ++ memRead s.inBuf s.argOff.toNat s.argLen.toNat ++ be32bytes t.computedCrc)
      ∧ (i = .frameParseEmit → bs = memRead s.inBuf t.dataOff.toNat t.len.toNat)
      ∧ (i = .sigEmit → bs = sig) ∧ WritesOutput bs s t := by
  obtain ⟨u, path, rfl⟩ | ⟨e, sub, u, -, rfl⟩ := exec_path h
  · obtain rfl | rfl | rfl := hi
    · cases path with
      | frameSerialize _ room =>
        exact ⟨_, fun _ => frameBytes_window s, nofun, nofun, emit_writesOutput (frameBytes_window_length s) room⟩
    · cases path with
      | frameParseEmit _ _ room =>
        exact ⟨_, nofun, fun _ => rfl, nofun, emit_writesOutput (memRead_length _ _ _) room⟩
    · cases path with
      | sigEmit room => exact ⟨_, nofun, nofun, fun _ => rfl, emit_writesOutput sig_length room⟩
  · cases he

/-- A command that fails, or that is none of those three, moves no OUT_PTR and writes no byte of OUT_BUF. -/
theorem exec_keeps_output {i : Instr} {s t : State} (h : exec i s = .next t)
    (hi : t.status.err = true ∨ (i ≠ .frameSerialize ∧ i ≠ .frameParseEmit ∧ i ≠ .sigEmit)) :
    t.outPtr = s.outPtr ∧ t.outBuf = s.outBuf := by
  obtain ⟨u, path, rfl⟩ | ⟨e, sub, u, path, rfl⟩ := exec_path h
  · obtain ⟨hser, hpay, hsig⟩ := hi.resolve_left Bool.noConfusion
    cases path with
    | frameSerialize => exact absurd rfl hser
    | frameParseEmit => exact absurd rfl hpay
    | sigEmit => exact absurd rfl hsig
    | _ => exact ⟨rfl, rfl⟩
  · cases path <;> exact ⟨rfl, rfl⟩

end Sys2Proof.Machine

namespace Sys2Proof.Proofs

open Sys2Proof Sys2Proof.Machine

/-- Settles O39: no path of a command writes what the host writes, and none touches the host's side of the run. -/
theorem commandsNeverWriteTheHostsRegisters : Obligations.CommandsNeverWriteTheHostsRegisters := by
  intro i s t h
  obtain ⟨hcmd, hoff, hlen, hinLen, hindex, hin⟩ := exec_keeps_hostWritten h
  exact ⟨hcmd, hoff, hlen, hinLen, hindex, fun a => congrArg (inByte · a) hin, exec_runKept h⟩

/-- Settles O16: the paths of the other commands leave both registers. -/
theorem onlyTheCrcGeneratorWritesItsRegisters : Obligations.OnlyTheCrcGeneratorWritesItsRegisters :=
  fun _ _ _ h => ⟨exec_keeps_crcAcc h, exec_keeps_crcResult h⟩

/-- Settles O38: a succeeding path stores its whole output past the room check; every other path stores nothing. -/
theorem outputIsAllOrNothing : Obligations.OutputIsAllOrNothing := by
  intro i s t h
  refine ⟨exec_success_writesOutput h, fun hi => ?_⟩
  obtain ⟨hptr, hout⟩ := exec_keeps_output h hi
  exact ⟨hptr, fun a => congrArg (outByte · a) hout⟩

end Sys2Proof.Proofs
end

section
/-! RANGE (20_memory.md R66, R67): every command that reads a window or parses makes that check first. -/

namespace Sys2Proof.Machine

/-- What command `i` reads or parses from reaches past IN_LEN, by the exact sum. -/
def PastInLen (i : Instr) (s : State) : Prop :=
  (i = .crcFeed ∨ i = .crcCompute ∨ i = .typeFromString ∨ i = .frameSerialize)
      ∧ s.inLen.toNat < s.argOff.toNat + s.argLen.toNat
    ∨ (i = .typeFromBytes ∨ i = .typeCmp) ∧ s.inLen.toNat < s.argOff.toNat + 4
    ∨ (i = .frameParse ∨ i = .frameParseEmit ∨ i = .sigCheck ∨ i = .streamParse) ∧ s.inLen.toNat < s.inPtr.toNat

/-- The outcome is a next state in which ERRCODE is not RANGE's. -/
inductive NotRange : Host.Outcome State Fault Refusal → Prop where
  | success (u : State) : NotRange (.next (complete u))
  | failure (e sub : ErrorKind) (u : State) (kind : e.code ≠ 9) : NotRange (.next (raise e sub u))

theorem NotRange.ite {c : Prop} [Decidable c] {a b : Host.Outcome State Fault Refusal} (ha : NotRange a)
    (hb : NotRange b) : NotRange (if c then a else b) := by
  split
  · exact ha
  · exact hb

theorem NotRange.errCode_ne {t : State} (h : NotRange (.next t)) : t.status.errCode ≠ 9 := by
  cases h with
  | success u => exact (by decide : (0 : BitVec 4) ≠ 9)
  | failure e sub u kind => exact kind

/-- The outcome of a command that first makes a check which fails just when `past` holds: past IN_LEN it raises RANGE,
and otherwise it never does. -/
inductive ChecksRange (past : Prop) (s : State) : Host.Outcome State Fault Refusal → Prop where
  | inside {o : Host.Outcome State Fault Refusal} (not_past : ¬ past) (rest : NotRange o) : ChecksRange past s o
  | outside (is_past : past) : ChecksRange past s (.next (raise .range .none s))

theorem ChecksRange.check {past : Prop} {s : State} {c : Prop} [Decidable c] {a : Host.Outcome State Fault Refusal}
    (hc : ¬ c ↔ past) (ha : NotRange a) : ChecksRange past s (if c then a else .next (raise .range .none s)) := by
  split
  · next h => exact .inside (fun hpast => hc.2 hpast h) ha
  · next h => exact .outside (hc.1 h)

theorem windowOk_fails_iff (s : State) (n : Nat) : ¬ windowOk s n = true ↔ s.inLen.toNat < s.argOff.toNat + n := by
  rw [windowOk_iff, Nat.not_le]

theorem parseOk_fails_iff (s : State) : ¬ parseOk s = true ↔ s.inLen.toNat < s.inPtr.toNat := by
  rw [parseOk_iff, Nat.not_le]

theorem exec_checksRange (i : Instr) (s : State) : ChecksRange (PastInLen i s) s (exec i s) := by
  have heof : NotRange (.next (raise .unexpectedEof .none { s with errOff := s.inPtr })) := .failure _ _ _ (by decide)
  have hcrc st c : NotRange
      (.next (raise .crcMismatch .none { s with errOff := s.inPtr, storedCrc := st, computedCrc := c })) :=
    .failure _ _ _ (by decide)
  have hcapacity u : NotRange (.next (raise .capacity .none u)) := .failure _ _ _ (by decide)
  have hsignature u : NotRange (.next (raise .invalidSignature .none u)) := .failure _ _ _ (by decide)
  have hstream sub u : NotRange (.next (raise .malformedChunkStream sub u)) := .failure _ _ _ (by decide)
  cases i with
  | nop | crcInit | crcFinal => exact .inside (by simp [PastInLen]) (.success _)
  | crcFeed | crcCompute | typeFromBytes | typeCmp =>
    exact .check ((windowOk_fails_iff s _).trans (by simp [PastInLen])) (.success _)
  | typeFromString =>
    have htype : NotRange (.next (raise .invalidChunkType .none s)) := .failure _ _ _ (by decide)
    exact .check ((windowOk_fails_iff s _).trans (by simp [PastInLen])) (.ite (.ite (.success _) htype) htype)
  | frameSerialize =>
    exact .check ((windowOk_fails_iff s _).trans (by simp [PastInLen])) (.ite (.success _) (hcapacity s))
  | frameParse =>
    refine .check ((parseOk_fails_iff s).trans (by simp [PastInLen])) ?_
    split
    · exact heof
    · exact hcrc _ _
    · exact .success _
  | frameParseEmit =>
    refine .check ((parseOk_fails_iff s).trans (by simp [PastInLen])) ?_
    split
    · exact heof
    · exact hcrc _ _
    · exact .ite (.success _) (hcapacity _)
  | sigEmit => exact .inside (by simp [PastInLen]) (.ite (.success _) (hcapacity s))
  | sigCheck => exact .check ((parseOk_fails_iff s).trans (by simp [PastInLen])) (.ite (.success _) (hsignature _))
  | streamParse =>
    refine .check ((parseOk_fails_iff s).trans (by simp [PastInLen])) (.ite ?_ (hsignature _))
    split
    · exact hstream _ _
    · exact hstream _ _
    · exact hcapacity _
    · exact .success _

end Sys2Proof.Machine

namespace Sys2Proof.Proofs

open Sys2Proof Sys2Proof.Machine

/-- Settles O37: the check decides which outcomes are left, and RANGE is raised by it alone. -/
theorem rangeRaisedExactlyPastInLen : Obligations.RangeRaisedExactlyPastInLen := by
  intro i s t h
  change t.status.errCode = 9 ↔ PastInLen i s
  have hcheck := exec_checksRange i s
  rw [h] at hcheck
  cases hcheck with
  | inside hnot rest => exact iff_of_false rest.errCode_ne hnot
  | outside hpast => exact iff_of_true rfl hpast

end Sys2Proof.Proofs
end

section
/-! A parse command that failed, issued again (70_reset_and_hazards.md R272): what it wrote, STATUS and the diagnostic
registers, no parse command reads, so the same path is taken and writes the same values. -/

namespace Sys2Proof.Machine

/-- No failing path moves IN_PTR, writes IN_LEN or writes IN_BUF. -/
theorem exec_failure_keeps_input {i : Instr} {s t : State} (h : exec i s = .next t) (he : t.status.err = true) :
    t.inPtr = s.inPtr ∧ t.inLen = s.inLen ∧ t.inBuf = s.inBuf := by
  obtain ⟨u, -, rfl⟩ | ⟨e, sub, u, path, rfl⟩ := exec_path h
  · cases he
  · cases path <;> exact ⟨rfl, rfl, rfl⟩

theorem exec_frameParse_again {s t : State} (h : exec .frameParse s = .next t) (he : t.status.err = true) :
    exec .frameParse t = .next t := by
  rcases Nat.lt_or_ge s.inLen.toNat s.inPtr.toNat with hout | hp
  · cases h.symm.trans (exec_frameParse_outside hout)
    exact exec_frameParse_outside (s := raise _ _ _) hout
  cases hf : frameAt s.inBuf s.inLen.toNat s.inPtr.toNat with
  | eof =>
    cases h.symm.trans (exec_frameParse_eof hp hf)
    exact exec_frameParse_eof (s := raise _ _ _) hp hf
  | mismatch st c =>
    cases h.symm.trans (exec_frameParse_mismatch hp hf)
    exact exec_frameParse_mismatch (s := raise _ _ _) hp hf
  | ok e next =>
    cases h.symm.trans (exec_frameParse_ok hp hf)
    cases he

theorem exec_frameParseEmit_again {s t : State} (h : exec .frameParseEmit s = .next t) (he : t.status.err = true) :
    exec .frameParseEmit t = .next t := by
  by_cases hok : s.inPtr.toNat ≤ s.inLen.toNat ∧ ∃ e next, frameAt s.inBuf s.inLen.toNat s.inPtr.toNat = .ok e next
  · obtain ⟨hp, e, next, hf⟩ := hok
    rcases Nat.lt_or_ge s.params.outCap.toNat (s.outPtr.toNat + e.len.toNat) with hfull | hroom
    · cases h.symm.trans (exec_frameParseEmit_noRoom hp hf hfull)
      exact exec_frameParseEmit_noRoom (s := raise _ _ _) hp hf hfull
    · cases h.symm.trans (exec_frameParseEmit_room hp hf hroom)
      cases he
  · have hnot hp e next hf := hok ⟨hp, e, next, hf⟩
    rw [exec_frameParseEmit_eq_frameParse hnot] at h
    obtain ⟨hptr, hlen, hbuf⟩ := exec_failure_keeps_input h he
    rw [← hptr, ← hlen, ← hbuf] at hnot
    exact (exec_frameParseEmit_eq_frameParse hnot).trans (exec_frameParse_again h he)

theorem exec_sigCheck_again {s t : State} (h : exec .sigCheck s = .next t) (he : t.status.err = true) :
    exec .sigCheck t = .next t := by
  rcases Nat.lt_or_ge s.inLen.toNat s.inPtr.toNat with hout | hp
  · cases h.symm.trans (exec_sigCheck_outside hout)
    exact exec_sigCheck_outside (s := raise _ _ _) hout
  by_cases hsig : SigAt s s.inPtr.toNat
  · cases h.symm.trans (exec_sigCheck_signature hsig)
    cases he
  · cases h.symm.trans (exec_sigCheck_noSignature hp hsig)
    exact exec_sigCheck_noSignature (s := raise _ _ _) hp hsig

theorem exec_streamParse_again {s t : State} (h : exec .streamParse s = .next t) (he : t.status.err = true) :
    exec .streamParse t = .next t := by
  rcases Nat.lt_or_ge s.inLen.toNat s.inPtr.toNat with hout | hp
  · cases h.symm.trans (exec_streamParse_outside hout)
    exact exec_streamParse_outside (s := raise _ _ _) hout
  by_cases hsig : SigAt s s.inPtr.toNat
  · cases hf : streamFrames s with
    | done es =>
      cases h.symm.trans (exec_streamParse_done hsig hf)
      cases he
    | eof q k =>
      cases h.symm.trans (exec_streamParse_eof hsig hf)
      exact exec_streamParse_eof (s := raise _ _ _) hsig hf
    | mismatch q k st c =>
      cases h.symm.trans (exec_streamParse_mismatch hsig hf)
      exact exec_streamParse_mismatch (s := raise _ _ _) hsig hf
    | full q k =>
      cases h.symm.trans (exec_streamParse_full hsig hf)
      exact exec_streamParse_full (s := raise _ _ _) hsig hf
  · cases h.symm.trans (exec_streamParse_noSignature hp hsig)
    exact exec_streamParse_noSignature (s := raise _ _ _) hp hsig

end Sys2Proof.Machine

namespace Sys2Proof.Proofs

open Sys2Proof Sys2Proof.Machine

/-- Settles O40: one failing path after another for each parse command, taken again at the state it left. -/
theorem failedParseFailsAgainTheSameWay : Obligations.FailedParseFailsAgainTheSameWay := by
  rintro i s t (rfl | rfl | rfl | rfl) h he
  · exact exec_frameParse_again h he
  · exact exec_frameParseEmit_again h he
  · exact exec_sigCheck_again h he
  · exact exec_streamParse_again h he

end Sys2Proof.Proofs
end

section
/-! What a command's effect depends on: of STATUS nothing but what it keeps of it, of IN_BUF the bytes below IN_LEN, and
of OUT_BUF nothing (10_state.md R33, R57; 20_memory.md R64). -/

namespace Sys2Proof.Machine

/-- `s` with another STATUS and other buffers. -/
abbrev State.vary (st : Status) (mi mo : Memory) (s : State) : State :=
  { s with status := st, inBuf := mi, outBuf := mo }

/-! ## What is read is the same -/

section
variable {s : State} {mi : Memory} (hmi : ∀ a < s.inLen.toNat, inByte mi a = inByte s.inBuf a)
include hmi

theorem memRead_below_inLen {a n : Nat} (h : a + n ≤ s.inLen.toNat) : memRead mi a n = memRead s.inBuf a n :=
  memRead_congr fun k _ hk => hmi k (by omega)

theorem window_vary {st : Status} {mo : Memory} {n : Nat} (h : windowOk s n = true) :
    window (s.vary st mi mo) n = window s n :=
  memRead_below_inLen hmi ((windowOk_iff s n).1 h)

theorem frameAt_vary (st : Status) (mo : Memory) :
    frameAt (s.vary st mi mo).inBuf (s.vary st mi mo).inLen.toNat (s.vary st mi mo).inPtr.toNat
      = frameAt s.inBuf s.inLen.toNat s.inPtr.toNat :=
  frameAt_congr hmi

theorem sigAtPtr_vary (st : Status) (mo : Memory) : sigAtPtr (s.vary st mi mo) = sigAtPtr s := by
  rw [Bool.eq_iff_iff, sigAtPtr_iff, sigAtPtr_iff]
  exact and_congr_right fun h => by rw [memRead_below_inLen hmi h]

theorem streamFrames_vary (st : Status) (mo : Memory) : streamFrames (s.vary st mi mo) = streamFrames s :=
  parseFrames_congr hmi

theorem payload_vary {e : FrameEntry} {next : Nat} (h : frameAt s.inBuf s.inLen.toNat s.inPtr.toNat = .ok e next) :
    memRead mi e.dataOff.toNat e.len.toNat = memRead s.inBuf e.dataOff.toNat e.len.toNat := by
  obtain ⟨hend, hnext, hoff, -⟩ := frameAt_ok_bounds h s.inLen.isLt
  exact memRead_below_inLen hmi (by omega)

end

/-! ## What is written is the same -/

/-- The outcomes of one command from `s` and from `s.vary st mi mo`: they end in the same state `t` but for STATUS,
which both have from the STATUS before by the same `g`, and for the buffers, which hold the same new bytes `bs` at
OUT_PTR. -/
inductive SameEffect (s : State) (st : Status) (mi mo : Memory) :
    Host.Outcome State Fault Refusal → Host.Outcome State Fault Refusal → Prop where
  | intro (g : Status → Status) (bs : List Byte) (t : State)
      (flags : ∀ x y, (g x).err = (g y).err ∧ (g x).errCode = (g y).errCode ∧ (g x).errSub = (g y).errSub)
      (outPtr : t.outPtr.toNat ≤ s.outPtr.toNat + bs.length) :
      SameEffect s st mi mo (.next (t.vary (g s.status) s.inBuf (memWrite s.outBuf s.outPtr.toNat bs)))
        (.next (t.vary (g st) mi (memWrite mo s.outPtr.toNat bs)))

section
variable {s : State} {st : Status} {mi mo : Memory}

theorem SameEffect.ite {c : Prop} [Decidable c] {a b a' b' : Host.Outcome State Fault Refusal}
    (ha : c → SameEffect s st mi mo a a') (hb : SameEffect s st mi mo b b') :
    SameEffect s st mi mo (if c then a else b) (if c then a' else b') := by
  split
  · next h => exact ha h
  · exact hb

/-- A success that stores `bs`. -/
theorem SameEffect.emitted (bs : List Byte) (u : State) (h : u.outPtr.toNat ≤ s.outPtr.toNat + bs.length) :
    SameEffect s st mi mo
      (.next (complete (u.vary s.status s.inBuf (memWrite s.outBuf s.outPtr.toNat bs))))
      (.next (complete (u.vary st mi (memWrite mo s.outPtr.toNat bs)))) :=
  .intro (fun x => { x with err := false, errCode := 0, errSub := 0 }) bs u (fun _ _ => ⟨rfl, rfl, rfl⟩) h

/-- A success that stores nothing. -/
theorem SameEffect.completed (u : State) (h : u.outPtr = s.outPtr := by rfl) :
    SameEffect s st mi mo (.next (complete (u.vary s.status s.inBuf s.outBuf))) (.next (complete (u.vary st mi mo))) :=
  .emitted [] u (h ▸ Nat.le_refl _)

/-- A failure. -/
theorem SameEffect.raised (e sub : ErrorKind) (u : State) (h : u.outPtr = s.outPtr := by rfl) :
    SameEffect s st mi mo (.next (raise e sub (u.vary s.status s.inBuf s.outBuf)))
      (.next (raise e sub (u.vary st mi mo))) :=
  .intro (fun x => { x with err := true, anyErr := true, errCode := e.code, errSub := sub.code }) [] u
    (fun _ _ => ⟨rfl, rfl, rfl⟩) (h ▸ Nat.le_refl _)

theorem emit_outPtr_le (bs : List Byte) (s : State) : (emit bs s).outPtr.toNat ≤ s.outPtr.toNat + bs.length :=
  Nat.mod_le _ _

theorem exec_sameEffect (i : Instr) (hmi : ∀ a < s.inLen.toNat, inByte mi a = inByte s.inBuf a) :
    SameEffect s st mi mo (exec i s) (exec i (s.vary st mi mo)) := by
  have hrange : SameEffect s st mi mo (.next (raise .range .none s)) (.next (raise .range .none (s.vary st mi mo))) :=
    .raised _ _ s
  have heof : SameEffect s st mi mo (.next (raise .unexpectedEof .none { s with errOff := s.inPtr }))
      (.next (raise .unexpectedEof .none { s.vary st mi mo with errOff := s.inPtr })) :=
    .raised _ _ { s with errOff := s.inPtr }
  have hcrc stored c : SameEffect s st mi mo
      (.next (raise .crcMismatch .none { s with errOff := s.inPtr, storedCrc := stored, computedCrc := c }))
      (.next (raise .crcMismatch .none
        { s.vary st mi mo with errOff := s.inPtr, storedCrc := stored, computedCrc := c })) :=
    .raised _ _ { s with errOff := s.inPtr, storedCrc := stored, computedCrc := c }
  cases i with
  | nop =>
    exact .intro (fun x => { x with err := false, anyErr := false, errCode := 0, errSub := 0 }) [] s
      (fun _ _ => ⟨rfl, rfl, rfl⟩) (Nat.le_refl _)
  | crcInit => exact .completed (writeReg .crcAcc crcInitial s)
  | crcFeed =>
    refine .ite (fun h => ?_) hrange
    rw [window_vary hmi h]
    exact .completed (writeReg .crcAcc (crcUpdate s.crcAcc (window s s.argLen.toNat)) s)
  | crcFinal => exact .completed { s with crcResult := s.crcAcc ^^^ 0xFFFFFFFF }
  | crcCompute =>
    refine .ite (fun h => ?_) hrange
    rw [window_vary hmi h]
    exact .completed { s with
      crcAcc := crcUpdate crcInitial (window s s.argLen.toNat), crcResult := crc32 (window s s.argLen.toNat) }
  | typeFromBytes =>
    refine .ite (fun h => ?_) hrange
    rw [window_vary hmi h]
    exact .completed (writeReg .type (be32 (window s 4)) s)
  | typeFromString =>
    refine .ite (fun h => ?_) hrange
    have htype : SameEffect s st mi mo (.next (raise .invalidChunkType .none s))
        (.next (raise .invalidChunkType .none (s.vary st mi mo))) := .raised _ _ s
    refine .ite (fun hfour => ?_) htype
    rw [window_vary hmi (hfour ▸ h)]
    exact .ite (fun _ => .completed (writeReg .type (be32 (window s 4)) s)) htype
  | typeCmp => 
    refine .ite (fun h => ?_) hrange
    rw [window_vary hmi h]
    exact .intro
      (fun x => { x with err := false, eq := s.typeReg == be32 (window s 4), errCode := 0, errSub := 0 }) [] s
      (fun _ _ => ⟨rfl, rfl, rfl⟩) (Nat.le_refl _)
  | frameSerialize => 
    refine .ite (fun h => .ite (fun _ => ?_) (.raised .capacity .none s)) hrange
    rw [window_vary hmi h]
    exact .emitted _ { emit (frameBytes s.typeReg (window s s.argLen.toNat)) s with
      len := s.argLen, computedCrc := crc32 (be32bytes s.typeReg ++ window s s.argLen.toNat) } (emit_outPtr_le _ s)
  | frameParse =>
    refine .ite (fun _ => ?_) hrange
    rw [frameAt_vary hmi]
    cases frameAt s.inBuf s.inLen.toNat s.inPtr.toNat with
    | eof => exact heof
    | mismatch stored c => exact hcrc stored c
    | ok e next => exact .completed (loadFrame e next s)
  | frameParseEmit =>
    refine .ite (fun _ => ?_) hrange
    rw [frameAt_vary hmi]
    cases hf : frameAt s.inBuf s.inLen.toNat s.inPtr.toNat with
    | eof => exact heof
    | mismatch stored c => exact hcrc stored c
    | ok e next =>
      refine .ite (fun _ => ?_) (.raised .capacity .none { s with errOff := s.inPtr })
      rw [payload_vary hmi hf]
      exact .emitted _ (loadFrame e next (emit (memRead s.inBuf e.dataOff.toNat e.len.toNat) s)) (emit_outPtr_le _ s)
  | sigEmit => exact .ite (fun _ => .emitted sig (emit sig s) (emit_outPtr_le sig s)) (.raised .capacity .none s)
  | sigCheck =>
    refine .ite (fun _ => ?_) hrange
    rw [sigAtPtr_vary hmi]
    exact .ite (fun _ => .completed { s with inPtr := BitVec.ofNat 32 (s.inPtr.toNat + 8) })
      (.raised .invalidSignature .none { s with errOff := s.inPtr })
  | streamParse =>
    refine .ite (fun _ => ?_) hrange
    rw [sigAtPtr_vary hmi, streamFrames_vary hmi]
    refine .ite (fun _ => ?_) (.raised .invalidSignature .none (stopStream s.inPtr.toNat 0 s))
    cases streamFrames s with
    | done es =>
      exact .completed
        { s with ft := storeFrames es s.ft, frameCount := BitVec.ofNat 32 es.length, inPtr := s.inLen }
    | eof q k => exact .raised .malformedChunkStream .unexpectedEof (stopStream q k s)
    | mismatch q k stored c =>
      exact .raised .malformedChunkStream .crcMismatch { stopStream q k s with storedCrc := stored, computedCrc := c }
    | full q k => exact .raised .capacity .none (stopStream q k s)

end

/-- The bytes a run of writes leaves do not depend on the memory written to. -/
theorem outByte_memWrite_congr {m m' : Memory} {a k : Nat} {bs : List Byte} (hlo : a ≤ k) (hhi : k < a + bs.length) :
    outByte (memWrite m' a bs) k = outByte (memWrite m a bs) k := by
  obtain ⟨j, rfl⟩ := Nat.exists_eq_add_of_le hlo
  rw [outByte_memWrite_inside _ _ _ _ (by omega), outByte_memWrite_inside _ _ _ _ (by omega)]

end Sys2Proof.Machine

namespace Sys2Proof.Proofs

open Sys2Proof Sys2Proof.Machine

/-- Settles O41: `exec_sameEffect` with the buffers as they are: only STATUS can differ, and not in the flags that say
how the command ended. -/
theorem commandsReadNoStatusFlag : Obligations.CommandsReadNoStatusFlag := by
  intro i s st
  have hsame := exec_sameEffect (st := st) (mo := s.outBuf) i fun a (_ : a < s.inLen.toNat) => rfl
  generalize exec i s = o, exec i (s.vary st s.inBuf s.outBuf) = o' at hsame ⊢
  obtain ⟨g, bs, t, flags, -⟩ := hsame
  exact ⟨_, _, rfl, rfl, rfl, flags st s.status⟩

/-- Settles O42: `exec_sameEffect` with STATUS as it is. -/
theorem commandsReadOnlyDeclaredInput : Obligations.CommandsReadOnlyDeclaredInput := by
  intro i s mi mo hmi
  have hsame := exec_sameEffect (st := s.status) (mo := mo) i hmi
  generalize ht : exec i s = o, exec i (s.vary s.status mi mo) = o' at hsame ⊢
  obtain ⟨g, bs, t, -, hptr⟩ := hsame
  obtain ⟨-, -, -, hinLen, -⟩ := exec_keeps_hostWritten ht
  exact ⟨_, _, rfl, rfl, rfl, fun a ha => hmi a (hinLen ▸ ha),
    fun a hlo hhi => outByte_memWrite_congr hlo (Nat.lt_of_lt_of_le hhi hptr)⟩

end Sys2Proof.Proofs
end

section
/-! The parameters of placement and latency (20_memory.md R76, 70_reset_and_hazards.md R275): no access, no reset and no
command reads them. -/

namespace Sys2Proof.Machine

/-- `s` with other base addresses and another latency. -/
def State.placed (lat rb ib ob : Nat) (s : State) : State :=
  { s with params := { s.params with latency := lat, regBase := rb, inBase := ib, outBase := ob } }

section
variable (lat rb ib ob : Nat)

theorem exec_placed (i : Instr) (s : State) :
    exec i (s.placed lat rb ib ob) = mapNext (State.placed lat rb ib ob) (exec i s) := by
  have hplaced := exec_reframe i s s.cmd s.ftIndex s.draws s.pending s.hostReads rb ib ob lat
  have hown := exec_reframe i s s.cmd s.ftIndex s.draws s.pending s.hostReads s.params.regBase s.params.inBase
    s.params.outBase s.params.latency
  obtain ⟨t, ht⟩ := exec_next i s
  have hsame : reframe s.cmd s.ftIndex s.draws s.pending s.hostReads s.params.regBase s.params.inBase s.params.outBase
    s.params.latency s = s := rfl
  rw [hsame, ht] at hown
  rw [ht] at hplaced ⊢
  have hkept := congrArg (State.placed lat rb ib ob) (Host.Outcome.next.inj hown)
  exact hplaced.trans (congrArg Host.Outcome.next hkept.symm)

theorem issue_placed (w : Word) (s : State) :
    issue w (s.placed lat rb ib ob) = mapNext (State.placed lat rb ib ob) (issue w s) := by
  unfold issue
  cases decode w with
  | command i => exact exec_placed lat rb ib ob i (writeReg .cmd w s)
  | illegal why => rfl

theorem hostRead_placed (s : State) (sp : Space) (off : Nat) :
    hostRead (s.placed lat rb ib ob) sp off = hostRead s sp off := by
  cases sp with
  | reg =>
    simp only [hostRead]
    cases regAt off with
    | none => rfl
    | some r => cases r <;> rfl
  | inBuf => rfl
  | outBuf => rfl

theorem hostWrite_placed (w : Word) (s : State) (sp : Space) (off : Nat) :
    hostWrite w (s.placed lat rb ib ob) sp off = mapNext (State.placed lat rb ib ob) (hostWrite w s sp off) := by
  cases sp with
  | reg =>
    simp only [hostWrite]
    cases regAt off with
    | none => rfl
    | some r =>
      cases r with
      | cmd => exact issue_placed lat rb ib ob w s
      | _ => rfl
  | inBuf => rfl
  | outBuf => rfl

theorem hostAccess_placed (a : HostAccess) (s : State) :
    hostAccess a (s.placed lat rb ib ob) = mapNext (State.placed lat rb ib ob) (hostAccess a s) := by
  have hfault : accessFault (s.placed lat rb ib ob).params a = accessFault s.params a := rfl
  unfold hostAccess
  rw [hfault]
  cases accessFault s.params a with
  | some f => rfl
  | none =>
    cases a.op with
    | read =>
      simp only [hostRead_placed]
      rfl
    | write v =>
      cases v <;> exact hostWrite_placed lat rb ib ob _ s a.space a.offset

theorem abandon_placed (w : Word) (s : State) :
    abandon w (s.placed lat rb ib ob) = (abandon w s).placed lat rb ib ob := by
  have hend : abandonedEnd w (s.placed lat rb ib ob) = abandonedEnd w s := by
    unfold abandonedEnd
    cases decode w with
    | command i =>
      simp only [exec_placed]
      cases exec i s <;> rfl
    | illegal why => rfl
  unfold abandon
  rw [hend]
  rfl

theorem hostEvent_placed (e : HostEvent) (s : State) :
    hostEvent e (s.placed lat rb ib ob) = mapNext (State.placed lat rb ib ob) (hostEvent e s) := by
  cases e with
  | access a => exact hostAccess_placed lat rb ib ob a s
  | reset => rfl
  | resetDuring w => exact congrArg Host.Outcome.next (abandon_placed lat rb ib ob w s)
  | abandonedReply => rfl

end

end Sys2Proof.Machine

namespace Sys2Proof.Proofs

open Sys2Proof Sys2Proof.Machine

/-- Settles O43: each kind of event commutes with the change. -/
theorem latencyAndPlacementChangeNothing : Obligations.LatencyAndPlacementChangeNothing := by
  intro s lat rb ib ob f
  change step (s.placed lat rb ib ob) = mapNext (State.placed lat rb ib ob) (step s)
  cases hp : s.pending with
  | nil =>
    rw [step_nil hp]
    exact step_nil hp
  | cons e rest =>
    rw [step_cons hp]
    exact (step_cons (s := s.placed lat rb ib ob) hp).trans (hostEvent_placed lat rb ib ob e { s with pending := rest })

end Sys2Proof.Proofs
end

section
/-! The CRC generator's commands in sequence (42_crc.md R164, R168). -/

namespace Sys2Proof.Proofs

open Sys2Proof Sys2Proof.Machine

/-- Settles O13: each command of the sequence reads the registers the one before has just written. -/
theorem crcComputeIsInitFeedFinal : Obligations.CrcComputeIsInitFeedFinal := by
  intro s h
  have hfeed := exec_crcFeed_inside (s := complete (writeReg .crcAcc 0xFFFFFFFF s)) h
  exact ⟨_, _, _, exec_crcInit s, hfeed, exec_crcFinal _, exec_crcCompute_inside h⟩

/-- Settles O14: the two windows are one run of bytes, and feeding it in two pieces is feeding it whole. -/
theorem crcFeedsComposeOverAdjacentWindows : Obligations.CrcFeedsComposeOverAdjacentWindows := by
  intro s n m h
  have hbound := s.inLen.isLt
  have hoff : (BitVec.ofNat 32 (s.argOff.toNat + n.toNat)).toNat = s.argOff.toNat + n.toNat := word_toNat (by omega)
  have hlen : (BitVec.ofNat 32 (n.toNat + m.toNat)).toNat = n.toNat + m.toNat := word_toNat (by omega)
  have hfeeds : crcUpdate (crcUpdate s.crcAcc (memRead s.inBuf s.argOff.toNat n.toNat))
        (memRead s.inBuf (BitVec.ofNat 32 (s.argOff.toNat + n.toNat)).toNat m.toNat)
      = crcUpdate s.crcAcc (memRead s.inBuf s.argOff.toNat (BitVec.ofNat 32 (n.toNat + m.toNat)).toNat) := by
    rw [hoff, hlen, memRead_append, crcUpdate_append]
  have hfirst := exec_crcFeed_inside (s := { s with argLen := n }) (Nat.le_of_add_right_le h)
  have hwhole : s.argOff.toNat + (BitVec.ofNat 32 (n.toNat + m.toNat)).toNat ≤ s.inLen.toNat := by omega
  refine ⟨_, _, _, hfirst, exec_crcFeed_inside ?_, exec_crcFeed_inside hwhole, hfeeds, fun hacc => ?_⟩
  · exact hoff.symm ▸ h
  · rw [hacc] at hfeeds
    exact ⟨_, exec_crcCompute_inside hwhole, (congrArg (fun c => crcUpdate (crcUpdate c _) _) hacc).trans hfeeds⟩

end Sys2Proof.Proofs
end

section
/-! The frame reader against the serializer (43_frame.md R180 to R182, R186): it accepts exactly the serializer's bytes,
and reads no byte past them. -/

namespace Sys2Proof.Machine

/-- The fields of the frame at `p` are the same in two memories that agree on the frame's own bytes. -/
theorem frameFields_congr {m m' : Memory} {p : Nat}
    (h : ∀ a, p ≤ a → a < p + 12 + frameLen m p → inByte m' a = inByte m a) :
    frameLen m' p = frameLen m p ∧ frameStored m' p = frameStored m p ∧ frameCrc m' p = frameCrc m p
      ∧ memRead m' (p + 4) 4 = memRead m (p + 4) 4 := by
  have hread : ∀ a n, p ≤ a → a + n ≤ p + 12 + frameLen m p → memRead m' a n = memRead m a n :=
    fun a n hlo hhi => memRead_congr fun k hk1 hk2 => h k (by omega) (by omega)
  have hlen : frameLen m' p = frameLen m p := congrArg (fun bs => (be32 bs).toNat) (hread p 4 (by omega) (by omega))
  have htype := hread (p + 4) 4 (by omega) (by omega)
  refine ⟨hlen, ?_, ?_, htype⟩
  · rw [frameStored, hlen, hread _ 4 (by omega) (by omega), frameStored]
  · rw [frameCrc, hlen, htype, hread (p + 8) _ (by omega) (by omega), frameCrc]

theorem window_getElem (s : State) (n k : Nat) (h : k < (window s n).length) :
    (window s n)[k] = inByte s.inBuf (s.argOff.toNat + k) :=
  memRead_getElem _ _ _ _ h

/-- The data stands in the frame from its ninth byte on (20_memory.md R70). -/
theorem frameBytes_getElem_data {type : Word} {data : List Byte} {k : Nat} (hk : k < data.length)
    (h : 8 + k < (frameBytes type data).length := by simp; omega) : (frameBytes type data)[8 + k] = data[k] := by
  simp only [frameBytes]
  rw [List.getElem_append_left (by simp; omega), List.getElem_append_right (by simp)]
  simp

/-- FRAME_PARSE at the serializer's bytes, put into IN_BUF at IN_PTR (43_frame.md R182). -/
theorem exec_frameParse_frameBytes {u : State} {type : Word} {data : List Byte}
    (hin : u.inPtr.toNat + 12 + data.length ≤ u.inLen.toNat)
    (hbytes : memRead u.inBuf u.inPtr.toNat (12 + data.length) = frameBytes type data) :
    exec .frameParse u = .next (complete (loadFrame
      ⟨type, BitVec.ofNat 32 data.length, BitVec.ofNat 32 (u.inPtr.toNat + 8), crc32 (be32bytes type ++ data)⟩
      (u.inPtr.toNat + 12 + data.length) u)) :=
  exec_frameParse_ok (by omega) (frameAt_frameBytes u.inLen.isLt hin hbytes)

/-- FRAME_SERIALIZE of the fields an OK frame has, over the same IN_BUF, builds the bytes the frame was read from. -/
theorem frameBytes_window_of_frameAt {s : State} {m : Memory} {inLen p next : Nat} {e : FrameEntry}
    (h : frameAt m inLen p = .ok e next) (hl : inLen < 2 ^ 32) (htype : s.typeReg = e.type)
    (hoff : s.argOff = e.dataOff) (hbuf : s.inBuf = m) :
    frameBytes s.typeReg (window s e.len.toNat) = memRead m p (12 + e.len.toNat) := by
  obtain ⟨-, -, hdata, -⟩ := frameAt_ok_bounds h hl
  obtain ⟨hbytes, -⟩ := frameBytes_of_frameAt hl h
  rw [hbytes, window, htype, hoff, hbuf, hdata]

end Sys2Proof.Machine

namespace Sys2Proof.Proofs

open Sys2Proof Sys2Proof.Machine

/-- Settles O22: the type and the data of an OK frame are those its bytes are built from, and the converse. -/
theorem frameReaderAcceptsExactlySerializedFrames : Obligations.FrameReaderAcceptsExactlySerializedFrames := by
  intro m inLen p _ hl
  constructor
  · rintro ⟨e, next, h⟩
    obtain ⟨hend, hnext, -, -⟩ := frameAt_ok_bounds h hl
    obtain ⟨hbytes, -⟩ := frameBytes_of_frameAt hl h
    refine ⟨e.type, memRead m (p + 8) e.len.toNat, ?_, ?_⟩ <;> rw [memRead_length]
    · omega
    · exact hbytes
  · rintro ⟨type, data, hin, hbytes⟩
    exact ⟨_, _, frameAt_frameBytes hl hin hbytes⟩

/-- Settles O23: an OK answer speaks of the frame's fields and of where it ends, and of nothing past it. -/
theorem frameReaderIgnoresTheBytesAfterTheFrame : Obligations.FrameReaderIgnoresTheBytesAfterTheFrame := by
  intro m m' inLen inLen' p next e h hnext hbytes
  obtain ⟨-, hcrc, rfl, rfl⟩ := frameAt_ok_iff.1 h
  obtain ⟨hlen, hstored, hcomputed, htype⟩ := frameFields_congr hbytes
  rw [frameAt_ok_iff, hlen, hstored, hcomputed, htype]
  exact ⟨hnext, hcrc, rfl, rfl⟩

/-- Settles O27: the bytes in IN_BUF are the serializer's, and the reader answers what they were built from. -/
theorem serializedFrameParsesBack : Obligations.SerializedFrameParsesBack := by
  intro s t u h he hin hbytes
  obtain ⟨-, -, rfl⟩ := frameSerialize_success h he
  have hlen := frameBytes_window_length s
  have hbyte : ∀ k (hk : k < (frameBytes s.typeReg (window s s.argLen.toNat)).length),
      inByte u.inBuf (u.inPtr.toNat + k) = (frameBytes s.typeReg (window s s.argLen.toNat))[k] :=
    fun k hk => (hbytes k (hlen ▸ hk)).trans (emit_outHolds _ s k hk)
  have hdata : (window s s.argLen.toNat).length = s.argLen.toNat := window_length s _
  have hbound := u.inLen.isLt
  have hexec := exec_frameParse_frameBytes (data := window s s.argLen.toNat) (hdata.symm ▸ hin)
    (memRead_eq (frameBytes_length _ _) hbyte)
  have hoff : (BitVec.ofNat 32 (u.inPtr.toNat + 8)).toNat = u.inPtr.toNat + 8 := word_toNat (by omega)
  refine ⟨_, hexec, complete_succeeds rfl, rfl, ?length, hoff, rfl, rfl, ?inPtr, fun k hk => ?data⟩
  case length =>
    show BitVec.ofNat 32 (window s s.argLen.toNat).length = s.argLen
    rw [hdata, BitVec.ofNat_toNat, BitVec.setWidth_eq]
  case inPtr =>
    show (BitVec.ofNat 32 (u.inPtr.toNat + 12 + (window s s.argLen.toNat).length)).toNat = _
    rw [hdata, word_toNat (by omega)]
  case data =>
    show inByte u.inBuf ((BitVec.ofNat 32 (u.inPtr.toNat + 8)).toNat + k) = _
    rw [hoff, Nat.add_assoc, hbyte (8 + k) (by omega), frameBytes_getElem_data (by omega), window_getElem]

/-- Settles O28: the window is the data the frame was read with. -/
theorem parsedFrameSerializesBack : Obligations.ParsedFrameSerializesBack := by
  intro s t u h he htype hoff hlen hbuf hinLen hroom
  obtain ⟨e, next, hp, hf, rfl⟩ := frameParse_success h he
  simp only [complete_typeReg, complete_dataOff, complete_len, loadFrame_typeReg, loadFrame_dataOff, loadFrame_len]
    at htype hoff hlen hroom ⊢
  obtain ⟨hend, hnext, hdata, -⟩ := frameAt_ok_bounds hf s.inLen.isLt
  have hwin : u.argOff.toNat + u.argLen.toNat ≤ u.inLen.toNat := by
    rw [hoff, hlen, hinLen]
    omega
  have hbytes := frameBytes_window_of_frameAt (s := u) hf s.inLen.isLt htype hoff hbuf
  rw [← hlen] at hbytes hroom ⊢
  rw [Nat.add_assoc] at hroom
  refine ⟨_, exec_frameSerialize_room hwin hroom, complete_succeeds rfl, ?outPtr, ?inPtr, fun k hk => ?bytes⟩
  case outPtr => exact (emit_outPtr_toNat (frameBytes_window_length u) hroom).trans (Nat.add_assoc _ _ _).symm
  case inPtr => exact (ofNat_frameEnd_toNat hf).trans (hlen ▸ hnext)
  case bytes =>
    have hk' : k < (frameBytes u.typeReg (window u u.argLen.toNat)).length := (frameBytes_window_length u).symm ▸ hk
    refine (emit_outHolds _ u k hk').trans ?_
    simp only [hbytes, memRead_getElem]

end Sys2Proof.Proofs
end

section
/-! One inverted bit in IN_BUF (43_frame.md R183): the frame reader's answer to a frame whose type or data it hits. -/

namespace Sys2Proof.Machine

/-- A run of bytes after a write of one of them. -/
theorem memRead_write {m : Memory} {a q n : Nat} {v : Byte} (hlo : q ≤ a) :
    memRead (m.write a v) q n = (memRead m q n).modify (a - q) fun _ => v := by
  refine memRead_eq (by simp) fun k hk => ?_
  rw [List.getElem_modify]
  split
  · next h =>
    obtain rfl : q + k = a := by omega
    exact inByte_write_same m _ v
  · next h =>
    rw [inByte_write_other m v (by omega), memRead_getElem]

/-- The computed crc of a frame is the checksum of one run of bytes, the type's and the data's. -/
theorem frameCrc_eq (m : Memory) (p : Nat) : frameCrc m p = crc32 (memRead m (p + 4) (4 + frameLen m p)) := by
  rw [memRead_append]
  rfl

/-- Where a changed byte lies among the type and data of an OK frame, the reader finds the frame's own stored crc and
another computed one. -/
theorem frameAt_write_mismatch {m : Memory} {inLen p a next : Nat} {e : FrameEntry} {v : Byte} (hl : inLen < 2 ^ 32)
    (h : frameAt m inLen p = .ok e next) (hlo : p + 4 ≤ a) (hhi : a < p + 8 + e.len.toNat) (hv : v ≠ inByte m a) :
    ∃ c, frameAt (m.write a v) inLen p = .mismatch e.crc c ∧ c ≠ e.crc := by
  obtain ⟨-, -, -, hlen⟩ := frameAt_ok_bounds h hl
  obtain ⟨hin, hcrc, -, rfl⟩ := frameAt_ok_iff.1 h
  have hkept : ∀ q n, q + n ≤ p + 4 ∨ p + 8 + frameLen m p ≤ q → memRead (m.write a v) q n = memRead m q n :=
    fun q n hq => memRead_congr fun k _ _ => inByte_write_other m v (by omega)
  have hlen' : frameLen (m.write a v) p = frameLen m p :=
    congrArg (fun bs => (be32 bs).toNat) (hkept p 4 (.inl (Nat.le_refl _)))
  have hstored : frameStored (m.write a v) p = frameStored m p := by
    rw [frameStored, hlen', hkept _ _ (.inr (Nat.le_refl _)), frameStored]
  have hne : frameCrc (m.write a v) p ≠ frameStored m p := by
    rw [hcrc, frameCrc_eq, frameCrc_eq, hlen', memRead_write hlo]
    refine crc32_modify_ne (by rw [memRead_length]; omega) ?_
    rw [memRead_getElem, Nat.add_sub_of_le hlo]
    exact hv
  exact ⟨_, frameAt_mismatch_iff.2 ⟨by rwa [hlen'], hstored ▸ hne.symm, hstored.symm, rfl⟩, hne⟩

end Sys2Proof.Machine

namespace Sys2Proof.Proofs

open Sys2Proof Sys2Proof.Machine

/-- Settles O29: an inverted bit changes its byte. -/
theorem flippedTypeOrDataBitFailsTheParse : Obligations.FlippedTypeOrDataBitFailsTheParse := by
  intro s e next a b hp h hlo hhi hb
  obtain ⟨c, hc, hne⟩ := frameAt_write_mismatch s.inLen.isLt h hlo hhi (xor_twoPow_ne hb _)
  exact ⟨_, exec_frameParse_mismatch (s := flipInBit a b s) hp hc, raise_fails .crcMismatch .none _, rfl, hne, rfl, rfl⟩

end Sys2Proof.Proofs
end

section
/-! The host port, step by step: CMD writes, register reads, and writes of the registers the host may write
(10_state.md R22, R31 to R38, R46; 40_control.md R110). -/

namespace Sys2Proof.Machine

/-! ## CMD -/

/-- A legal word runs its command with CMD stored. -/
theorem issue_command {w : Word} {i : Instr} (h : decode w = .command i) (s : State) :
    issue w s = exec i { s with cmd := w } := by
  unfold issue
  rw [h]
  rfl

/-! ## Writes of the other registers -/

/-- The registers whose reads a host write of `r` may change: `r`, and those computed from it. -/
def shownIn : Reg → List Reg
  | .inLen => [.inLen, .status]
  | .inPtr => [.inPtr, .status]
  | .type => [.type, .typeFlags]
  | .ftIndex => [.ftIndex, .ftType, .ftLen, .ftDataOff, .ftCrc]
  | r => [r]

theorem readReg_writeReg_other (r : Reg) {q : Reg} (v : Word) (s : State) (hq : q ∉ shownIn r) :
    readReg (writeReg r v s) q = readReg s q := by
  cases r with
  | cmd => cases q with
    | cmd => exact absurd (by decide) hq
    | _ => rfl
  | argOff => cases q with
    | argOff => exact absurd (by decide) hq
    | _ => rfl
  | argLen => cases q with
    | argLen => exact absurd (by decide) hq
    | _ => rfl
  | inLen => cases q with
    | inLen | status => exact absurd (by decide) hq
    | _ => rfl
  | inPtr => cases q with
    | inPtr | status => exact absurd (by decide) hq
    | _ => rfl
  | outPtr => cases q with
    | outPtr => exact absurd (by decide) hq
    | _ => rfl
  | type => cases q with
    | type | typeFlags => exact absurd (by decide) hq
    | _ => rfl
  | crcAcc => cases q with
    | crcAcc => exact absurd (by decide) hq
    | _ => rfl
  | ftIndex => cases q with
    | ftIndex | ftType | ftLen | ftDataOff | ftCrc => exact absurd (by decide) hq
    | _ => rfl
  | _ => rfl

/-- A register write reaches no buffer, no table entry and nothing of the run. -/
theorem writeReg_keepsAllBut (r : Reg) (v : Word) (s : State) : KeepsAllBut (shownIn r) s (writeReg r v s) := by
  refine ⟨fun q hq => readReg_writeReg_other r v s hq, ?_⟩
  cases r <;> exact ⟨fun _ => rfl, fun _ => rfl, fun _ => rfl, runKept_refl _⟩

/-- The registers that store what the host writes whole (10_state.md R31, R32, R34, R36, R38, R46). -/
def plainRegs : List Reg := [.argOff, .argLen, .inPtr, .type, .crcAcc, .ftIndex]

theorem readReg_writeReg_same {r : Reg} (hr : r ∈ plainRegs) (v : Word) (s : State) :
    readReg (writeReg r v s) r = v := by
  unfold plainRegs at hr
  fin_cases hr <;> rfl

/-- Nothing is computed from ARG_OFF, ARG_LEN and CRC_ACC. -/
theorem shownIn_plain {r : Reg} (hr : r ∈ plainRegs) (hptr : r ≠ .inPtr) (htype : r ≠ .type) (hindex : r ≠ .ftIndex) :
    shownIn r = [r] := by
  unfold shownIn
  split
  · exact absurd hr (by decide)
  · exact absurd rfl hptr
  · exact absurd rfl htype
  · exact absurd rfl hindex
  · rfl

end Sys2Proof.Machine

namespace Sys2Proof.Proofs

open Sys2Proof Sys2Proof.Machine

/-- Settles O5: a step on a CMD write issues the word, and `withFetchWord` puts such a write at the head. -/
theorem stepRunsTheDecodedCommand : Obligations.StepRunsTheDecodedCommand := by
  refine ⟨fun s w i rest hp hd => (step_cmdWrite hp).trans (issue_command hd _), fun s w i hw hd => ?_⟩
  have hp : (s.withFetchWord 32 w).pending
      = .access ⟨.reg, 0x000, 32, .write (.lit (BitVec.ofNat 32 w))⟩ :: s.pending := by
    simp only [State.withFetchWord, cmdWrite, Nat.mod_eq_of_lt hw]
  exact (step_cmdWrite hp).trans (issue_command hd s)

/-- Settles O6: with nothing pending `step` is idle. -/
theorem idleEngineKeepsItsState : Obligations.IdleEngineKeepsItsState := fun _ => step_nil

/-- Settles O48: a read by a register's name, the register map row by row, and the reads as `readReg` has them. -/
theorem registerReadHasNoSideEffect : Obligations.RegisterReadHasNoSideEffect := by
  refine ⟨fun s r rest h => step_regRead h, fun r => ?_, fun s => ?_⟩
  · cases r <;> decide
  · exact ⟨rfl, rfl, rfl, rfl, rfl, rfl, rfl, rfl, rfl, rfl, rfl, rfl, rfl, rfl, rfl, rfl, rfl, rfl, rfl, rfl, rfl⟩

/-- Settles O50: the step is a register write, which keeps all but the register and those computed from it. -/
theorem plainRegisterWritesReadBack : Obligations.PlainRegisterWritesReadBack := by
  intro s r v rest hr h
  have hcmd : r ≠ .cmd := by
    rintro rfl
    exact absurd hr (by decide)
  have hkeeps := writeReg_keepsAllBut r v { s with pending := rest }
  refine ⟨_, step_regWrite hcmd h, readReg_writeReg_same hr v _, writeReg_status r v _, ?_, ?_, ?_,
    fun hptr htype hindex => shownIn_plain hr hptr htype hindex ▸ hkeeps⟩
  · rintro rfl
    exact hkeeps
  · rintro rfl
    exact hkeeps
  · rintro rfl
    exact hkeeps

/-- Settles O51: a write of either register stores the clamped value. -/
theorem inLenAndOutPtrWritesAreClamped : Obligations.InLenAndOutPtrWritesAreClamped := by
  refine fun s v rest => ⟨fun h => ?_, fun h => ?_⟩
  · exact ⟨_, step_regWrite (r := .inLen) (by decide) h, clamp_toNat v s.params.inCap, rfl,
      writeReg_keepsAllBut .inLen v { s with pending := rest }⟩
  · exact ⟨_, step_regWrite (r := .outPtr) (by decide) h, clamp_toNat v s.params.outCap, rfl,
      writeReg_keepsAllBut .outPtr v { s with pending := rest }⟩

end Sys2Proof.Proofs
end

section
/-! Reset between commands and during one (70_reset_and_hazards.md R261, R262): what it leaves of the buffers and the
table, and how a run with an abandoned command in it ends. -/

namespace Sys2Proof.Machine

theorem readReg_abandon (w : Word) (s : State) (r : Reg) :
    readReg (abandon w s) r = readReg (State.resetWith s.params) r := by
  rw [← readReg_assertReset]
  cases r <;> rfl

/-- A byte of OUT_BUF that an abandoned command has changed lies where the command, completed, would have written. -/
theorem abandon_changes_only_output {w : Word} {s : State} {a : Nat}
    (h : outByte (abandon w s).outBuf a ≠ outByte s.outBuf a) :
    ∃ i u, decode w = .command i ∧ exec i s = .next u ∧ s.outPtr.toNat ≤ a ∧ a < u.outPtr.toNat := by
  have hrange := not_imp_comm.1 (outByte_memWrite_outside s.outBuf s.outPtr.toNat
    (abandonedBytes s.draws s.outPtr.toNat (abandonedEnd w s - s.outPtr.toNat)) a) h
  rw [abandonedBytes_length] at hrange
  obtain hend | ⟨i, u, hd, hu, hend⟩ := abandonedEnd_cases w s
  · omega
  · exact ⟨i, u, hd, hu, hrange.1, by omega⟩

/-- A run with a reset during a command in it ends in a fault, in that command's at the latest. -/
theorem runProgram_faults_of_resetDuring {evs : List HostEvent} {w : Word} (h : .resetDuring w ∈ evs) (s : State) :
    ∃ f, runProgram evs s = .fault f := by
  induction evs generalizing s with
  | nil => exact absurd h List.not_mem_nil
  | cons e evs ih =>
    cases e with
    | access a =>
      have htail : .resetDuring w ∈ evs := (List.mem_cons.1 h).resolve_left nofun
      obtain ⟨-, t, ht⟩ | ⟨f, -, hf⟩ := hostAccess_ends a s
      · exact runProgram_access ht ▸ ih htail t
      · exact ⟨f, runProgram_access_fault hf⟩
    | reset => exact ih ((List.mem_cons.1 h).resolve_left nofun) (assertReset s)
    | resetDuring w' => exact ⟨_, runProgram_resetDuring w' evs s⟩
    | abandonedReply => exact ⟨.resetDuringCommand, rfl⟩

end Sys2Proof.Machine

namespace Sys2Proof.Proofs

open Sys2Proof Sys2Proof.Machine

/-- Settles O57: a reset writes neither buffer nor the table, and FRAME_COUNT 0 hides the table. -/
theorem resetKeepsBuffersAndTable : Obligations.ResetKeepsBuffersAndTable := by
  refine ⟨fun s rest h => ⟨_, step_reset h, fun _ => rfl, fun _ => rfl, fun _ => rfl, fun r hr => ?_⟩,
    fun p a => ⟨rfl, rfl⟩⟩
  exact readReg_ftWindow_of_frameCount_eq_zero rfl hr

/-- Settles O58: the registers are those of a reset, only the abandoned output is written, and the run ends in a
fault. -/
theorem abandonedCommandTouchesOnlyItsOwnOutput : Obligations.AbandonedCommandTouchesOnlyItsOwnOutput := by
  refine ⟨fun s w rest h => ?_, fun evs s w h => ?_⟩
  · refine ⟨_, .resetDuringCommand, step_cons h, readReg_abandon w _, fun _ => rfl, fun a ha => ?_, rfl⟩
    obtain ⟨i, u, hd, hu, hlo, hhi⟩ := abandon_changes_only_output ha
    obtain ⟨t, ht⟩ := exec_next i s
    rw [exec_pending, ht] at hu
    cases hu
    exact ⟨i, t, hd, ht, hlo, hhi⟩
  · obtain ⟨f, hf⟩ := runProgram_faults_of_resetDuring h s
    refine ⟨⟨f, hf⟩, fun t ht => ?_⟩
    obtain ⟨-, hnext, -⟩ := ht
    cases hf.symm.trans hnext

end Sys2Proof.Proofs
end

section
/-! STREAM_PARSE (44_stream.md R210, R213, R214): how the frame loop ends at the frame that follows a chain, and what
each end of the command writes and keeps. -/

namespace Sys2Proof.Machine

/-! ## The frame loop -/

/-- Before the end of the input the loop has fuel for one more pass. -/
theorem exists_fuel_eq_succ {inLen q fuel : Nat} (hq : q < inLen) (hf : inLen ≤ q + fuel) : ∃ f, fuel = f + 1 :=
  Nat.exists_eq_succ_of_ne_zero (by omega)

section
variable {s : State} {es : List FrameEntry} (hs : SigAt s s.inPtr.toNat)
include hs

/-- The loop reads the whole of a well-formed stream that fits the table. -/
theorem streamFrames_done (hc : FrameChain s.inBuf s.inLen.toNat (s.inPtr.toNat + 8) es s.inLen.toNat)
    (hl : es.length ≤ s.params.maxFrames.toNat) : streamFrames s = .done es := by
  obtain ⟨fuel, -, heq⟩ := streamFrames_chain hs hc hl
  rw [heq, parseFrames_at_end (Nat.le_refl _), foldr_cons_done, List.append_nil]

variable {q : Nat} (hc : FrameChain s.inBuf s.inLen.toNat (s.inPtr.toNat + 8) es q) (hq : q < s.inLen.toNat)
include hc hq

theorem streamFrames_eof (hl : es.length ≤ s.params.maxFrames.toNat) (h : frameAt s.inBuf s.inLen.toNat q = .eof) :
    streamFrames s = .eof q es.length := by
  obtain ⟨fuel, hf, heq⟩ := streamFrames_chain hs hc hl
  obtain ⟨f, rfl⟩ := exists_fuel_eq_succ hq hf
  simp only [heq, parseFrames, hq, h, if_true, foldr_cons_eof]

theorem streamFrames_mismatch {st c : Word} (hl : es.length ≤ s.params.maxFrames.toNat)
    (h : frameAt s.inBuf s.inLen.toNat q = .mismatch st c) : streamFrames s = .mismatch q es.length st c := by
  obtain ⟨fuel, hf, heq⟩ := streamFrames_chain hs hc hl
  obtain ⟨f, rfl⟩ := exists_fuel_eq_succ hq hf
  simp only [heq, parseFrames, hq, h, if_true, foldr_cons_mismatch]

theorem streamFrames_full {e : FrameEntry} {next : Nat} (hl : es.length = s.params.maxFrames.toNat)
    (h : frameAt s.inBuf s.inLen.toNat q = .ok e next) : streamFrames s = .full q es.length := by
  obtain ⟨fuel, hf, heq⟩ := streamFrames_chain hs hc hl.le
  obtain ⟨f, rfl⟩ := exists_fuel_eq_succ hq hf
  simp only [heq, parseFrames, hq, h, hl, if_true, foldr_cons_full]

end

/-! ## What a success writes -/

/-- The number of frames that fit the table fits FRAME_COUNT. -/
theorem ofNat_frameCount_toNat {s : State} {n : Nat} (h : n ≤ s.params.maxFrames.toNat) :
    (BitVec.ofNat 32 n).toNat = n :=
  word_toNat (Nat.lt_of_le_of_lt h s.params.maxFrames.isLt)

/-- The stored frames are the first entries of the table. -/
theorem ftEntry_below {t : State} {es ft : List FrameEntry} (hft : t.ft = storeFrames es ft) {k : Nat}
    (hk : k < es.length) : ftEntry t k = es[k] := by
  rw [ftEntry, hft, storeFrames_getElem?, if_pos hk, List.getElem?_eq_getElem hk, Option.getD_some]

/-- The entries past the stored frames are as they were. -/
theorem ftEntry_above {s t : State} {es : List FrameEntry} (hft : t.ft = storeFrames es s.ft) {k : Nat}
    (hk : es.length ≤ k) : ftEntry t k = ftEntry s k := by
  rw [ftEntry, hft, storeFrames_getElem?, if_neg (Nat.not_lt.2 hk), ftEntry]

/-- What a successful STREAM_PARSE leaves in the table: the frames of the well-formed stream it has found, and their
number. -/
theorem streamParse_table {s t : State} (h : exec .streamParse s = .next t) (he : t.status.err = false) :
    ∃ es, WellFormedStream s s.inPtr.toNat es ∧ t.frameCount.toNat = es.length
      ∧ ∀ k (hk : k < es.length), ftEntry t k = es[k] := by
  obtain ⟨es, hstream, hfits, rfl⟩ := streamParse_success h he
  exact ⟨es, hstream, ofNat_frameCount_toNat hfits, fun k hk => ftEntry_below rfl hk⟩

theorem complete_storeFrames_regsKept (es : List FrameEntry) (n p : Word) (s : State) :
    RegsKeptBut [.frameCount, .ftType, .ftLen, .ftDataOff, .ftCrc, .inPtr, .storedCrc, .status] s
      (complete { s with ft := storeFrames es s.ft, frameCount := n, inPtr := p }) := by
  intro r hr
  cases r with
  | frameCount | ftType | ftLen | ftDataOff | ftCrc | inPtr | status => exact absurd (by decide) hr
  | _ => rfl

/-! ## What a failure past IN_PTR's check writes -/

theorem KeepsAllBut.forgetTable {rs rs' : List Reg} {s t : State} (h : KeepsAllBut rs s t) (hrs : rs ⊆ rs') :
    KeepsAllButTable rs' s t := by
  have hregs := h.regsKeptBut hrs
  obtain ⟨-, hin, hout, -, hrun⟩ := h
  exact ⟨hregs, hin, hout, hrun⟩

/-- What STREAM_PARSE ends in that stops at `q` after `k` frames. -/
theorem stops_of_eq_raise {o : Host.Outcome State Fault Refusal} {e sub : ErrorKind} {q k : Nat} {s : State}
    (h : o = .next (raise e sub (stopStream q k s))) (hq : q < 2 ^ 32) (hk : k < 2 ^ 32) :
    ∃ t, o = .next t ∧ t.errOff.toNat = q ∧ t.errFrame.toNat = k ∧ t.frameCount = 0 ∧ Fails e.code sub.code s t
      ∧ KeepsAllButTable [.errOff, .errFrame, .frameCount, .ftType, .ftLen, .ftDataOff, .ftCrc, .status] s t :=
  ⟨_, h, word_toNat hq, word_toNat hk, rfl, raise_fails e sub (stopStream q k s),
    ((stopStream_keepsAllBut q k s).trans (raise_keepsAllBut e sub _)).forgetTable (List.Subset.refl _)⟩

end Sys2Proof.Machine

namespace Sys2Proof.Proofs

open Sys2Proof Sys2Proof.Machine

/-- Settles O33: a success has read a well-formed stream, and such a stream makes the loop end without a stop. -/
theorem streamParseSucceedsExactlyOnWellFormedStreams : Obligations.StreamParseSucceedsExactlyOnWellFormedStreams := by
  intro s
  constructor
  · rintro ⟨t, h, he⟩
    obtain ⟨es, hstream, hfits, -⟩ := streamParse_success h he
    exact ⟨es, hstream, hfits⟩
  · rintro ⟨es, ⟨hs, hc⟩, hfits⟩
    exact ⟨_, exec_streamParse_done hs (streamFrames_done hs hc hfits), rfl⟩

/-- Settles O32: the two checks before the loop, and the four ways the loop ends. -/
theorem streamParseFillsTheTableOrStops : Obligations.StreamParseFillsTheTableOrStops := by
  have hcount {s : State} {es : List FrameEntry} (h : es.length ≤ s.params.maxFrames.toNat) : es.length < 2 ^ 32 :=
    Nat.lt_of_le_of_lt h s.params.maxFrames.isLt
  have hoffset {s : State} {q : Nat} (h : q < s.inLen.toNat) : q < 2 ^ 32 := h.trans s.inLen.isLt
  refine ⟨decode_eq_command_iff.2 (by decide), fun s es hstream hl => ?done,
    fun _ h => fails_of_eq_raise (exec_streamParse_outside h), fun s hp hsig => ?noSignature,
    fun s es q hs hc hq hl h => ?eof, fun s es q st c hs hc hq hl h => ?mismatch,
    fun s es q e next hs hc hq hl h => ?full, fun s t h he => ?storedCrc⟩
  case done =>
    obtain ⟨hs, hc⟩ := hstream
    exact ⟨_, exec_streamParse_done hs (streamFrames_done hs hc hl), ofNat_frameCount_toNat hl,
      fun k hk => ftEntry_below rfl hk, fun k hk => ftEntry_above rfl hk, rfl, complete_succeeds rfl,
      complete_storeFrames_regsKept es _ _ s, fun _ => rfl, fun _ => rfl, runKept_refl s⟩
  case noSignature =>
    obtain ⟨t, ht, hoff, hframe, hrest⟩ :=
      stops_of_eq_raise (exec_streamParse_noSignature hp hsig) s.inPtr.isLt (by decide)
    exact ⟨t, ht, BitVec.eq_of_toNat_eq hoff, BitVec.eq_of_toNat_eq hframe, hrest⟩
  case eof =>
    exact stops_of_eq_raise (exec_streamParse_eof hs (streamFrames_eof hs hc hq hl h)) (hoffset hq) (hcount hl)
  case full =>
    exact stops_of_eq_raise (exec_streamParse_full hs (streamFrames_full hs hc hq hl h)) (hoffset hq) (hcount hl.le)
  case mismatch =>
    have hkeeps := ((stopStream_keepsAllBut q es.length s).trans (setFrameCrcs_keepsAllBut st c _)).trans
      (raise_keepsAllBut .malformedChunkStream .crcMismatch _)
    exact ⟨_, exec_streamParse_mismatch hs (streamFrames_mismatch hs hc hq hl h), word_toNat (hoffset hq),
      word_toNat (hcount hl), rfl, rfl, rfl, raise_fails .malformedChunkStream .crcMismatch (stopStream q es.length s),
      hkeeps.forgetTable (by decide)⟩
  case storedCrc =>
    obtain ⟨es, -, -, rfl⟩ := streamParse_success h he
    rfl

end Sys2Proof.Proofs
end

section
/-! FRAME_PARSE repeated (43_frame.md R186): from a position inside a well-formed stream it reads frame after frame. -/

namespace Sys2Proof.Machine

/-- A program that begins with a CMD write of FRAME_PARSE's word goes on from the parsed frame's end. -/
theorem runProgram_frameParse {v : State} {e : FrameEntry} {next : Nat} (evs : List HostEvent)
    (hp : v.inPtr.toNat ≤ v.inLen.toNat) (h : frameAt v.inBuf v.inLen.toNat v.inPtr.toNat = .ok e next) :
    runProgram (cmdWrite 0x00000021 :: evs) v
      = runProgram evs (complete (loadFrame e next { v with cmd := 0x00000021 })) := by
  have hd : decode 0x00000021 = .command .frameParse := decode_eq_command_iff.2 (by decide)
  refine runProgram_access ((hostAccess_cmdWrite _ v).trans ((issue_command hd v).trans ?_))
  exact exec_frameParse_ok (s := { v with cmd := 0x00000021 }) hp h

theorem eos_iff (u : State) : eos u = true ↔ u.inPtr.toNat = u.inLen.toNat := by
  rw [eos, beq_iff_eq, BitVec.toNat_inj]

/-- Of the frames of a chain that ends at IN_LEN, `k + 1` FRAME_PARSE commands leave the fields of frame `k`, and IN_PTR
at IN_LEN just when that is the last. -/
theorem runProgram_frameParses {k : Nat} {v : State} {es : List FrameEntry}
    (hc : FrameChain v.inBuf v.inLen.toNat v.inPtr.toNat es v.inLen.toNat) (hk : k < es.length) :
    ∃ u, runProgram (List.replicate (k + 1) (cmdWrite 0x00000021)) v = .next u
      ∧ u.status.err = false ∧ u.typeReg = es[k].type ∧ u.len = es[k].len ∧ u.dataOff = es[k].dataOff
      ∧ u.storedCrc = es[k].crc ∧ (eos u = true ↔ k + 1 = es.length) := by
  induction k generalizing v es with
  | zero =>
    obtain ⟨e, es, rfl⟩ := List.exists_cons_of_length_pos hk
    obtain ⟨next, hf, hrest⟩ := hc
    have hnext := frameAt_ok_advances hf
    have hend := frameChain_le hrest
    have hptr : (BitVec.ofNat 32 next).toNat = next := ofNat_frameEnd_toNat hf
    refine ⟨_, (runProgram_frameParse [] (by omega) hf).trans (runProgram_nil _), rfl, rfl, rfl, rfl, rfl, ?_⟩
    rw [eos_iff]
    change (BitVec.ofNat 32 next).toNat = v.inLen.toNat ↔ _
    rw [hptr]
    cases es with
    | nil => exact iff_of_true hrest rfl
    | cons f fs =>
      rw [List.length_cons] at hend
      exact iff_of_false (by omega) (by simp)
  | succ k ih =>
    obtain ⟨e, es, rfl⟩ := List.exists_cons_of_length_pos (Nat.zero_lt_of_lt hk)
    obtain ⟨next, hf, hrest⟩ := hc
    have hnext := frameAt_ok_advances hf
    have hptr : (BitVec.ofNat 32 next).toNat = next := ofNat_frameEnd_toNat hf
    rw [List.replicate_succ, runProgram_frameParse _ (by omega) hf]
    have hrest' : FrameChain v.inBuf v.inLen.toNat (BitVec.ofNat 32 next).toNat es v.inLen.toNat := hptr.symm ▸ hrest
    obtain ⟨u, hu, herr, htype, hlen, hoff, hcrc, heos⟩ :=
      ih (v := complete (loadFrame e next { v with cmd := 0x00000021 })) hrest' (Nat.lt_of_succ_lt_succ hk)
    exact ⟨u, hu, herr, htype, hlen, hoff, hcrc, heos.trans (by simp)⟩

end Sys2Proof.Machine

namespace Sys2Proof.Proofs

open Sys2Proof Sys2Proof.Machine

/-- Settles O34: the frames in the table are those of the chain that starts just after the signature. -/
theorem repeatedFrameParseVisitsTheStream : Obligations.RepeatedFrameParseVisitsTheStream := by
  intro s t h he k hk
  obtain ⟨es, ⟨hs, hc⟩, hcount, hentry⟩ := streamParse_table h he
  rw [hcount] at hk ⊢
  rw [hentry k hk]
  have hptr := ofNat_signatureEnd_toNat hs
  rw [← hptr] at hc
  exact runProgram_frameParses (v := { s with inPtr := BitVec.ofNat 32 (s.inPtr.toNat + 8) }) hc hk

end Sys2Proof.Proofs
end

section
/-! The host's serialization of a parsed container (44_stream.md R215): command by command it copies the parsed bytes to
OUT_BUF. -/

namespace Sys2Proof.Machine

/-- The bytes IN_BUF[p..q) of `s` stand at the beginning of OUT_BUF, and the next will be put after them; nothing has
failed since `s`, IN_BUF is as there, and OUT_BUF has room for the rest of the input. -/
structure CopiedTo (s : State) (p q : Nat) (v : State) : Prop where
  inBuf : v.inBuf = s.inBuf
  inLen : v.inLen = s.inLen
  room : s.inLen.toNat - p ≤ v.params.outCap.toNat
  outPtr : p + v.outPtr.toNat = q
  bytes : ∀ k < v.outPtr.toNat, outByte v.outBuf k = inByte s.inBuf (p + k)
  err : v.status.err = false
  anyErr : v.status.anyErr = s.status.anyErr

/-- With OUT_PTR set to 0 nothing is copied yet. -/
theorem CopiedTo.start {s v : State} {p : Nat} {c : Word} (hbuf : v.inBuf = s.inBuf) (hlen : v.inLen = s.inLen)
    (hroom : s.inLen.toNat - p ≤ v.params.outCap.toNat) (herr : v.status.err = false)
    (hany : v.status.anyErr = s.status.anyErr) : CopiedTo s p p { writeReg .outPtr 0 v with cmd := c } := by
  have hzero : (clamp 0 v.params.outCap).toNat = 0 := (clamp_toNat _ _).trans (Nat.zero_min _)
  exact
    { inBuf := hbuf, inLen := hlen, room := hroom, outPtr := congrArg (p + ·) hzero
      bytes := fun k hk => absurd (hzero ▸ hk) (Nat.not_lt_zero k), err := herr, anyErr := hany }

/-- A store of the next bytes of IN_BUF carries the copy on. -/
theorem CopiedTo.append {s v : State} {p q n : Nat} {bs : List Byte} (h : CopiedTo s p q v) (hq : q + n ≤ s.inLen.toNat)
    (hbs : bs = memRead s.inBuf q n) : CopiedTo s p (q + n) (emit bs v) := by
  have hlen : bs.length = n := by rw [hbs, memRead_length]
  have hroom := h.room
  have hptr := h.outPtr
  have hptr' : (emit bs v).outPtr.toNat = v.outPtr.toNat + n := emit_outPtr_toNat hlen (by omega)
  refine { inBuf := h.inBuf, inLen := h.inLen, room := h.room, outPtr := by omega, bytes := fun k hk => ?_
           err := h.err, anyErr := h.anyErr }
  rw [hptr'] at hk
  rcases Nat.lt_or_ge k v.outPtr.toNat with hold | hnew
  · exact (outByte_memWrite_outside v.outBuf _ bs k (by omega)).trans (h.bytes k hold)
  · obtain ⟨j, rfl⟩ := Nat.exists_eq_add_of_le hnew
    subst hbs
    refine (outByte_memWrite_inside v.outBuf _ _ j (by omega)).trans ?_
    rw [memRead_getElem, ← hptr, Nat.add_assoc]

/-- SIG_EMIT copies the signature. -/
theorem CopiedTo.sigEmit {s v : State} {p : Nat} (h : CopiedTo s p p v) (hs : SigAt s p) :
    ∃ u, exec .sigEmit v = .next u ∧ CopiedTo s p (p + 8) u := by
  obtain ⟨hin, hsig⟩ := hs
  have hroom := h.room
  have hptr := h.outPtr
  exact ⟨_, exec_sigEmit_room (by omega), { h.append hin hsig.symm with err := rfl }⟩

/-- FRAME_SERIALIZE with the type, data offset and length of an OK frame copies the frame. -/
theorem CopiedTo.frameSerialize {s v : State} {p q next : Nat} {e : FrameEntry} (h : CopiedTo s p q v)
    (hf : frameAt s.inBuf s.inLen.toNat q = .ok e next) (htype : v.typeReg = e.type) (hoff : v.argOff = e.dataOff)
    (hlen : v.argLen = e.len) : ∃ u, exec .frameSerialize v = .next u ∧ CopiedTo s p next u := by
  obtain ⟨hend, hnext, hdata, -⟩ := frameAt_ok_bounds hf s.inLen.isLt
  have hbytes := frameBytes_window_of_frameAt (s := v) hf s.inLen.isLt htype hoff h.inBuf
  obtain rfl : next = q + (12 + e.len.toNat) := by omega
  have hroom := h.room
  have hptr := h.outPtr
  rw [← hlen] at hbytes hend ⊢
  have hwin : v.argOff.toNat + v.argLen.toNat ≤ v.inLen.toNat := by
    rw [hoff, h.inLen]
    omega
  exact ⟨_, exec_frameSerialize_room hwin (by omega), { h.append hend hbytes with err := rfl }⟩

/-- `ser t, off, n` runs FRAME_SERIALIZE on those operands (30_encoding.md R98). -/
theorem runProgram_ser {v u : State} {t off n : Word} (evs : List HostEvent)
    (h : exec .frameSerialize
      { v with typeReg := t, argOff := off, argLen := n, cmd := encode .frameSerialize } = .next u) :
    runProgram ((HostStmt.ser t off n).expand ++ evs) v = runProgram evs u := by
  simp only [HostStmt.expand, List.cons_append, List.nil_append, regWrite]
  rw [runProgram_access (hostAccess_regWrite .type t v (by decide)),
    runProgram_access (hostAccess_regWrite .argOff off _ (by decide)),
    runProgram_access (hostAccess_regWrite .argLen n _ (by decide)),
    runProgram_access ((hostAccess_cmd .frameSerialize _).trans h)]

/-- One `ser` per frame of a chain copies the whole chain. -/
theorem CopiedTo.runProgram_sers {s v : State} {p q q' : Nat} {es : List FrameEntry} (h : CopiedTo s p q v)
    (hc : FrameChain s.inBuf s.inLen.toNat q es q') :
    ∃ u, runProgram (expandProgram (es.map fun e => .ser e.type e.dataOff e.len)) v = .next u ∧ CopiedTo s p q' u := by
  induction es generalizing v q with
  | nil =>
    obtain rfl : q = q' := hc
    exact ⟨_, runProgram_nil v, { h with }⟩
  | cons e es ih =>
    obtain ⟨next, hf, hrest⟩ := hc
    have hset : CopiedTo s p q
        { v with typeReg := e.type, argOff := e.dataOff, argLen := e.len, cmd := encode .frameSerialize } := { h with }
    obtain ⟨w, hw, hcopied⟩ := hset.frameSerialize hf rfl rfl rfl
    obtain ⟨u, hu, hall⟩ := ih hcopied hrest
    exact ⟨u, (runProgram_ser _ hw).trans hu, hall⟩

/-- The host's serialization begins by setting OUT_PTR to 0 and emitting the signature. -/
theorem runProgram_serializeFrames {v u : State} (es : List FrameEntry)
    (h : exec .sigEmit { writeReg .outPtr 0 v with cmd := encode .sigEmit } = .next u) :
    runProgram (expandProgram (serializeFrames es)) v
      = runProgram (expandProgram (es.map fun e => .ser e.type e.dataOff e.len)) u := by
  simp only [serializeFrames, expandProgram, List.flatMap_cons, HostStmt.expand, List.cons_append, List.nil_append,
    regWrite]
  rw [runProgram_access (hostAccess_regWrite .outPtr 0 v (by decide)),
    runProgram_access ((hostAccess_cmd .sigEmit _).trans h)]

end Sys2Proof.Machine

namespace Sys2Proof.Proofs

open Sys2Proof Sys2Proof.Machine

/-- Settles O35: the signature and then frame by frame, the bytes from IN_PTR to IN_LEN are copied. -/
theorem containerRoundTrip : Obligations.ContainerRoundTrip := by
  intro s t es h he hes hroom
  obtain ⟨fs, ⟨hs, hc⟩, hcount, hentry⟩ := streamParse_table h he
  obtain rfl : es = fs := by
    rw [hes, hcount]
    exact List.ext_getElem (by simp) fun k h1 h2 => by simp [hentry k h2]
  obtain ⟨-, -, -, hlen, -, hbuf⟩ := exec_keeps_hostWritten h
  obtain ⟨hparams, -⟩ := exec_runKept h
  have hany := exec_success_keeps_anyErr h he (by decide)
  obtain ⟨w, hw, hsig⟩ := (CopiedTo.start hbuf hlen (hparams ▸ hroom) he hany).sigEmit hs
  obtain ⟨u, hu, hall⟩ := hsig.runProgram_sers hc
  have hptr := hall.outPtr
  exact ⟨u, (runProgram_serializeFrames es hw).trans hu, hall.err, hall.anyErr.trans hany.symm, by omega,
    fun k hk => hall.bytes k (by omega)⟩

end Sys2Proof.Proofs
end

section
/-! `out2in` (30_encoding.md R98): each byte is read from OUT_BUF and written back to IN_BUF at the same offset. -/

namespace Sys2Proof.Machine

/-- The read and the write-back of one byte, run as the head of a program. -/
theorem runProgram_copyByte {s : State} {k : Nat} (evs : List HostEvent) (hout : k < s.params.outCap.toNat)
    (hin : k < s.params.inCap.toNat) :
    runProgram (byteAccess .outBuf k .read :: byteAccess .inBuf k (.write .lastRead) :: evs) s
      = runProgram evs { s with
          inBuf := s.inBuf.write k (outByte s.outBuf k)
          hostReads := (outByte s.outBuf k).setWidth 32 :: s.hostReads } := by
  have hread : hostAccess ⟨.outBuf, k, 8, .read⟩ s
      = .next { s with hostReads := (outByte s.outBuf k).setWidth 32 :: s.hostReads } := by
    simp only [hostAccess, accessFault_outBuf_eq_none_iff.2 ⟨rfl, hout⟩, hostRead]
  have hwrite : hostAccess ⟨.inBuf, k, 8, .write .lastRead⟩
        { s with hostReads := (outByte s.outBuf k).setWidth 32 :: s.hostReads }
      = .next { s with
          inBuf := s.inBuf.write k (outByte s.outBuf k)
          hostReads := (outByte s.outBuf k).setWidth 32 :: s.hostReads } := by
    simp only [hostAccess, accessFault_inBuf_eq_none_iff.2 ⟨rfl, hin⟩, hostWrite, HostValue.word, List.headD_cons]
    rw [BitVec.setWidth_setWidth_of_le _ (by decide), BitVec.setWidth_eq]
  exact (runProgram_access hread).trans (runProgram_access hwrite)

/-- The copies of the offsets `k` to `k + n - 1` change those bytes of IN_BUF and the host's log. -/
theorem runProgram_copyBytes {s : State} {k n : Nat} (evs : List HostEvent) (hout : k + n ≤ s.params.outCap.toNat)
    (hin : k + n ≤ s.params.inCap.toNat) :
    ∃ m reads, runProgram (copyBytes k n ++ evs) s = runProgram evs { s with inBuf := m, hostReads := reads }
      ∧ (∀ a, k ≤ a → a < k + n → inByte m a = outByte s.outBuf a)
      ∧ ∀ a, a < k ∨ k + n ≤ a → inByte m a = inByte s.inBuf a := by
  induction n generalizing k s with
  | zero => exact ⟨s.inBuf, s.hostReads, rfl, fun a _ _ => by omega, fun _ _ => rfl⟩
  | succ n ih =>
    have hout' : k + 1 + n ≤ s.params.outCap.toNat := by omega
    have hin' : k + 1 + n ≤ s.params.inCap.toNat := by omega
    obtain ⟨m, reads, hrun, hcopied, hkept⟩ := ih (k := k + 1) (s := { s with
      inBuf := s.inBuf.write k (outByte s.outBuf k)
      hostReads := (outByte s.outBuf k).setWidth 32 :: s.hostReads }) hout' hin'
    refine ⟨m, reads, (runProgram_copyByte _ (by omega) (by omega)).trans hrun, fun a hlo hhi => ?_, fun a ha => ?_⟩
    · rcases Nat.eq_or_lt_of_le hlo with rfl | hlo'
      · exact (hkept k (.inl (Nat.lt_succ_self k))).trans (inByte_write_same _ _ _)
      · exact hcopied a hlo' (by omega)
    · exact (hkept a (by omega)).trans (inByte_write_other _ _ (by omega))

/-- The writes of IN_LEN and IN_PTR that end `out2in`. -/
theorem runProgram_setInput (n p : Word) (s : State) :
    runProgram [regWrite .inLen n, regWrite .inPtr p] s
      = .next { writeReg .inPtr p (writeReg .inLen n s) with pending := [] } := by
  refine (runProgram_access (hostAccess_regWrite .inLen n s (by decide))).trans ?_
  exact (runProgram_access (hostAccess_regWrite .inPtr p _ (by decide))).trans (runProgram_nil _)

end Sys2Proof.Machine

namespace Sys2Proof.Proofs

open Sys2Proof Sys2Proof.Machine

/-- Settles O55: the copies, byte by byte, and then the two register writes, IN_LEN's not clamped. -/
theorem outToInCopiesTheBytes : Obligations.OutToInCopiesTheBytes := by
  intro s n hin hout
  obtain ⟨m, reads, hrun, hcopied, hkept⟩ :=
    runProgram_copyBytes (s := s) (k := 0) (n := n) [regWrite .inLen (BitVec.ofNat 32 n), regWrite .inPtr 0]
      (by omega) (by omega)
  have hcap := s.params.inCap.isLt
  refine ⟨_, hrun.trans (runProgram_setInput _ _ _), fun k hk => hcopied k (Nat.zero_le k) (by omega),
    fun k hk => hkept k (.inr (by omega)), fun _ => rfl, ?inLen, rfl, rfl, fun r hr => ?regs, fun _ => rfl, rfl, rfl,
    rfl⟩
  case inLen =>
    refine (clamp_toNat _ _).trans ?_
    rw [word_toNat (by omega)]
    exact Nat.min_eq_left hin
  case regs =>
    cases r with
    | inLen | inPtr | status => exact absurd (by decide) hr
    | _ => rfl

end Sys2Proof.Proofs
end
